-- ==== Sys2Proof/Word.lean ====
section
/-! DEFINITION. The bit-vector types the spec treats as bits (00_scope.md R7). -/

namespace Sys2Proof

/-- `u8`: an opcode byte, a parameter byte, a source byte or a wire byte. -/
abbrev Byte := BitVec 8

/-- `u16`: an RGB565 source word (R50) or a window coordinate (R48). -/
abbrev Half := BitVec 16

/-- `u32`: an XRGB8888 source word (R51). -/
abbrev Quad := BitVec 32

end Sys2Proof
end

