-- ==== Sys2Proof/Config.lean ====
section
/-! DEFINITION. The implementation parameters of 00_scope.md R6, their defaults, and the free values. A parameter is a
field of `Params`, and the machine reads it from `State.cfg`: a statement over every state is a statement over every
value of the parameters (log 1). A free value is a constant with no body, so nothing can be proved of it. -/

namespace Sys2Proof

/-- The opcode byte of every panel command, the parameter `OPC` (R47, D13). -/
structure Opcodes where
  dispoff : Byte
  pgamctrl : Byte
  ngamctrl : Byte
  pwctrl1 : Byte
  pwctrl2 : Byte
  vcmpctl : Byte
  madctl : Byte
  colmod : Byte
  ifmode : Byte
  frmctr1 : Byte
  invtr : Byte
  dfunctr : Byte
  etmod : Byte
  adjctrl3 : Byte
  slpout : Byte
  noron : Byte
  dispon : Byte
  caset : Byte
  paset : Byte
  ramwr : Byte
  deriving DecidableEq, Repr

/-- The twenty opcodes in the order of the table of R47. -/
def Opcodes.toList (o : Opcodes) : List Byte :=
  [o.dispoff, o.pgamctrl, o.ngamctrl, o.pwctrl1, o.pwctrl2, o.vcmpctl, o.madctl, o.colmod, o.ifmode, o.frmctr1,
    o.invtr, o.dfunctr, o.etmod, o.adjctrl3, o.slpout, o.noron, o.dispon, o.caset, o.paset, o.ramwr]

/-- The parameter bytes of the fixed initialization commands, the parameter `INIT_PARAMS` (R95, D14). The gamma tables
have 15 bytes each (R99, R100). -/
structure InitParams where
  pgam : Vector Byte 15
  ngam : Vector Byte 15
  pwctrl1 : List Byte
  pwctrl2 : List Byte
  vcmpctl : List Byte
  madctl0 : Byte
  colmod : Byte
  ifmode : List Byte
  frmctr1 : List Byte
  invtr : List Byte
  dfunctr : List Byte
  etmod : List Byte
  adjctrl3 : List Byte
  deriving DecidableEq, Repr, Inhabited

/-- The two readings of the RGB565 channel expansion (R65, D10). -/
inductive Expand565 where
  | zeroFill
  | replicate
  deriving DecidableEq, Repr

/-- A power-control or VCOM-control command, an element of `PWR_SEQ` (R95, D15). -/
inductive PwrCmd where
  | pwctrl1
  | pwctrl2
  | vcmpctl
  deriving DecidableEq, Repr

/-- The answer of the transport's `reset_and_power_on()` (R35, R92). -/
inductive ResetResult where
  | failed
  | retained
  | needsInit
  deriving DecidableEq, Repr, Inhabited

/-- The parameters of R6 that are not fixed per device at bind. -/
structure Params where
  panelW : Nat
  panelH : Nat
  fw : Nat
  fh : Nat
  expand : Expand565
  opc : Opcodes
  init : InitParams
  pwrSeq : List PwrCmd
  /-- `MADCTL_EXTRA`. No rule bounds it; that it is any byte, one with bits 7:5 set among them, is the model's choice
  (log 31). -/
  madctlExtra : Byte
  blInitial : Bool
  deriving DecidableEq, Repr

/-- Wire bytes per pixel, `WIRE_BPP` (R6). -/
def Config.wireBpp : Nat := 3

/-- `WB_SIZE = FW*FH*3` (R6, R19). -/
def Params.wbSize (p : Params) : Nat := p.fw * p.fh * Config.wireBpp

/-- `T_SLPOUT` in milliseconds (R6, R112). -/
def Config.tSlpout : Nat := 120

/-- `T_DISPON` in milliseconds (R6, R114). -/
def Config.tDispon : Nat := 100

/-- The default opcodes (R47): from general knowledge, as the spec itself marks them (log 17). -/
def Config.opcodes : Opcodes where
  dispoff := 0x28
  pgamctrl := 0xE0
  ngamctrl := 0xE1
  pwctrl1 := 0xC0
  pwctrl2 := 0xC1
  vcmpctl := 0xC5
  madctl := 0x36
  colmod := 0x3A
  ifmode := 0xB0
  frmctr1 := 0xB1
  invtr := 0xB4
  dfunctr := 0xB6
  etmod := 0xB7
  adjctrl3 := 0xF7
  slpout := 0x11
  noron := 0x13
  dispon := 0x29
  caset := 0x2A
  paset := 0x2B
  ramwr := 0x2C

/-- `INIT_PARAMS` is OPEN (R6, D14): a constant with no body. -/
opaque Config.initParams : InitParams

/-- The parameters with the defaults of R6. -/
def Config.params : Params where
  panelW := 320
  panelH := 480
  fw := 320
  fh := 480
  expand := .zeroFill
  opc := Config.opcodes
  init := Config.initParams
  pwrSeq := [.pwctrl1, .pwctrl2, .vcmpctl]
  madctlExtra := 0x00
  blInitial := false

/-- Free value: whether the k-th allocation at bind succeeds (R124). -/
opaque Config.freeAlloc : Nat → Bool

/-- Free value: the k-th answer of a reset (R35, R92). -/
opaque Config.freeReset : Nat → ResetResult

/-- Free value: the k-th answer of a `BusCmd` or `BusData` (R35). -/
opaque Config.freeOk : Nat → Bool

/-- Free value: the k-th source byte read past the mapped memory (R27). -/
opaque Config.freeByte : Nat → Byte

/-- Free value: the k-th choice between the old and the new values of a source byte under a host write (R31). -/
opaque Config.freePick : Nat → Nat

/-- Free value: whether a request goes on at the k-th step boundary after a removal (R143). -/
opaque Config.freeGoOn : Nat → Bool

/-- Free value: the k-th choice among several engines that can move (R37). -/
opaque Config.freeMover : Nat → Nat

/-- Free value: the 16 bits sent for a window coordinate that has no `u16` of its own (R71; log 29). -/
opaque Config.freeCoord : Int → Half

/-- Free value: byte `off` of device `d`'s wire buffer as it stands at bind (R19). -/
opaque Config.wireReset : (d off : Nat) → Byte

end Sys2Proof
end

