-- ==== Sys2Proof/Syntax.lean ====
section
/-! DEFINITION. The instructions: the host requests the block executes (30_encoding.md R42) and the panel commands it
issues (R46, R47), one constructor per row of spec/opcode_table.json, with their operand types. -/

namespace Sys2Proof

/-- The identity of a physical backlight line (10_state.md R18). -/
abbrev BacklightId := Nat

/-- A rectangle in panel-local pixel coordinates, half-open on `x2` and `y2` (R43). -/
structure Region where
  x1 : Int
  y1 : Int
  x2 : Int
  y2 : Int
  deriving DecidableEq, Repr

/-- A source pixel format; `other k` is any format the converter does not support (R44). R44 gives `k` no type; that it is
a natural number is the model's choice (log 30). -/
inductive PixelFormat where
  | rgb565
  | xrgb8888
  | other (k : Nat)
  deriving DecidableEq, Repr

/-- A source descriptor (R44). `bytes` holds exactly the mapped bytes, so the spec's `S.len` is its length. -/
structure SrcDesc where
  fmt : PixelFormat
  pitch : Nat
  bytes : List Byte
  deriving DecidableEq, Repr

/-- `S.len`, the number of mapped bytes (R44). -/
def SrcDesc.len (S : SrcDesc) : Nat := S.bytes.length

/-- The instructions. The first six are host requests, the others panel commands with their parameter bytes. -/
inductive Instr where
  | bind (rot left top : Int) (swap hasDc : Bool) (bl : BacklightId)
  /-- `region = none` is the default, the full frame (R56). -/
  | enable (region : Option Region) (src : SrcDesc)
  | update (region : Region) (src : SrcDesc)
  | disable
  | remove
  | shutdown
  | dispoff
  | pgamctrl (ps : List Byte)
  | ngamctrl (ps : List Byte)
  | pwctrl1 (ps : List Byte)
  | pwctrl2 (ps : List Byte)
  | vcmpctl (ps : List Byte)
  | madctl (b : Byte)
  | colmod (b : Byte)
  | ifmode (ps : List Byte)
  | frmctr1 (ps : List Byte)
  | invtr (ps : List Byte)
  | dfunctr (ps : List Byte)
  | etmod (ps : List Byte)
  | adjctrl3 (ps : List Byte)
  | slpout
  | noron
  | dispon
  /-- Start and end column of the window, both inclusive (R48, R72). -/
  | caset (xs xe : Half)
  /-- Start and end page of the window, both inclusive (R48, R73). -/
  | paset (ys ye : Half)
  | ramwr
  deriving DecidableEq, Repr

end Sys2Proof
end

