-- ==== Sys2Proof/WellFormed.lean ====
section
/-! DEFINITION. Which instruction terms the encodings of 30_encoding.md can spell, and which opcode tables tell the
commands apart. -/

namespace Sys2Proof

/-- A gamma table command carries exactly 15 parameter bytes (R47, R99, R100). Every other parameter count is fixed by
the constructor's own type, or open (R47). -/
def Instr.wf : Instr → Bool
  | .pgamctrl ps => ps.length == 15
  | .ngamctrl ps => ps.length == 15
  | _ => true

/-- The opcodes tell the twenty commands apart, and none of them is a byte a request's tag is stored in (log 7). R47's
defaults meet this. -/
abbrev Opcodes.wf (o : Opcodes) : Prop := o.toList.Nodup ∧ ∀ b ∈ o.toList, 16 ≤ b.toNat

end Sys2Proof
end

