-- ==== Sys2Proof/Decode.lean ====
section
/-! DEFINITION. The two encoded interfaces of 30_encoding.md as bytes: host requests (R42) and panel commands (R46, R47).
The decoder is total and rejects by name; the encoder follows it. R42 fixes a request's tag and no layout of its
operands: the layout here is the model's (log 6), and so is storing both interfaces in one byte space (log 7). -/

namespace Sys2Proof

/-- Why bytes spell no instruction. -/
inductive DecodeError where
  /-- No byte at all. -/
  | empty
  /-- A reserved tag: 0x0, 0x7 to 0xF (R54). -/
  | reservedTag (t : BitVec 4)
  /-- A byte that is neither a request's tag nor an opcode of R47. -/
  | unknownOpcode (b : Byte)
  /-- The bytes end inside the named operand. -/
  | truncated (operand : String)
  /-- A byte of the named Bool operand that is neither 0 nor 1. -/
  | badBool (operand : String)
  /-- A command with another number of parameter bytes than R47 gives it. -/
  | paramCount (mnemonic : String)
  /-- Bytes after the last operand. -/
  | trailing
  deriving DecidableEq, Repr

/-! ## Bit fields and numbers as bytes -/

/-- `hi8(v) = v[15:8]` (R8). -/
def hi8 (v : Half) : Byte := v.extractLsb' 8 8

/-- `lo8(v) = v[7:0]` (R8). -/
def lo8 (v : Half) : Byte := v.extractLsb' 0 8

/-- `a ‖ b` of two bytes, `a` the more significant (R7). -/
def cat8 (a b : Byte) : Half := a ++ b

/-- A natural number in groups of seven bits, least significant group first, bit 7 set in every byte but the last. The
first argument bounds the number of groups. -/
def encodeNatIn : Nat → Nat → List Byte
  | 0, n => [BitVec.ofNat 8 (n % 128)]
  | k + 1, n => if n < 128 then [BitVec.ofNat 8 n] else BitVec.ofNat 8 (n % 128 + 128) :: encodeNatIn k (n / 128)

/-- A natural number as bytes. -/
def encodeNat (n : Nat) : List Byte := encodeNatIn n n

/-- Reads what `encodeNat` writes and returns the bytes after it. -/
def takeNat (operand : String) : List Byte → Except DecodeError (Nat × List Byte)
  | [] => .error (.truncated operand)
  | b :: rest =>
    if b.toNat < 128 then .ok (b.toNat, rest)
    else
      match takeNat operand rest with
      | .ok (n, after) => .ok (b.toNat % 128 + 128 * n, after)
      | .error e => .error e

/-- An integer as a natural number: 0, -1, 1, -2, … as 0, 1, 2, 3, …. -/
def zigzag : Int → Nat
  | .ofNat n => 2 * n
  | .negSucc n => 2 * n + 1

/-- The integer whose `zigzag` a natural number is. -/
def unzigzag (n : Nat) : Int := if n % 2 = 0 then .ofNat (n / 2) else .negSucc (n / 2)

/-- An integer as bytes. -/
def encodeInt (z : Int) : List Byte := encodeNat (zigzag z)

/-- Reads what `encodeInt` writes. -/
def takeInt (operand : String) (bs : List Byte) : Except DecodeError (Int × List Byte) :=
  match takeNat operand bs with
  | .ok (n, after) => .ok (unzigzag n, after)
  | .error e => .error e

/-- A Bool as one byte. -/
def encodeBool (b : Bool) : List Byte := [if b then 1 else 0]

/-- Reads what `encodeBool` writes. -/
def takeBool (operand : String) : List Byte → Except DecodeError (Bool × List Byte)
  | [] => .error (.truncated operand)
  | b :: rest => if b = 0 then .ok (false, rest) else if b = 1 then .ok (true, rest) else .error (.badBool operand)

/-- Reads `n` bytes. -/
def takeBytes (operand : String) (n : Nat) (bs : List Byte) : Except DecodeError (List Byte × List Byte) :=
  if bs.length < n then .error (.truncated operand) else .ok (bs.take n, bs.drop n)

/-! ## Operand records -/

/-- A region: `x1`, `y1`, then the last column and the last row, both inclusive as in CASET and PASET (R48). -/
def encodeRegion (R : Region) : List Byte :=
  encodeInt R.x1 ++ (encodeInt R.y1 ++ (encodeInt (R.x2 - 1) ++ encodeInt (R.y2 - 1)))

/-- Reads what `encodeRegion` writes. -/
def takeRegion (bs : List Byte) : Except DecodeError (Region × List Byte) := do
  let (x1, bs) ← takeInt "x1" bs
  let (y1, bs) ← takeInt "y1" bs
  let (xe, bs) ← takeInt "x2" bs
  let (ye, bs) ← takeInt "y2" bs
  return (⟨x1, y1, xe + 1, ye + 1⟩, bs)

/-- An optional region: a Bool, then the region if there is one. -/
def encodeOptRegion : Option Region → List Byte
  | none => encodeBool false
  | some R => encodeBool true ++ encodeRegion R

/-- Reads what `encodeOptRegion` writes. -/
def takeOptRegion (bs : List Byte) : Except DecodeError (Option Region × List Byte) := do
  let (given, bs) ← takeBool "region" bs
  if given then
    let (R, bs) ← takeRegion bs
    return (some R, bs)
  else
    return (none, bs)

/-- A pixel format as a number: RGB565 is 0, XRGB8888 is 1, `other k` is k + 2. -/
def formatCode : PixelFormat → Nat
  | .rgb565 => 0
  | .xrgb8888 => 1
  | .other k => k + 2

/-- The pixel format of a number. -/
def formatOfCode : Nat → PixelFormat
  | 0 => .rgb565
  | 1 => .xrgb8888
  | k + 2 => .other k

/-- A source descriptor: format, pitch, `len`, then the `len` mapped bytes. -/
def encodeSrc (S : SrcDesc) : List Byte :=
  encodeNat (formatCode S.fmt) ++ (encodeNat S.pitch ++ (encodeNat S.bytes.length ++ S.bytes))

/-- Reads what `encodeSrc` writes. -/
def takeSrc (bs : List Byte) : Except DecodeError (SrcDesc × List Byte) := do
  let (code, bs) ← takeNat "fmt" bs
  let (pitch, bs) ← takeNat "pitch" bs
  let (len, bs) ← takeNat "len" bs
  let (data, bs) ← takeBytes "bytes" len bs
  return (⟨formatOfCode code, pitch, data⟩, bs)

/-- The end of an operand record: no byte is left. -/
def finishAt (i : Instr) : List Byte → Except DecodeError Instr
  | [] => .ok i
  | _ :: _ => .error .trailing

/-! ## Encoding -/

/-- Whether an instruction is a panel command, something a device engine issues on its bus (R46). -/
def Instr.isCommand : Instr → Bool
  | .bind .. | .enable .. | .update .. | .disable | .remove | .shutdown => false
  | _ => true

/-- Whether an instruction is a host request (R42). -/
def Instr.isRequest (i : Instr) : Bool := !i.isCommand

/-- The first byte: a request's tag (R42) or a command's opcode (R47). -/
def Instr.lead (opc : Opcodes) : Instr → Byte
  | .bind .. => 0x01
  | .enable .. => 0x02
  | .update .. => 0x03
  | .disable => 0x04
  | .remove => 0x05
  | .shutdown => 0x06
  | .dispoff => opc.dispoff
  | .pgamctrl _ => opc.pgamctrl
  | .ngamctrl _ => opc.ngamctrl
  | .pwctrl1 _ => opc.pwctrl1
  | .pwctrl2 _ => opc.pwctrl2
  | .vcmpctl _ => opc.vcmpctl
  | .madctl _ => opc.madctl
  | .colmod _ => opc.colmod
  | .ifmode _ => opc.ifmode
  | .frmctr1 _ => opc.frmctr1
  | .invtr _ => opc.invtr
  | .dfunctr _ => opc.dfunctr
  | .etmod _ => opc.etmod
  | .adjctrl3 _ => opc.adjctrl3
  | .slpout => opc.slpout
  | .noron => opc.noron
  | .dispon => opc.dispon
  | .caset _ _ => opc.caset
  | .paset _ _ => opc.paset
  | .ramwr => opc.ramwr

/-- The four parameter bytes of CASET and PASET, big-endian start then end (R48). -/
def windowParams (s e : Half) : List Byte := [hi8 s, lo8 s, hi8 e, lo8 e]

/-- What follows the first byte: a request's operand record or a command's parameter bytes (R46). -/
def Instr.operands : Instr → List Byte
  | .bind rot left top swap hasDc bl =>
    encodeInt rot ++ (encodeInt left ++ (encodeInt top ++ (encodeBool swap ++ (encodeBool hasDc ++ encodeNat bl))))
  | .enable region src => encodeOptRegion region ++ encodeSrc src
  | .update region src => encodeRegion region ++ encodeSrc src
  | .pgamctrl ps | .ngamctrl ps | .pwctrl1 ps | .pwctrl2 ps | .vcmpctl ps | .ifmode ps | .frmctr1 ps | .invtr ps
  | .dfunctr ps | .etmod ps | .adjctrl3 ps => ps
  | .madctl b | .colmod b => [b]
  | .caset s e | .paset s e => windowParams s e
  | .disable | .remove | .shutdown | .dispoff | .slpout | .noron | .dispon | .ramwr => []

/-- The bytes of an instruction. -/
def encode (opc : Opcodes) (i : Instr) : List Byte := i.lead opc :: i.operands

/-! ## Decoding -/

/-- A host request from its tag byte and operand bytes (R42); the other tags are reserved (R54). -/
def decodeRequestAt (tag : Byte) (bs : List Byte) : Except DecodeError Instr :=
  match tag.toNat with
  | 1 => do
    let (rot, bs) ← takeInt "rot" bs
    let (left, bs) ← takeInt "left" bs
    let (top, bs) ← takeInt "top" bs
    let (swap, bs) ← takeBool "swap" bs
    let (hasDc, bs) ← takeBool "has_dc" bs
    let (bl, bs) ← takeNat "bl" bs
    finishAt (.bind rot left top swap hasDc bl) bs
  | 2 => do
    let (region, bs) ← takeOptRegion bs
    let (src, bs) ← takeSrc bs
    finishAt (.enable region src) bs
  | 3 => do
    let (region, bs) ← takeRegion bs
    let (src, bs) ← takeSrc bs
    finishAt (.update region src) bs
  | 4 => finishAt .disable bs
  | 5 => finishAt .remove bs
  | 6 => finishAt .shutdown bs
  | n => if n < 16 then .error (.reservedTag (tag.setWidth 4)) else .error (.unknownOpcode tag)

/-- A command without parameters. -/
def withNone (mnemonic : String) (i : Instr) : List Byte → Except DecodeError Instr
  | [] => .ok i
  | _ :: _ => .error (.paramCount mnemonic)

/-- A command with one parameter byte. -/
def withOne (mnemonic : String) (mk : Byte → Instr) : List Byte → Except DecodeError Instr
  | [b] => .ok (mk b)
  | _ => .error (.paramCount mnemonic)

/-- A gamma table command with its 15 parameter bytes. -/
def withGamma (mnemonic : String) (mk : List Byte → Instr) (ps : List Byte) : Except DecodeError Instr :=
  if ps.length = 15 then .ok (mk ps) else .error (.paramCount mnemonic)

/-- A window command with its four parameter bytes (R48). -/
def withWindow (mnemonic : String) (mk : Half → Half → Instr) : List Byte → Except DecodeError Instr
  | [sh, sl, eh, el] => .ok (mk (cat8 sh sl) (cat8 eh el))
  | _ => .error (.paramCount mnemonic)

/-- A panel command from its opcode byte and parameter bytes (R46, R47). -/
def decodeCommandAt (opc : Opcodes) (op : Byte) (ps : List Byte) : Except DecodeError Instr :=
  if op = opc.dispoff then withNone "DISPOFF" .dispoff ps
  else if op = opc.pgamctrl then withGamma "PGAMCTRL" .pgamctrl ps
  else if op = opc.ngamctrl then withGamma "NGAMCTRL" .ngamctrl ps
  else if op = opc.pwctrl1 then .ok (.pwctrl1 ps)
  else if op = opc.pwctrl2 then .ok (.pwctrl2 ps)
  else if op = opc.vcmpctl then .ok (.vcmpctl ps)
  else if op = opc.madctl then withOne "MADCTL" .madctl ps
  else if op = opc.colmod then withOne "COLMOD" .colmod ps
  else if op = opc.ifmode then .ok (.ifmode ps)
  else if op = opc.frmctr1 then .ok (.frmctr1 ps)
  else if op = opc.invtr then .ok (.invtr ps)
  else if op = opc.dfunctr then .ok (.dfunctr ps)
  else if op = opc.etmod then .ok (.etmod ps)
  else if op = opc.adjctrl3 then .ok (.adjctrl3 ps)
  else if op = opc.slpout then withNone "SLPOUT" .slpout ps
  else if op = opc.noron then withNone "NORON" .noron ps
  else if op = opc.dispon then withNone "DISPON" .dispon ps
  else if op = opc.caset then withWindow "CASET" .caset ps
  else if op = opc.paset then withWindow "PASET" .paset ps
  else if op = opc.ramwr then withNone "RAMWR" .ramwr ps
  else .error (.unknownOpcode op)

/-- A host request from its bytes: what the engines are given. -/
def decodeRequest : List Byte → Except DecodeError Instr
  | [] => .error .empty
  | b :: bs => decodeRequestAt b bs

/-- Any row of the opcode table from its bytes. -/
def decode (opc : Opcodes) : List Byte → Except DecodeError Instr
  | [] => .error .empty
  | b :: bs => if b.toNat < 16 then decodeRequestAt b bs else decodeCommandAt opc b bs

/-! ## Words of the opcode table -/

/-- The first `nbits` bits of `w`, in whole bytes, the first byte the least significant. -/
def tableBytes (nbits w : Nat) : List Byte :=
  (List.range ((nbits + 7) / 8)).map fun k => BitVec.ofNat 8 (w >>> (8 * k))

/-- How many zero bytes spell the operands of the row with this first byte. -/
def zeroOperands (opc : Opcodes) (b : Byte) : Nat :=
  if b = 0x01 then 6
  else if b = 0x02 then 4
  else if b = 0x03 then 7
  else if b = opc.pgamctrl ∨ b = opc.ngamctrl then 15
  else if b = opc.madctl ∨ b = opc.colmod then 1
  else if b = opc.caset ∨ b = opc.paset then 4
  else 0

/-- The bytes of a table word with the operand bytes the table gives no bits set to zero. -/
def layWord (opc : Opcodes) (nbits w : Nat) : List Byte :=
  match tableBytes nbits w with
  | [] => []
  | b :: given => b :: (given ++ List.replicate (zeroOperands opc b - given.length) 0)

/-- The instruction the decoder reads from a word of the opcode table, with the default opcodes of R47. -/
def decodeTableWord (nbits w : Nat) : Option Instr :=
  (decode Config.opcodes (layWord Config.opcodes nbits w)).toOption

end Sys2Proof
end

