-- ==== Sys2Proof/Machine/State.lean ====
section
/-! DEFINITION. The state of the machine as plain data: the device records (10_state.md R12), the backlight table (R23),
the parameters (00_scope.md R6), and what the outside gives and takes. Reset is R150. -/

namespace Sys2Proof.Machine

open Sys2Proof

/-! ## The device record -/

/-- `DevState` (R13). -/
inductive DevState where
  | uninitialized
  | poweringOn
  | active
  | resetOccurred
  | disabled
  deriving DecidableEq, Repr

/-- `Rotation`, in degrees (R15). -/
inductive Rotation where
  | r0
  | r90
  | r180
  | r270
  deriving DecidableEq, Repr

/-- A step of the initialization sequence; steps 5, 6 and 8 hold several commands, numbered from 1 (R20, R95). -/
inductive SeqStep where
  | step1
  | step2
  | step3
  | step4
  | step5 (i : Nat)
  | step6 (i : Nat)
  | step7
  | step8 (i : Nat)
  | step9
  | step10
  deriving DecidableEq, Repr

/-- The sequencer position `D.seq` (R20). -/
inductive SeqPos where
  | idle
  | at (k : SeqStep)
  deriving DecidableEq, Repr

/-- An event of a transcript (R22). -/
inductive Event where
  | reset (r : ResetResult)
  | cmd (op : Byte) (params : List Byte) (ok : Bool)
  | data (bytes : List Byte) (ok : Bool)
  | delay (ms : Nat)
  | blOn (id : BacklightId)
  deriving DecidableEq, Repr

/-- A memory: the listed bytes, addresses strictly rising. An unlisted address has no value of its own. -/
abbrev Memory := List Host.Cell

/-- The canonical form of a memory. -/
abbrev Memory.wf (m : Memory) : Prop := (m.map Prod.fst).Pairwise (· < ·)

/-- The two ways of a flush (R80). -/
inductive Path where
  | fast
  | copy
  deriving DecidableEq, Repr

/-- Which request an engine is running. -/
inductive ReqKind where
  | enable
  | update
  deriving DecidableEq, Repr

/-- One step a running request still has before it (R5, R89, R87). -/
inductive Micro where
  /-- Step 1, `BusReset()`; `fromActive` is the value ENABLE saved on entry (R91, R92). -/
  | reset (fromActive : Bool)
  /-- `BusCmd` of a panel command; with a position, `D.seq` is set to it first (R96). -/
  | cmd (pos : Option SeqStep) (i : Instr)
  /-- `Delay(ms)` (R159). -/
  | delay (ms : Nat)
  /-- Step 9: the addressing-mode command (R116). -/
  | addrMode
  /-- Step 10: the start of the paint's flush (R117). -/
  | paint
  /-- `CONVERT` (R57). -/
  | convert
  /-- `BusData` of the flush's burst (R83). -/
  | data
  /-- `BlEnable` (R118). -/
  | blOn
  /-- ENABLE completes (R120). -/
  | finish
  deriving DecidableEq, Repr

/-- A request an engine is running: its operands, where its flush stands, and the steps before it. -/
structure Job where
  req : ReqKind
  region : Region
  src : SrcDesc
  /-- A flush of this request is executing (R31). -/
  flushing : Bool
  /-- The source bytes the host wrote during the flush, offset and new value (R31). -/
  raced : List (Nat × Byte)
  /-- The flush's way, once it is decided (R80). -/
  path : Path
  todo : List Micro
  deriving DecidableEq, Repr

/-- The mode descriptor exposed to the graphics stack (R24). -/
structure ModeDesc where
  width : Nat
  height : Nat
  frontPorch : Nat
  backPorch : Nat
  deriving DecidableEq, Repr

/-- A bound device instance `D`: the fields of R12, the two constants of R24, and the running request. -/
structure Device where
  st : DevState
  gone : Bool
  rot : Rotation
  left : Int
  top : Int
  swap : Bool
  hasDc : Bool
  bl : BacklightId
  wb : Memory
  seq : SeqPos
  convCount : Nat
  trace : List Event
  mode : ModeDesc
  caps : List PixelFormat
  job : Option Job
  deriving DecidableEq, Repr

/-! ## Shared state -/

/-- One record of the backlight table (R23). -/
structure Line where
  on : Bool
  refs : Nat
  deriving DecidableEq, Repr

/-- The backlight table `BLK` (R23): the listed lines in rising order of their id; every line not listed has no
reference and its `on` is `rest`. -/
structure Backlights where
  rest : Bool
  lines : List (BacklightId × Line)
  deriving DecidableEq, Repr

/-- The canonical form of the backlight table: ids strictly rising, and no entry equal to an unlisted line's record. -/
abbrev Backlights.wf (b : Backlights) : Prop :=
  (b.lines.map Prod.fst).Pairwise (· < ·) ∧ ∀ e ∈ b.lines, e.2 ≠ ⟨b.rest, 0⟩

/-! ## The outside -/

/-- A result code (R130). -/
inductive ResultCode where
  | ok
  | busFailure
  | unsupportedFormat
  | hwInitFailure
  | configError
  | allocFailure
  deriving DecidableEq, Repr

/-- A result code a request returned, and the device the request ran on (none where there is none). -/
structure Return where
  dev : Option Nat
  code : ResultCode
  deriving DecidableEq, Repr

/-- What the outside does next. -/
inductive Input where
  /-- A host request, its bytes, and the device it is addressed to (BIND and SHUTDOWN are addressed to none). -/
  | request (dev : Nat) (bytes : List Byte)
  /-- The removal notifier asserts REMOVE on this device, also while its engine runs a request (R143). -/
  | removal (dev : Nat)
  /-- The engine of this device takes its next step (R37). -/
  | turn (dev : Nat)
  /-- The host writes a byte of the source memory of this device's running request (R31). -/
  | hostWrite (dev : Nat) (off : Nat) (v : Byte)
  deriving DecidableEq, Repr

/-- The draws of one kind (R9): the values given from outside, in order, and how many were drawn so far. Past the given
values a draw is the free value of its number (log 5). -/
structure Oracle (α : Type) where
  given : List α
  drawn : Nat
  deriving DecidableEq, Repr

/-- The draws of every kind. -/
structure Env where
  /-- An allocation at bind (R124). -/
  alloc : Oracle Bool
  /-- The answer of a reset (R35). -/
  reset : Oracle ResetResult
  /-- The answer of a `BusCmd` or a `BusData` (R35). -/
  ok : Oracle Bool
  /-- A source byte past the mapped memory (R27). -/
  byte : Oracle Byte
  /-- Which value a byte under a host write reads as (R31). -/
  pick : Oracle Nat
  /-- Whether a request goes on after a removal (R143). -/
  goOn : Oracle Bool
  /-- Which engine moves (R37). -/
  mover : Oracle Nat
  deriving DecidableEq, Repr

/-- The state of the machine. -/
structure State where
  /-- The parameters of R6; nothing writes them. -/
  cfg : Params
  /-- The device records in the order they were bound; a removed one stays, with `gone` set (R129). -/
  devs : List Device
  /-- The backlight table (R23). -/
  blk : Backlights
  /-- The device an instruction runs on. -/
  cur : Nat
  /-- What the outside does next, in order. -/
  inputs : List Input
  /-- The result codes returned, in order; an output (R25). -/
  returns : List Return
  /-- The draws. -/
  env : Env
  deriving DecidableEq, Repr

/-- How the machine stops with a fault. -/
inductive Fault where
  /-- Raised by UPDATE and by ENABLE's step 10 for a region that fails R78 (R137). Safe: the spec gives no behaviour. -/
  | badRegion (R : Region)
  /-- Raised by a conversion longer than the wire buffer, an address that does not exist (R32). Safe: no valid region
  reaches it. -/
  | wireBufferOverrun
  deriving DecidableEq, Repr

/-- Why the machine refuses. A refusal is the spec's refusal mark: it ends the run (R138). -/
inductive Refusal where
  /-- Raised by an arm of exec for an instruction without a meaning. Safe. -/
  | notModelled (mnemonic : String)
  /-- Raised for a request with a reserved tag (R54, R138). Safe. -/
  | reservedTag (t : BitVec 4)
  /-- Raised for request bytes that spell no operand record in the model's layout (log 6). Safe. -/
  | malformedRequest (e : DecodeError)
  /-- Raised for a request, or a command, on a device that was never bound (R138). Safe. -/
  | unboundDevice (d : Nat)
  /-- Raised by ENABLE, UPDATE and DISABLE on an engine that is running a request; `step` never runs them there, since
  such a request waits (R36, R153 item 5; log 10). Safe. -/
  | overlappingRequest (d : Nat)
  deriving DecidableEq, Repr

/-- The draws with nothing given from outside. -/
def Env.fresh : Env where
  alloc := ⟨[], 0⟩
  reset := ⟨[], 0⟩
  ok := ⟨[], 0⟩
  byte := ⟨[], 0⟩
  pick := ⟨[], 0⟩
  goOn := ⟨[], 0⟩
  mover := ⟨[], 0⟩

/-- Platform reset (R150): no device record, every line at `BL_INITIAL` with no reference. -/
def State.reset : State where
  cfg := Config.params
  devs := []
  blk := ⟨Config.params.blInitial, []⟩
  cur := 0
  inputs := []
  returns := []
  env := Env.fresh

end Sys2Proof.Machine
end

