-- ==== Sys2Proof/Machine/Ops.lean ====
section
/-! DEFINITION. The named operations over the state: sorted tables, memory, the backlight table, draws, the bus
transactions of 20_memory.md R35, the source reads of R27, and how a request ends (60_exceptions.md R140). -/

namespace Sys2Proof.Machine

open Sys2Proof

/-! ## Sorted tables -/

/-- The value listed at a key. -/
def Table.find {α : Type} (k : Nat) : List (Nat × α) → Option α
  | [] => none
  | (a, v) :: t => if a = k then some v else Table.find k t

/-- A table with one entry written, in its place. -/
def Table.insert {α : Type} (k : Nat) (v : α) : List (Nat × α) → List (Nat × α)
  | [] => [(k, v)]
  | (a, w) :: t =>
    if k < a then (k, v) :: (a, w) :: t
    else if k = a then (k, v) :: t
    else (a, w) :: Table.insert k v t

/-- A table without the entry of a key. -/
def Table.erase {α : Type} (k : Nat) (t : List (Nat × α)) : List (Nat × α) := t.filter (fun e => e.1 != k)

/-! ## Memory -/

/-- The byte written at an address, if any was. -/
def Memory.read (m : Memory) (a : Nat) : Option Byte := Table.find a m

/-- Cells at consecutive addresses. -/
def cells (a : Nat) : List Byte → Memory
  | [] => []
  | b :: bs => (a, b) :: cells (a + 1) bs

/-- `MemWrite(off, n, v)` with `n` the length of `v` (R32). -/
def Memory.writeBlock (m : Memory) (off : Nat) (v : List Byte) : Memory :=
  m.takeWhile (fun c => decide (c.1 < off)) ++ (cells off v ++ m.dropWhile (fun c => decide (c.1 < off + v.length)))

/-- The bytes at `a`, `a + 1`, … of a memory whose listed addresses begin at `a` or later, an unlisted byte read as
`unlisted` gives it. -/
def Memory.readFrom (unlisted : Nat → Byte) : (n a : Nat) → Memory → List Byte
  | 0, _, _ => []
  | n + 1, a, [] => unlisted a :: Memory.readFrom unlisted n (a + 1) []
  | n + 1, a, (b, v) :: t =>
    if b = a then v :: Memory.readFrom unlisted n (a + 1) t
    else unlisted a :: Memory.readFrom unlisted n (a + 1) ((b, v) :: t)

/-! ## The backlight table (R23) -/

/-- `BLK[id]`. -/
def Backlights.get (b : Backlights) (id : BacklightId) : Line := (Table.find id b.lines).getD ⟨b.rest, 0⟩

/-- `BLK[id] <- line`; an entry equal to an unlisted line's record is not listed. -/
def Backlights.set (b : Backlights) (id : BacklightId) (line : Line) : Backlights :=
  if line = ⟨b.rest, 0⟩ then { b with lines := Table.erase id b.lines }
  else { b with lines := Table.insert id line b.lines }

/-- `BlEnable(id)` on the table (R146). -/
def Backlights.enable (b : Backlights) (id : BacklightId) : Backlights := b.set id { b.get id with on := true }

/-- `BL_ATTACH(id)` (R125). -/
def Backlights.attach (b : Backlights) (id : BacklightId) : Backlights :=
  b.set id { b.get id with refs := (b.get id).refs + 1 }

/-- The release of a reference at REMOVE (R127). -/
def Backlights.release (b : Backlights) (id : BacklightId) : Backlights :=
  b.set id { b.get id with refs := (b.get id).refs - 1 }

/-- `BlDisable(id)` for every id (R128), the lines that are not listed among them, at once (log 28). -/
def Backlights.disableAll (b : Backlights) : Backlights where
  rest := false
  lines := (b.lines.map fun e => (e.1, { e.2 with on := false })).filter (fun e => e.2 != ⟨false, 0⟩)

/-! ## Draws (R9) -/

/-- The next draw. -/
def Oracle.peek {α : Type} (free : Nat → α) (o : Oracle α) : α := o.given.head?.getD (free o.drawn)

/-- The draws after the next one. -/
def Oracle.next {α : Type} (o : Oracle α) : Oracle α := ⟨o.given.tail, o.drawn + 1⟩

/-- The draw after `k` others. -/
def Oracle.peekAt {α : Type} (free : Nat → α) (o : Oracle α) (k : Nat) : α := o.given[k]?.getD (free (o.drawn + k))

/-- The transport's next answer to a `BusCmd` or a `BusData` (R35). -/
def State.okDraw (s : State) : Bool := s.env.ok.peek Config.freeOk

/-- The transport's next answer to a reset (R35). -/
def State.resetDraw (s : State) : ResetResult := s.env.reset.peek Config.freeReset

/-- Whether the next allocation succeeds (R124). -/
def State.allocDraw (s : State) : Bool := s.env.alloc.peek Config.freeAlloc

/-- Whether a request goes on at the next boundary after a removal (R143). -/
def State.goOnDraw (s : State) : Bool := s.env.goOn.peek Config.freeGoOn

/-- The next choice among engines (R37). -/
def State.moverDraw (s : State) : Nat := s.env.mover.peek Config.freeMover

/-! ## The current device -/

/-- The device the instruction runs on. -/
def State.dev? (s : State) : Option Device := s.devs[s.cur]?

/-- The state with the current device changed. -/
def State.modDev (s : State) (f : Device → Device) : State := { s with devs := s.devs.modify s.cur f }

/-- An event appended to the transcript (R22). -/
def Device.log (d : Device) (e : Event) : Device := { d with trace := d.trace ++ [e] }

/-- The running request changed, if there is one. -/
def Device.modJob (d : Device) (f : Job → Job) : Device := { d with job := d.job.map f }

/-- The sequencer position set. -/
def Device.setSeq (d : Device) (p : SeqPos) : Device := { d with seq := p }

/-- Steps put before the remaining ones of the running request. -/
def Device.push (d : Device) (ms : List Micro) : Device := d.modJob fun j => { j with todo := ms ++ j.todo }

/-! ## Bus transactions (R35) -/

/-- `BusCmd(op, params)`: the event with the drawn answer, which is `s.okDraw`. -/
def State.busCmd (s : State) (op : Byte) (params : List Byte) : State :=
  { s with env := { s.env with ok := s.env.ok.next } }.modDev (·.log (.cmd op params s.okDraw))

/-- `BusData(bytes)`: the event with the drawn answer, which is `s.okDraw`. -/
def State.busData (s : State) (bytes : List Byte) : State :=
  { s with env := { s.env with ok := s.env.ok.next } }.modDev (·.log (.data bytes s.okDraw))

/-- `BusReset()`: the event with the drawn answer, which is `s.resetDraw`. -/
def State.busReset (s : State) : State :=
  { s with env := { s.env with reset := s.env.reset.next } }.modDev (·.log (.reset s.resetDraw))

/-- `Delay(ms)` (R159): the event; no clock is kept. -/
def State.delay (s : State) (ms : Nat) : State := s.modDev (·.log (.delay ms))

/-- `BlEnable(D.BL)` with its event (R118, R146). -/
def State.blEnable (s : State) : State :=
  match s.dev? with
  | none => s
  | some d => { s with blk := s.blk.enable d.bl }.modDev (·.log (.blOn d.bl))

/-! ## Source pixel memory (R27, R31) -/

/-- The values the host wrote at an offset during the flush. -/
def racedAt (raced : List (Nat × Byte)) (off : Nat) : List Byte := (raced.filter (fun w => w.1 == off)).map Prod.snd

/-- One byte of a `MemRead`: the mapped byte, `none` for an offset past the mapped memory. A byte under a host write is a
draw between the old value and the written ones, a byte past the mapped memory a draw of any value. -/
def readByte (raced : List (Nat × Byte)) (off : Nat) (mapped : Option Byte) (e : Env) : Byte × Env :=
  match mapped with
  | none => (e.byte.peek Config.freeByte, { e with byte := e.byte.next })
  | some b =>
    match racedAt raced off with
    | [] => (b, e)
    | w :: ws =>
      ((b :: w :: ws).getD (e.pick.peek Config.freePick % (ws.length + 2)) b, { e with pick := e.pick.next })

/-- `n` bytes from offset `off` on, where `rest` are the mapped bytes from there on. -/
def readBytes (raced : List (Nat × Byte)) : (n off : Nat) → List Byte → Env → List Byte × Env
  | 0, _, _, e => ([], e)
  | n + 1, off, rest, e =>
    let one := readByte raced off rest.head? e
    let more := readBytes raced n (off + 1) rest.tail one.2
    (one.1 :: more.1, more.2)

/-- `MemRead(off, n)` (R27). -/
def memRead (S : SrcDesc) (raced : List (Nat × Byte)) (off n : Nat) (e : Env) : List Byte × Env :=
  readBytes raced n off (S.bytes.drop off) e

/-- The host writes a byte of the source memory of a running request (R31): during a flush the byte may read as either
value, before it the byte is changed, and outside the mapped memory there is no byte. -/
def Job.hostWrite (j : Job) (off : Nat) (v : Byte) : Job :=
  if off < j.src.len then
    if j.flushing then { j with raced := j.raced ++ [(off, v)] }
    else { j with src := { j.src with bytes := j.src.bytes.set off v } }
  else j

/-! ## The end of a request (R140) -/

/-- A result code is returned for the current device. -/
def State.answer (s : State) (code : ResultCode) : State := { s with returns := s.returns ++ [⟨some s.cur, code⟩] }

/-- A result code is returned for a request on no device. -/
def State.answerPlatform (s : State) (code : ResultCode) : State := { s with returns := s.returns ++ [⟨none, code⟩] }

/-- `raise E` and `return r` (R140): the running request ends, `D.seq` is Idle, the code is returned. What was logged
and written before stays. -/
def State.endRequest (s : State) (code : ResultCode) : State :=
  (s.modDev fun d => { d with job := none, seq := .idle }).answer code

/-- `ENABLE_FAIL(e)` (R89, R97). -/
def State.enableFail (s : State) (code : ResultCode) : State :=
  (s.modDev fun d => { d with st := .disabled }).endRequest code

/-- A flush ends with a result. It is UPDATE's result (R87). In ENABLE's step 10 it is not returned, and the backlight
follows (R118, R119). -/
def State.flushEnd (s : State) (code : ResultCode) : State :=
  match s.dev?.bind Device.job with
  | none => s
  | some j =>
    match j.req with
    | .update => s.endRequest code
    | .enable => s.modDev (·.modJob fun j => { j with flushing := false, raced := [], todo := [.blOn, .finish] })

/-- A `BusCmd` of the running request returned false: in a flush the flush ends (R84), at step 9 the sequence goes on
(R119), before it the enable fails (R97). -/
def State.cmdFailed (s : State) : State :=
  match s.dev? with
  | none => s
  | some d =>
    match d.job with
    | none => s
    | some j =>
      if j.flushing then s.flushEnd .busFailure
      else if d.seq = .at .step9 then s
      else s.enableFail .busFailure

/-- The meaning of every panel command: one `BusCmd` on the current device, then `after` before the request's other
steps, or what the answer false does. -/
def issue (op : Byte) (params : List Byte) (after : List Micro) (s : State) : Host.Outcome State Fault Refusal :=
  match s.dev? with
  | none => .refused (.unboundDevice s.cur)
  | some _ =>
    .next (if s.okDraw then (s.busCmd op params).modDev (·.push after) else (s.busCmd op params).cmdFailed)

/-- A request to a device (R139): unbound, then gone, then busy, else what the request does. -/
def onDevice (s : State) (k : Device → Host.Outcome State Fault Refusal) : Host.Outcome State Fault Refusal :=
  match s.dev? with
  | none => .refused (.unboundDevice s.cur)
  | some d =>
    if d.gone then .next (s.answer .ok)
    else if d.job.isSome then .refused (.overlappingRequest s.cur)
    else k d

end Sys2Proof.Machine
end

