-- ==== Sys2Proof/Machine/Operands.lean ====
section
/-! DEFINITION. The operand forms: regions and their validity (42_dispatcher.md R78), the window encoder
(41_addressing.md R70, R71), rotations and the addressing-mode byte (R115), source pixels (R50, R51, R63 to R67), and the
constants exposed at bind (R24). -/

namespace Sys2Proof

/-! ## Regions -/

/-- `w = x2 - x1` (R43) as a natural number; a region with `x2 <= x1` has none. -/
def Region.width (R : Region) : Nat := (R.x2 - R.x1).toNat

/-- `h = y2 - y1` (R43) as a natural number. -/
def Region.height (R : Region) : Nat := (R.y2 - R.y1).toNat

/-- `3*w*h`, the bytes of a region's burst (R53). -/
def Region.burstLen (R : Region) : Nat := Config.wireBpp * (R.width * R.height)

/-- `valid(R)` on a device with offsets `left` and `top` (R78). -/
abbrev Region.Valid (p : Params) (left top : Int) (R : Region) : Prop :=
  (0 ≤ R.x1 ∧ R.x1 < R.x2 ∧ R.x2 ≤ p.fw) ∧ (0 ≤ R.y1 ∧ R.y1 < R.y2 ∧ R.y2 ≤ p.fh) ∧
    (0 ≤ R.x1 + left ∧ R.x2 + left ≤ p.panelW) ∧ (0 ≤ R.y1 + top ∧ R.y2 + top ≤ p.panelH)

end Sys2Proof

namespace Sys2Proof.Machine

open Sys2Proof

/-- `FULL = (0, 0, FW, FH)` (R43). -/
def fullFrame (p : Params) : Region := ⟨0, 0, p.fw, p.fh⟩

/-! ## The window encoder -/

/-- A coordinate of R71 as the `u16` of the encoding. R71 says that each coordinate fits; a panel larger than 65536 lets
one through that does not, for which the spec gives no bytes, and what is sent for it is a free value: that is the model's
choice (log 29). -/
def coordinate (z : Int) : Half := if 0 ≤ z ∧ z < 65536 then BitVec.ofInt 16 z else Config.freeCoord z

/-- `ADDR_ENCODE(R, LEFT, TOP)`, the column command (R70, R71, R72). -/
def windowCols (R : Region) (left : Int) : Instr :=
  .caset (coordinate (R.x1 + left)) (coordinate (R.x2 - 1 + left))

/-- `ADDR_ENCODE(R, LEFT, TOP)`, the page command (R70, R71, R73). -/
def windowPages (R : Region) (top : Int) : Instr :=
  .paset (coordinate (R.y1 + top)) (coordinate (R.y2 - 1 + top))

/-! ## Rotations -/

/-- The rotation of BIND's `rot` operand, none for a value that is not legal (R45, R123). -/
def rotationOf (deg : Int) : Option Rotation :=
  if deg = 0 then some .r0
  else if deg = 90 then some .r90
  else if deg = 180 then some .r180
  else if deg = 270 then some .r270
  else none

/-- `BITS(rot)` (R115), with `MY` bit 7, `MX` bit 6 and `MV` bit 5 (R49). -/
def rotBits : Rotation → Byte
  | .r0 => 0x40
  | .r90 => 0x20
  | .r180 => 0x80
  | .r270 => 0xE0

/-- `ROT_BYTE(rot) = BITS(rot) | MADCTL_EXTRA` (R115). -/
def rotByte (p : Params) (r : Rotation) : Byte := rotBits r ||| p.madctlExtra

/-! ## Source pixels -/

/-- `bpp(fmt)` (R58), none for an unsupported format. -/
def bytesPerPixel : PixelFormat → Option Nat
  | .rgb565 => some 2
  | .xrgb8888 => some 4
  | .other _ => none

/-- `src_off(x, y)` (R28). -/
def srcOff (S : SrcDesc) (bpp x y : Nat) : Nat := y * S.pitch + x * bpp

/-- The RGB565 word of two bytes, little-endian, or with the bytes exchanged (R29, R63). -/
def word565 (swap : Bool) (b0 b1 : Byte) : Half := if swap then cat8 b0 b1 else cat8 b1 b0

/-- `r5 = p[15:11]` (R50, R64). -/
def r5 (p : Half) : BitVec 5 := p.extractLsb' 11 5

/-- `g6 = p[10:5]` (R50, R64). -/
def g6 (p : Half) : BitVec 6 := p.extractLsb' 5 6

/-- `b5 = p[4:0]` (R50, R64). -/
def b5 (p : Half) : BitVec 5 := p.extractLsb' 0 5

/-- A five-bit channel in eight bits (R65). -/
def expand5 : Expand565 → BitVec 5 → Byte
  | .zeroFill, c => c.setWidth 8 <<< 3
  | .replicate, c => c.setWidth 8 <<< 3 ||| c.setWidth 8 >>> 2

/-- A six-bit channel in eight bits (R65). -/
def expand6 : Expand565 → BitVec 6 → Byte
  | .zeroFill, c => c.setWidth 8 <<< 2
  | .replicate, c => c.setWidth 8 <<< 2 ||| c.setWidth 8 >>> 4

/-- The wire pixel of an RGB565 word (R65). -/
def wire565 (x : Expand565) (p : Half) : List Byte := [expand5 x (r5 p), expand6 x (g6 p), expand5 x (b5 p)]

/-- The XRGB8888 word of four bytes, little-endian (R29, R67). -/
def word8888 (b0 b1 b2 b3 : Byte) : Quad := b3 ++ (b2 ++ (b1 ++ b0 : BitVec 16) : BitVec 24)

/-- The wire pixel of an XRGB8888 word: the top byte is dropped (R67). -/
def wire8888 (p : Quad) : List Byte := [p.extractLsb' 16 8, p.extractLsb' 8 8, p.extractLsb' 0 8]

/-! ## Constants exposed at bind -/

/-- The mode descriptor (R24). -/
def modeDescriptor : ModeDesc := ⟨320, 480, 49, 73⟩

/-- The capability set (R24). -/
def capabilities : List PixelFormat := [.rgb565, .xrgb8888]

end Sys2Proof.Machine
end

