-- ==== Sys2Proof/Machine/Converter.lean ====
section
/-! DEFINITION. The pixel format converter (40_converter.md R57 to R69): a region of source pixels as wire bytes, and its
step of a flush. A row of a region is contiguous in the source (R28), so its pixels are read in one `MemRead`, which
draws in the same order as one read a pixel. -/

namespace Sys2Proof.Machine

open Sys2Proof

/-- The wire bytes of consecutive RGB565 pixels (R63, R65). -/
def wireRow565 (x : Expand565) (swap : Bool) : List Byte → List Byte
  | b0 :: b1 :: rest => wire565 x (word565 swap b0 b1) ++ wireRow565 x swap rest
  | _ => []

/-- The wire bytes of consecutive XRGB8888 pixels (R67); a byte swap does not apply (R68). -/
def wireRow8888 : List Byte → List Byte
  | b0 :: b1 :: b2 :: b3 :: rest => wire8888 (word8888 b0 b1 b2 b3) ++ wireRow8888 rest
  | _ => []

/-- The wire bytes of consecutive source pixels of a supported format; none for another format. -/
def wireRow (x : Expand565) (fmt : PixelFormat) (swap : Bool) (bs : List Byte) : List Byte :=
  match fmt with
  | .rgb565 => wireRow565 x swap bs
  | .xrgb8888 => wireRow8888 bs
  | .other _ => []

/-- The wire bytes of `h` rows of `w` pixels from frame coordinate `(x1, y)` on, row by row (R57, R59). -/
def convertRows (x : Expand565) (S : SrcDesc) (raced : List (Nat × Byte)) (swap : Bool) (bpp x1 w : Nat) :
    (h y : Nat) → Env → List Byte × Env
  | 0, _, e => ([], e)
  | h + 1, y, e =>
    let row := memRead S raced (srcOff S bpp x1 y) (w * bpp) e
    let more := convertRows x S raced swap bpp x1 w h (y + 1) row.2
    (wireRow x S.fmt swap row.1 ++ more.1, more.2)

/-- The wire bytes of a region, none for an unsupported format (R57, R61). -/
def convertRegion (x : Expand565) (S : SrcDesc) (raced : List (Nat × Byte)) (R : Region) (swap : Bool) (e : Env) :
    Option (List Byte × Env) :=
  match bytesPerPixel S.fmt with
  | none => none
  | some bpp => some (convertRows x S raced swap bpp R.x1.toNat R.width R.height R.y1.toNat e)

/-- `D.conv_count` counts an invocation (R60). -/
def Device.countConversion (d : Device) : Device := { d with convCount := d.convCount + 1 }

/-- The flush's conversion step (R57, R81): it counts, then refuses an unsupported format before any bus transaction, or
writes the first `3*w*h` bytes of the wire buffer. -/
def convertStep (s : State) : Host.Outcome State Fault Refusal :=
  match s.dev? with
  | none => .next s
  | some d =>
    match d.job with
    | none => .next s
    | some j =>
      match convertRegion s.cfg.expand j.src j.raced j.region d.swap s.env with
      | none => .next ((s.modDev Device.countConversion).flushEnd .unsupportedFormat)
      | some (bytes, env) =>
        if s.cfg.wbSize < bytes.length then .fault .wireBufferOverrun
        else
          .next ({ s with env := env }.modDev fun d =>
            { d.countConversion with wb := d.wb.writeBlock 0 bytes })

end Sys2Proof.Machine
end

