-- ==== Sys2Proof/Machine/Dispatcher.lean ====
section
/-! DEFINITION. The update dispatcher (42_dispatcher.md R77 to R88): the request UPDATE, the flush it and ENABLE's step 10
execute, and the panel commands of a flush. -/

namespace Sys2Proof.Machine

open Sys2Proof

/-- `DECIDE(full, fmt, swap, has_dc)` (R80). -/
def decidePath (full : Bool) (fmt : PixelFormat) (swap hasDc : Bool) : Path :=
  if full && (fmt == .rgb565) && !swap && hasDc then .fast else .copy

/-- The steps of a flush after its path decision, up to RAMWR, which puts the burst after itself (R81, R83). -/
def flushSteps (path : Path) (R : Region) (left top : Int) : List Micro :=
  (match path with
    | .copy => [.convert]
    | .fast => []) ++ [.cmd none (windowCols R left), .cmd none (windowPages R top), .cmd none .ramwr]

/-- The path of a flush of region `R` on device `d` (R79, R80). -/
def pathOf (p : Params) (d : Device) (R : Region) (S : SrcDesc) : Path :=
  decidePath (decide (R = fullFrame p)) S.fmt d.swap d.hasDc

/-- The request of a device whose flush of its region starts: the path is decided and the flush's steps stand first. -/
def Device.startFlush (p : Params) (d : Device) (j : Job) : Job :=
  { j with
    flushing := true
    raced := []
    path := pathOf p d j.region j.src
    todo := flushSteps (pathOf p d j.region j.src) j.region d.left d.top ++ j.todo }

/-- UPDATE (R87): guard (R77), region check (R78), path decision (R80); the flush's steps follow, one engine step each.
`D.st` is neither read nor written. -/
def execUpdate (R : Region) (S : SrcDesc) (s : State) : Host.Outcome State Fault Refusal :=
  onDevice s fun d =>
    if R.Valid s.cfg d.left d.top then
      .next (s.modDev fun d => { d with job := some (d.startFlush s.cfg ⟨.update, R, S, false, [], .copy, []⟩) })
    else .fault (.badRegion R)

/-- The start of ENABLE's step 10 (R117): `D.seq` is Step(10), then the flush's guard (R77), region check (R78) and path
decision (R80). -/
def paintStep (s : State) : Host.Outcome State Fault Refusal :=
  match s.dev? with
  | none => .next s
  | some d =>
    match d.job with
    | none => .next s
    | some j =>
      if d.gone then .next ((s.modDev (·.setSeq (.at .step10))).flushEnd .ok)
      else if j.region.Valid s.cfg d.left d.top then
        .next (s.modDev fun d => { d.setSeq (.at .step10) with job := some (d.startFlush s.cfg j) })
      else .fault (.badRegion j.region)

/-- The bytes of the flush's burst, read at the `BusData` step (R82, R83): the first `3*w*h` bytes of the source, or of
the wire buffer. -/
def burst (n : Nat) (d : Device) (j : Job) (e : Env) : List Byte × Env :=
  match j.path with
  | .fast => memRead j.src j.raced 0 j.region.burstLen e
  | .copy => (d.wb.readFrom (Config.wireReset n) j.region.burstLen 0, e)

/-- `BusData(bytes)` ends the flush with its answer (R83, R84, R87). -/
def State.sendBurst (s : State) (bytes : List Byte) : State :=
  (s.busData bytes).flushEnd (if s.okDraw then .ok else .busFailure)

/-- The flush's data burst (R83), read at this step. -/
def dataStep (s : State) : Host.Outcome State Fault Refusal :=
  match s.dev? with
  | none => .next s
  | some d =>
    match d.job with
    | none => .next s
    | some j =>
      .next ({ s with env := (burst s.cur d j s.env).2 }.sendBurst (burst s.cur d j s.env).1)

/-- CASET (R72): `BusCmd` with the big-endian start and end column. -/
def execCaset (xs xe : Half) (s : State) : Host.Outcome State Fault Refusal :=
  issue s.cfg.opc.caset (windowParams xs xe) [] s

/-- PASET (R73): `BusCmd` with the big-endian start and end page. -/
def execPaset (ys ye : Half) (s : State) : Host.Outcome State Fault Refusal :=
  issue s.cfg.opc.paset (windowParams ys ye) [] s

/-- RAMWR (R83): `BusCmd` without parameters, and the data burst comes next (R46). -/
def execRamwr (s : State) : Host.Outcome State Fault Refusal := issue s.cfg.opc.ramwr [] [.data] s

end Sys2Proof.Machine
end

