-- ==== Sys2Proof/Machine/Flags.lean ====
section
/-! DEFINITION. The block has no status flags and no condition codes (10_state.md R25). What a request leaves is its
result code, an output; the codes' numbers are here (60_exceptions.md R130). -/

namespace Sys2Proof.Machine

open Sys2Proof

/-- The number of a result code (R130). -/
def ResultCode.number : ResultCode → Nat
  | .ok => 0
  | .busFailure => 1
  | .unsupportedFormat => 2
  | .hwInitFailure => 3
  | .configError => 4
  | .allocFailure => 5

end Sys2Proof.Machine
end

