-- ==== Sys2Proof/Machine/Lifecycle.lean ====
section
/-! DEFINITION. The lifecycle requests (44_lifecycle.md R122 to R129). -/

namespace Sys2Proof.Machine

open Sys2Proof

/-- The record BIND loads (70_reset_and_hazards.md R151, R24). -/
def freshDevice (rot : Rotation) (left top : Int) (swap hasDc : Bool) (bl : BacklightId) : Device where
  st := .uninitialized
  gone := false
  rot := rot
  left := left
  top := top
  swap := swap
  hasDc := hasDc
  bl := bl
  wb := []
  seq := .idle
  convCount := 0
  trace := []
  mode := modeDescriptor
  caps := capabilities
  job := none

/-- A device is bound: its record is added and its backlight line attached (R122, R125). -/
def State.addDevice (s : State) (d : Device) : State :=
  { s with devs := s.devs ++ [d], blk := s.blk.attach d.bl }

/-- BIND (R122): the allocation (R124), then the rotation (R123), then the record and the backlight (R125). -/
def execBind (rot left top : Int) (swap hasDc : Bool) (bl : BacklightId) (s : State) :
    Host.Outcome State Fault Refusal :=
  let s' := { s with env := { s.env with alloc := s.env.alloc.next } }
  .next (if s.allocDraw then
    match rotationOf rot with
    | none => s'.answerPlatform .configError
    | some r => (s'.addDevice (freshDevice r left top swap hasDc bl)).answerPlatform .ok
  else s'.answerPlatform .allocFailure)

/-- DISABLE (R126). -/
def execDisable (s : State) : Host.Outcome State Fault Refusal :=
  onDevice s fun _ => .next ((s.modDev fun d => { d with st := .disabled }).answer .ok)

/-- REMOVE (R127), also while the device's engine runs a request, when the notifier asserts it (R143). -/
def execRemove (s : State) : Host.Outcome State Fault Refusal :=
  match s.dev? with
  | none => .refused (.unboundDevice s.cur)
  | some d =>
    .next (if d.gone then s.answer .ok
    else
      ({ s with blk := s.blk.release d.bl }.modDev fun d => { d with gone := true, st := .disabled }).answer .ok)

/-- SHUTDOWN (R128): every line off. R38 makes each line's `BlDisable` atomic and R128 lists one for every line; that they
all happen in one step, so that no other agent moves between two lines, is the model's choice (log 28). -/
def execShutdown (s : State) : Host.Outcome State Fault Refusal :=
  .next ({ s with blk := s.blk.disableAll }.answerPlatform .ok)

end Sys2Proof.Machine
end

