-- ==== Sys2Proof/Machine/Sequencer.lean ====
section
/-! DEFINITION. The initialization command sequencer (43_sequencer.md R89 to R121): the request ENABLE, the table of
steps 2 to 8, the panel commands of the sequence, and its steps that are no command. -/

namespace Sys2Proof.Machine

open Sys2Proof

/-! ## The table of steps 2 to 8 -/

/-- The command of an element of `PWR_SEQ` (R101 to R103). -/
def pwrInstr (p : InitParams) : PwrCmd → Instr
  | .pwctrl1 => .pwctrl1 p.pwctrl1
  | .pwctrl2 => .pwctrl2 p.pwctrl2
  | .vcmpctl => .vcmpctl p.vcmpctl

/-- The entries of step 5, numbered from `i` on (R95). -/
def pwrSteps (p : InitParams) : Nat → List PwrCmd → List Micro
  | _, [] => []
  | i, c :: cs => .cmd (some (.step5 i)) (pwrInstr p c) :: pwrSteps p (i + 1) cs

/-- `INIT_TABLE` (R95) as the steps of `RUN_SEQ` (R96). The settle delays of its last column are put after SLPOUT and
DISPON by these commands themselves (R112, R114). -/
def initTable (p : Params) : List Micro :=
  [.cmd (some .step2) .dispoff,
    .cmd (some .step3) (.pgamctrl p.init.pgam.toList),
    .cmd (some .step4) (.ngamctrl p.init.ngam.toList)] ++
  (pwrSteps p.init 1 p.pwrSeq ++
  [.cmd (some (.step6 1)) (.madctl p.init.madctl0),
    .cmd (some (.step6 2)) (.colmod p.init.colmod),
    .cmd (some (.step6 3)) (.ifmode p.init.ifmode),
    .cmd (some (.step6 4)) (.frmctr1 p.init.frmctr1),
    .cmd (some (.step6 5)) (.invtr p.init.invtr),
    .cmd (some (.step6 6)) (.dfunctr p.init.dfunctr),
    .cmd (some (.step6 7)) (.etmod p.init.etmod),
    .cmd (some (.step6 8)) (.adjctrl3 p.init.adjctrl3),
    .cmd (some .step7) .slpout,
    .cmd (some (.step8 1)) .noron,
    .cmd (some (.step8 2)) .dispon])

/-! ## The request -/

/-- The steps of an ENABLE that has passed its guard, steps 2 to 8 to be put after step 1 if the reset asks for them. -/
def enableSteps (fromActive : Bool) : List Micro := [.reset fromActive, .addrMode, .paint, .blOn, .finish]

/-- ENABLE (R89): guard (R90), the state on entry (R91), `D.seq` at Step(1); the steps follow, one engine step each. -/
def execEnable (region : Option Region) (S : SrcDesc) (s : State) : Host.Outcome State Fault Refusal :=
  onDevice s fun _ =>
    .next (s.modDev fun d =>
      { d with
        st := if d.st = .active then .active else .poweringOn
        seq := .at .step1
        job := some ⟨.enable, region.getD (fullFrame s.cfg), S, false, [], .copy,
          enableSteps (decide (d.st = .active))⟩ })

/-- Step 1 (R92): failed ends the enable (R97), retained goes to step 9 (R94), needs_init to step 2, in `ResetOccurred`
if the enable began in `Active` (R93). -/
def resetStep (fromActive : Bool) (s : State) : State :=
  match s.resetDraw with
  | .failed => s.busReset.enableFail .hwInitFailure
  | .retained => s.busReset
  | .needsInit =>
    s.busReset.modDev fun d =>
      ({ d with st := if fromActive then .resetOccurred else d.st }).push (initTable s.cfg)

/-- ENABLE completes (R120). -/
def finishStep (s : State) : State := (s.modDev fun d => { d with st := .active }).endRequest .ok

/-! ## The commands -/

/-- DISPOFF (R98). -/
def execDispoff (s : State) : Host.Outcome State Fault Refusal := issue s.cfg.opc.dispoff [] [] s

/-- PGAMCTRL (R99). -/
def execPgamctrl (ps : List Byte) (s : State) : Host.Outcome State Fault Refusal := issue s.cfg.opc.pgamctrl ps [] s

/-- NGAMCTRL (R100). -/
def execNgamctrl (ps : List Byte) (s : State) : Host.Outcome State Fault Refusal := issue s.cfg.opc.ngamctrl ps [] s

/-- PWCTRL1 (R101). -/
def execPwctrl1 (ps : List Byte) (s : State) : Host.Outcome State Fault Refusal := issue s.cfg.opc.pwctrl1 ps [] s

/-- PWCTRL2 (R102). -/
def execPwctrl2 (ps : List Byte) (s : State) : Host.Outcome State Fault Refusal := issue s.cfg.opc.pwctrl2 ps [] s

/-- VCMPCTL (R103). -/
def execVcmpctl (ps : List Byte) (s : State) : Host.Outcome State Fault Refusal := issue s.cfg.opc.vcmpctl ps [] s

/-- MADCTL (R104 at step 6, R116 at step 9). -/
def execMadctl (b : Byte) (s : State) : Host.Outcome State Fault Refusal := issue s.cfg.opc.madctl [b] [] s

/-- COLMOD (R105). -/
def execColmod (b : Byte) (s : State) : Host.Outcome State Fault Refusal := issue s.cfg.opc.colmod [b] [] s

/-- IFMODE (R106). -/
def execIfmode (ps : List Byte) (s : State) : Host.Outcome State Fault Refusal := issue s.cfg.opc.ifmode ps [] s

/-- FRMCTR1 (R107). -/
def execFrmctr1 (ps : List Byte) (s : State) : Host.Outcome State Fault Refusal := issue s.cfg.opc.frmctr1 ps [] s

/-- INVTR (R108). -/
def execInvtr (ps : List Byte) (s : State) : Host.Outcome State Fault Refusal := issue s.cfg.opc.invtr ps [] s

/-- DFUNCTR (R109). -/
def execDfunctr (ps : List Byte) (s : State) : Host.Outcome State Fault Refusal := issue s.cfg.opc.dfunctr ps [] s

/-- ETMOD (R110). -/
def execEtmod (ps : List Byte) (s : State) : Host.Outcome State Fault Refusal := issue s.cfg.opc.etmod ps [] s

/-- ADJCTRL3 (R111). -/
def execAdjctrl3 (ps : List Byte) (s : State) : Host.Outcome State Fault Refusal := issue s.cfg.opc.adjctrl3 ps [] s

/-- SLPOUT (R112): on the answer true, `Delay(120)` comes next. -/
def execSlpout (s : State) : Host.Outcome State Fault Refusal :=
  issue s.cfg.opc.slpout [] [.delay Config.tSlpout] s

/-- NORON (R113). -/
def execNoron (s : State) : Host.Outcome State Fault Refusal := issue s.cfg.opc.noron [] [] s

/-- DISPON (R114): on the answer true, `Delay(100)` comes next. -/
def execDispon (s : State) : Host.Outcome State Fault Refusal :=
  issue s.cfg.opc.dispon [] [.delay Config.tDispon] s

end Sys2Proof.Machine
end

