-- ==== Sys2Proof/Machine/Dispatch.lean ====
section
/-! DEFINITION. The meaning of every instruction, one arm per constructor. -/

namespace Sys2Proof.Machine

open Sys2Proof

def exec (i : Instr) (s : State) : Host.Outcome State Fault Refusal :=
  match i with
  | .bind rot left top swap hasDc bl => Sys2Proof.Machine.execBind rot left top swap hasDc bl s
  | .enable region src => Sys2Proof.Machine.execEnable region src s
  | .update region src => Sys2Proof.Machine.execUpdate region src s
  | .disable => Sys2Proof.Machine.execDisable s
  | .remove => Sys2Proof.Machine.execRemove s
  | .shutdown => Sys2Proof.Machine.execShutdown s
  | .dispoff => Sys2Proof.Machine.execDispoff s
  | .pgamctrl ps => Sys2Proof.Machine.execPgamctrl ps s
  | .ngamctrl ps => Sys2Proof.Machine.execNgamctrl ps s
  | .pwctrl1 ps => Sys2Proof.Machine.execPwctrl1 ps s
  | .pwctrl2 ps => Sys2Proof.Machine.execPwctrl2 ps s
  | .vcmpctl ps => Sys2Proof.Machine.execVcmpctl ps s
  | .madctl b => Sys2Proof.Machine.execMadctl b s
  | .colmod b => Sys2Proof.Machine.execColmod b s
  | .ifmode ps => Sys2Proof.Machine.execIfmode ps s
  | .frmctr1 ps => Sys2Proof.Machine.execFrmctr1 ps s
  | .invtr ps => Sys2Proof.Machine.execInvtr ps s
  | .dfunctr ps => Sys2Proof.Machine.execDfunctr ps s
  | .etmod ps => Sys2Proof.Machine.execEtmod ps s
  | .adjctrl3 ps => Sys2Proof.Machine.execAdjctrl3 ps s
  | .slpout => Sys2Proof.Machine.execSlpout s
  | .noron => Sys2Proof.Machine.execNoron s
  | .dispon => Sys2Proof.Machine.execDispon s
  | .caset xs xe => Sys2Proof.Machine.execCaset xs xe s
  | .paset ys ye => Sys2Proof.Machine.execPaset ys ye s
  | .ramwr => Sys2Proof.Machine.execRamwr s

end Sys2Proof.Machine
end

