-- ==== Sys2Proof/Machine/Engine.lean ====
section
/-! DEFINITION. How the machine moves: a device engine's steps (00_scope.md R5, 92_eei_decisions.md D1), the removal rule
between them (60_exceptions.md R143), and what comes next of the host's requests, the engines and the host's writes
(20_memory.md R36, R37). -/

namespace Sys2Proof.Machine

open Sys2Proof

/-! ## One engine -/

/-- `D.seq <- e.step` of `RUN_SEQ` (R96), where the step of the request gives a position. -/
def State.atStep (s : State) : Option SeqStep → State
  | none => s
  | some k => s.modDev (·.setSeq (.at k))

/-- Step 9 (R116): `D.seq` is Step(9), then MADCTL with `ROT_BYTE(D.ROT)`. -/
def addrModeStep (s : State) : Host.Outcome State Fault Refusal :=
  match s.dev? with
  | none => .next s
  | some d => exec (.madctl (rotByte s.cfg d.rot)) (s.atStep (some .step9))

/-- One step of a request, on the current device. A request's steps hold no host request. -/
def runMicro (m : Micro) (s : State) : Host.Outcome State Fault Refusal :=
  match m with
  | .reset fromActive => .next (resetStep fromActive s)
  | .cmd pos i => if i.isCommand then exec i (s.atStep pos) else .next s
  | .delay ms => .next (s.delay ms)
  | .addrMode => addrModeStep s
  | .paint => paintStep s
  | .convert => convertStep s
  | .data => dataStep s
  | .blOn => .next s.blEnable
  | .finish => .next (finishStep s)

/-- The first of the remaining steps is taken off the running request and run; a request without one is over. -/
def runNext (todo : List Micro) (s : State) : Host.Outcome State Fault Refusal :=
  match todo with
  | [] => .next (s.modDev fun d => { d with job := none, seq := .idle })
  | m :: rest => runMicro m (s.modDev (·.modJob fun j => { j with todo := rest }))

/-- The engine of device `d` takes its next step, if it is running a request. After a removal the request stops here,
returning `OK`, or goes on, as drawn (R143). -/
def engineStep (d : Nat) (s : State) : Host.Outcome State Fault Refusal :=
  match s.devs[d]? with
  | none => .next s
  | some D =>
    match D.job with
    | none => .next s
    | some j =>
      if D.gone then
        if s.goOnDraw then
          runNext j.todo { s with cur := d, env := { s.env with goOn := s.env.goOn.next } }
        else
          .next ({ s with cur := d, env := { s.env with goOn := s.env.goOn.next } }.endRequest .ok)
      else runNext j.todo { s with cur := d }

/-! ## The whole machine -/

/-- The engine of this device is running a request. -/
def State.busy (s : State) (d : Nat) : Bool := (s.devs[d]?.bind Device.job).isSome

/-- The devices whose engines are running a request, lowest first. -/
def State.busyDevs (s : State) : List Nat := (List.range s.devs.length).filter s.busy

/-- A request of the host that waits while its device's engine runs another (R36, R153 item 5). BIND and SHUTDOWN are
addressed to no device. -/
def requestWaits : Instr → Bool
  | .enable .. | .update .. | .disable | .remove => true
  | _ => false

/-- The refusal of bytes that spell no request (R138). -/
def refusalOf : DecodeError → Refusal
  | .reservedTag t => .reservedTag t
  | e => .malformedRequest e

/-- The host's request at the head of the inputs: decoded and run on its device, or waiting while the engine there takes
its next step. -/
def takeRequest (d : Nat) (bytes : List Byte) (rest : List Input) (s : State) : Host.Outcome State Fault Refusal :=
  match decodeRequest bytes with
  | .error e => .refused (refusalOf e)
  | .ok i =>
    if requestWaits i && s.busy d then engineStep d s else exec i { s with cur := d, inputs := rest }

/-- With nothing more from outside, an engine that runs a request takes its next step; which one of several is a free
value (R37). With none, nothing changes. -/
def drain (s : State) : Host.Outcome State Fault Refusal :=
  match s.busyDevs with
  | [] => .next s
  | [d] => engineStep d s
  | d :: ds =>
    engineStep ((d :: ds).getD (s.moverDraw % (ds.length + 1)) d)
      { s with env := { s.env with mover := s.env.mover.next } }

/-- The host writes a byte of a running request's source memory (R31). -/
def hostWrite (d off : Nat) (v : Byte) (s : State) : State :=
  { s with devs := s.devs.modify d (·.modJob (·.hostWrite off v)) }

/-- The machine's next move. -/
def move (s : State) : Host.Outcome State Fault Refusal :=
  match s.inputs with
  | [] => drain s
  | .request d bytes :: rest => takeRequest d bytes rest s
  | .removal d :: rest => exec .remove { s with cur := d, inputs := rest }
  | .turn d :: rest => engineStep d { s with inputs := rest }
  | .hostWrite d off v :: rest => .next (hostWrite d off v { s with inputs := rest })

/-! ## Placing a word of the opcode table -/

/-- The device a word is placed on: what BIND with zero operands loads. -/
def wordDevice : Device := freshDevice .r0 0 0 false false 0

/-- A request the engine of that device is running whose next step is one command: as part of a flush for the commands
of a flush, at step 9 for MADCTL, else at a step before it. -/
def wordJob (i : Instr) : Job where
  req := .enable
  region := ⟨0, 0, 1, 1⟩
  src := ⟨.rgb565, 0, []⟩
  flushing :=
    match i with
    | .caset _ _ | .paset _ _ | .ramwr => true
    | _ => false
  raced := []
  path := .copy
  todo := [.cmd none i]

/-- The sequencer position a command stands at (R95). -/
def homeStep : Instr → SeqStep
  | .pgamctrl _ => .step3
  | .ngamctrl _ => .step4
  | .pwctrl1 _ => .step5 1
  | .pwctrl2 _ => .step5 2
  | .vcmpctl _ => .step5 3
  | .colmod _ => .step6 2
  | .ifmode _ => .step6 3
  | .frmctr1 _ => .step6 4
  | .invtr _ => .step6 5
  | .dfunctr _ => .step6 6
  | .etmod _ => .step6 7
  | .adjctrl3 _ => .step6 8
  | .slpout => .step7
  | .noron => .step8 1
  | .dispon => .step8 2
  | .madctl _ => .step9
  | .caset _ _ | .paset _ _ | .ramwr => .step10
  | _ => .step2

/-- A request to a device needs a device: tags 0x2 to 0x5. -/
def needsDevice (tag : Byte) : Bool := decide (2 ≤ tag.toNat ∧ tag.toNat ≤ 5)

/-- The state whose next move runs the instruction these bytes spell (log 8): a host request stands first in the inputs,
addressed to a newly bound device if it needs one; a panel command is the next step of a newly bound device's engine,
whose turn stands first in the inputs. -/
def placeWord (bytes : List Byte) (s : State) : State :=
  match decode s.cfg.opc bytes with
  | .error _ => { s with inputs := .request s.cur bytes :: s.inputs }
  | .ok i =>
    if i.isCommand then
      { s.addDevice { wordDevice with seq := .at (homeStep i), job := some (wordJob i) } with
        inputs := .turn s.devs.length :: s.inputs }
    else if needsDevice (bytes.headD 0) then
      { s.addDevice wordDevice with inputs := .request s.devs.length bytes :: s.inputs }
    else { s with inputs := .request s.cur bytes :: s.inputs }

end Sys2Proof.Machine
end

