-- ==== Sys2Proof/Machine/Step.lean ====
section
/-! DEFINITION. One step of the machine, and the state that runs a given word of the opcode table next. -/

namespace Sys2Proof.Machine

open Sys2Proof

/-- One step: the machine's next move. -/
def step (s : State) : Host.Outcome State Fault Refusal := move s

/-- `s` with a word of the opcode table placed where the next step takes its instruction (log 8). -/
def State.withFetchWord (s : State) (nbits w : Nat) : State := placeWord (layWord s.cfg.opc nbits w) s

end Sys2Proof.Machine
end

