-- ==== Sys2Proof/Safety.lean ====
section
/-! DEFINITION. The terms claims are made in: runs of several steps, the invariants every step keeps, and the event lists
the spec's sequences leave in a transcript. -/

namespace Sys2Proof.Machine

open Sys2Proof

/-! ## Runs -/

/-- `n` steps, stopping at the first fault or refusal. -/
def runSteps : Nat → State → Host.Outcome State Fault Refusal
  | 0, s => .next s
  | n + 1, s =>
    match step s with
    | .next t => runSteps n t
    | .fault f => .fault f
    | .refused r => .refused r

/-- The inputs that give the engine of device `d` its next `n` steps, `rest` after them. -/
def turns (d n : Nat) (rest : List Input) : List Input := List.replicate n (.turn d) ++ rest

/-- What comes next on the bus after a command answered true: the settle delays of SLPOUT and DISPON (R112, R114) and the
burst of RAMWR (R46). -/
def commandAfter : Instr → List Micro
  | .slpout => [.delay 120]
  | .dispon => [.delay 100]
  | .ramwr => [.data]
  | _ => []

/-- The next `n` answers of the transport to bus commands and bursts are all true. -/
def State.AllOk (s : State) (n : Nat) : Prop := ∀ k, k < n → s.env.ok.peekAt Config.freeOk k = true

/-! ## What a transcript gets -/

/-- The commands of a flush that open its window and start the transfer, all answered true (R83). The coordinates
are those of R71, which `WindowCoordinatesAreExact` states for a panel whose coordinates fit 16 bits (log 29). -/
def windowEvents (p : Params) (d : Device) (R : Region) : List Event :=
  [.cmd p.opc.caset (windowParams (coordinate (R.x1 + d.left)) (coordinate (R.x2 - 1 + d.left))) true,
    .cmd p.opc.paset (windowParams (coordinate (R.y1 + d.top)) (coordinate (R.y2 - 1 + d.top))) true,
    .cmd p.opc.ramwr [] true]

/-- A command of step 5, answered true (R101 to R103). -/
def pwrEvent (p : Params) : PwrCmd → Event
  | .pwctrl1 => .cmd p.opc.pwctrl1 p.init.pwctrl1 true
  | .pwctrl2 => .cmd p.opc.pwctrl2 p.init.pwctrl2 true
  | .vcmpctl => .cmd p.opc.vcmpctl p.init.vcmpctl true

/-- The events of steps 2 to 8 with every command answered true, in the order of the table of R95, each settle delay
after its command (R112, R114). -/
def initEvents (p : Params) : List Event :=
  [.cmd p.opc.dispoff [] true,
    .cmd p.opc.pgamctrl p.init.pgam.toList true,
    .cmd p.opc.ngamctrl p.init.ngam.toList true] ++
  (p.pwrSeq.map (pwrEvent p) ++
  [.cmd p.opc.madctl [p.init.madctl0] true,
    .cmd p.opc.colmod [p.init.colmod] true,
    .cmd p.opc.ifmode p.init.ifmode true,
    .cmd p.opc.frmctr1 p.init.frmctr1 true,
    .cmd p.opc.invtr p.init.invtr true,
    .cmd p.opc.dfunctr p.init.dfunctr true,
    .cmd p.opc.etmod p.init.etmod true,
    .cmd p.opc.adjctrl3 p.init.adjctrl3 true,
    .cmd p.opc.slpout [] true,
    .delay 120,
    .cmd p.opc.noron [] true,
    .cmd p.opc.dispon [] true,
    .delay 100])

/-- The same bus event with the answer false. -/
def Event.refused : Event → Event
  | .cmd op ps _ => .cmd op ps false
  | .data bs _ => .data bs false
  | e => e

/-- The bytes a flush of region `R` on device `d` sends when nobody writes the source meanwhile (R81, R82). -/
def flushBytes (p : Params) (d : Device) (R : Region) (S : SrcDesc) (e : Env) : List Byte :=
  match pathOf p d R S with
  | .fast => (memRead S [] 0 R.burstLen e).1
  | .copy =>
    match convertRegion p.expand S [] R d.swap e with
    | some (bytes, _) => bytes
    | none => []

/-- The four bus events of a flush that succeeds (R83). -/
def flushEvents (p : Params) (d : Device) (R : Region) (S : SrcDesc) (e : Env) : List Event :=
  windowEvents p d R ++ [.data (flushBytes p d R S e) true]

/-- How many times a flush invokes the converter (R80, R88). -/
def flushConversions (p : Params) (d : Device) (R : Region) (S : SrcDesc) : Nat :=
  match pathOf p d R S with
  | .fast => 0
  | .copy => 1

/-- The wire buffer after a flush (R57, R82). -/
def flushWire (p : Params) (d : Device) (R : Region) (S : SrcDesc) (e : Env) : Memory :=
  match pathOf p d R S with
  | .fast => d.wb
  | .copy => d.wb.writeBlock 0 (flushBytes p d R S e)

/-- Every source byte a flush of region `R` reads is mapped (R153, item 3). -/
def FlushMapped (p : Params) (d : Device) (R : Region) (S : SrcDesc) : Prop :=
  match pathOf p d R S with
  | .fast => R.burstLen ≤ S.len
  | .copy => ∀ bpp, bytesPerPixel S.fmt = some bpp → ∀ y, y < R.y2.toNat → srcOff S bpp R.x2.toNat y ≤ S.len

/-- The bytes of consecutive RGB565 words, the two bytes of each exchanged. -/
def exchangePairs : List Byte → List Byte
  | b0 :: b1 :: rest => b1 :: b0 :: exchangePairs rest
  | bs => bs

/-! ## Invariants -/

/-- The memory and the backlight table stand in their canonical form. -/
abbrev State.Canonical (s : State) : Prop := (∀ d ∈ s.devs, d.wb.wf) ∧ s.blk.wf

/-- `refs` is the number of bound devices on the line that are not removed (R23). -/
def State.RefsCounted (s : State) : Prop :=
  ∀ id, (s.blk.get id).refs = s.devs.countP fun d => !d.gone && d.bl == id

/-- Every byte written in a wire buffer lies inside it (R32). -/
abbrev State.WireBounded (s : State) : Prop := ∀ d ∈ s.devs, ∀ c ∈ d.wb, c.1 < s.cfg.wbSize

/-- A step an UPDATE can have before it. -/
def Micro.inUpdate : Micro → Bool
  | .convert | .data | .delay _ => true
  | .cmd pos _ => pos.isNone
  | _ => false

/-- A state of the device that holds only while an ENABLE runs (R121). -/
def DevState.passing : DevState → Bool
  | .poweringOn | .resetOccurred => true
  | _ => false

/-- How a device's request, sequencer position and state go together: `D.seq` is Idle exactly when no ENABLE runs (R20),
a running ENABLE still has its completion before it, and on a device that is not removed `PoweringOn` and
`ResetOccurred` hold only while an ENABLE runs (R121). -/
def Device.Tracked (d : Device) : Prop :=
  match d.job with
  | none => d.seq = .idle ∧ (d.gone = false → d.st.passing = false)
  | some j =>
    match j.req with
    | .update =>
      d.seq = .idle ∧ (d.gone = false → d.st.passing = false) ∧ ∀ m ∈ j.todo, m.inUpdate = true
    | .enable => d.seq ≠ .idle ∧ j.todo.getLast? = some .finish

/-- Every device's request, position and state go together. -/
def State.Tracked (s : State) : Prop := ∀ d ∈ s.devs, d.Tracked

/-- The last three events of a list are a flush's window commands, answered true. -/
def EndsOpen (p : Params) (T : List Event) : Prop :=
  ∃ T' a b, a.length = 4 ∧ b.length = 4 ∧
    T = T' ++ [.cmd p.opc.caset a true, .cmd p.opc.paset b true, .cmd p.opc.ramwr [] true]

/-- Every data burst of a transcript comes right after CASET, PASET and RAMWR, in that order and answered true (R74,
R154, R46). -/
def BurstsOpened (p : Params) (T : List Event) : Prop :=
  ∀ before bytes ok after, T = before ++ .data bytes ok :: after → EndsOpen p before

/-- A step that neither issues a command of a flush nor sends a burst. -/
def Micro.plain : Micro → Bool
  | .data => false
  | .cmd _ (.caset _ _) | .cmd _ (.paset _ _) | .cmd _ .ramwr => false
  | _ => true

/-- The remaining steps of a running flush, by what the transcript ends with. -/
def FlushShape (p : Params) (T : List Event) (todo : List Micro) : Prop :=
  ∃ tail, (∀ m ∈ tail, m.plain = true) ∧
    ((∃ a b c e, todo = .cmd none (.caset a b) :: .cmd none (.paset c e) :: .cmd none .ramwr :: tail) ∨
      (∃ a b c e,
        todo = .convert :: .cmd none (.caset a b) :: .cmd none (.paset c e) :: .cmd none .ramwr :: tail) ∨
      (∃ c e, todo = .cmd none (.paset c e) :: .cmd none .ramwr :: tail ∧
        ∃ T' a, a.length = 4 ∧ T = T' ++ [.cmd p.opc.caset a true]) ∨
      (todo = .cmd none .ramwr :: tail ∧
        ∃ T' a b, a.length = 4 ∧ b.length = 4 ∧ T = T' ++ [.cmd p.opc.caset a true, .cmd p.opc.paset b true]) ∨
      (todo = .data :: tail ∧ EndsOpen p T))

/-- A device's transcript opens every burst, and its running request stands where the next burst will be opened too. -/
def Device.Opened (p : Params) (d : Device) : Prop :=
  BurstsOpened p d.trace ∧
    ∀ j, d.job = some j →
      if j.flushing then FlushShape p d.trace j.todo else ∀ m ∈ j.todo, m.plain = true

/-- Every device's bursts are opened. -/
def State.Opened (s : State) : Prop := ∀ d ∈ s.devs, d.Opened s.cfg

/-! ## What a bind fixes -/

/-- The values fixed at bind are the same in two records of a device (R15, R16, R17, R18, R24). -/
def Device.SameBinding (d e : Device) : Prop :=
  e.rot = d.rot ∧ e.left = d.left ∧ e.top = d.top ∧ e.swap = d.swap ∧ e.hasDc = d.hasDc ∧ e.bl = d.bl ∧
    e.mode = d.mode ∧ e.caps = d.caps

end Sys2Proof.Machine
end

