-- ==== Sys2Proof/Certificates/Slice0/Obligations.lean ====
section
/-! DEFINITION. The statements for the provers, from the spec's numbered rules. OBLIGATIONS.json lists them. -/

open Sys2Proof Sys2Proof.Machine

/-! ## Encodings -/

/-- Decode and encode agree on every well-formed instruction: every operand at every value, for every opcode table that
tells the commands apart. A host request needs no opcode table. The operand layout of a request is the model's (log 6). -/
def Obligations.DecodeEncodeRoundTrip : Prop :=
  (∀ (opc : Opcodes) (i : Instr), opc.wf → i.wf = true → decode opc (encode opc i) = .ok i) ∧
    ∀ (opc : Opcodes) (i : Instr), i.isCommand = false → decodeRequest (encode opc i) = .ok i

/-- What the decoder gives is well-formed, and its first byte is that instruction's tag or opcode. -/
def Obligations.DecodedIsWellFormed : Prop :=
  ∀ (opc : Opcodes) (bs : List Byte) (i : Instr), decode opc bs = .ok i →
    i.wf = true ∧ bs.head? = some (i.lead opc)

/-- Words written out from the tables of R42, R47 and R48, and from the model's operand layout (log 6). -/
def Obligations.WrittenWordsDecode : Prop :=
  (decode Config.opcodes [0x01, 0xB4, 0x01, 0x14, 0x28, 0x00, 0x01, 0x00]).toOption =
      some (.bind 90 10 20 false true 0) ∧
    (decode Config.opcodes [0x03, 0x14, 0x28, 0x16, 0x2A, 0x00, 0x02, 0x02, 0xAB, 0xCD]).toOption =
      some (.update ⟨10, 20, 12, 22⟩ ⟨.rgb565, 2, [0xAB, 0xCD]⟩) ∧
    (decode Config.opcodes [0x06]).toOption = some .shutdown ∧
    (decode Config.opcodes [0x2A, 0x00, 0x0A, 0x01, 0x3F]).toOption = some (.caset 10 319) ∧
    (decode Config.opcodes [0x36, 0xE0]).toOption = some (.madctl 0xE0) ∧
    (decode Config.opcodes [0x11]).toOption = some .slpout ∧
    (decode Config.opcodes [0x07]).toOption = none

/-! ## What a step runs -/

/-- The request at the head of the inputs is run on the device it is addressed to. A request to a device whose engine is
running one waits, and that engine takes its next step: requests to one device are executed one at a time (R36); that the
waiting takes this form is the model's choice (log 2, log 10). -/
def Obligations.StepRunsDecodedRequest : Prop :=
  ∀ (s : State) (d : Nat) (bytes : List Byte) (rest : List Input) (i : Instr),
    s.inputs = .request d bytes :: rest → decodeRequest bytes = .ok i →
      ((requestWaits i && s.busy d) = false → step s = exec i { s with cur := d, inputs := rest }) ∧
        ((requestWaits i && s.busy d) = true → step s = engineStep d s)

/-- An engine whose next step is a panel command takes it off its request, sets the sequencer position the step gives
(R96), and runs it. One command a step is the grain of R5; holding the steps in the record is the model's choice (log 3). -/
def Obligations.EngineRunsItsNextCommand : Prop :=
  ∀ (s : State) (n : Nat) (rest : List Input) (d : Device) (j : Job) (pos : Option SeqStep) (i : Instr)
    (more : List Micro),
    s.inputs = .turn n :: rest → s.devs[n]? = some d → d.gone = false → d.job = some j →
      j.todo = .cmd pos i :: more → i.isCommand = true →
        ∃ u, step s = exec i u ∧ u.cfg = s.cfg ∧ u.blk = s.blk ∧ u.cur = n ∧ u.inputs = rest ∧
          u.returns = s.returns ∧ u.env = s.env ∧
          u.devs = s.devs.set n
            { d with
              seq := (pos.map SeqPos.at).getD d.seq
              job := some { j with todo := more } }

/-- REMOVE from the notifier and SHUTDOWN are run at once, whatever the engines are doing (R142, R143). The notifier's input
and the order of the inputs are the model's (log 2). -/
def Obligations.RemovalAndShutdownDoNotWait : Prop :=
  (∀ (s : State) (d : Nat) (rest : List Input),
    s.inputs = .removal d :: rest → step s = exec .remove { s with cur := d, inputs := rest }) ∧
    ∀ (s : State) (d : Nat) (rest : List Input),
      s.inputs = .request d [0x06] :: rest → step s = exec .shutdown { s with cur := d, inputs := rest }

/-- Reserved tags and devices never bound are refused, and the refusal stays to the end of a run; a request to a removed
device answers OK and changes nothing (R138). -/
def Obligations.ReservedAndUnboundAreRefused : Prop :=
  (∀ (s : State) (d : Nat) (tag : Byte) (ops : List Byte) (rest : List Input) (k : Nat),
    s.inputs = .request d (tag :: ops) :: rest → tag.toNat = 0 ∨ (7 ≤ tag.toNat ∧ tag.toNat ≤ 15) →
      runSteps (k + 1) s = .refused (.reservedTag (tag.setWidth 4))) ∧
    (∀ (s : State) (d : Nat) (bytes : List Byte) (rest : List Input) (i : Instr) (k : Nat),
      s.inputs = .request d bytes :: rest → decodeRequest bytes = .ok i → requestWaits i = true →
        s.devs[d]? = none → runSteps (k + 1) s = .refused (.unboundDevice d)) ∧
    ∀ (s : State) (d : Nat) (bytes : List Byte) (rest : List Input) (i : Instr) (D : Device),
      s.inputs = .request d bytes :: rest → decodeRequest bytes = .ok i → requestWaits i = true →
        s.devs[d]? = some D → D.gone = true → D.job = none →
          ∃ t, step s = .next t ∧ t.devs = s.devs ∧ t.blk = s.blk ∧ t.cfg = s.cfg ∧ t.env = s.env ∧
            t.inputs = rest ∧ t.returns = s.returns ++ [⟨some d, .ok⟩]

/-! ## Lifecycle requests -/

/-- BIND with a legal rotation and a successful allocation adds the record of R151 and one reference to its line. -/
def Obligations.BindLoadsTheResetRecord : Prop :=
  ∀ (s : State) (rot left top : Int) (swap hasDc : Bool) (bl : BacklightId) (r : Rotation),
    s.allocDraw = true →
      (rot = 0 ∧ r = .r0) ∨ (rot = 90 ∧ r = .r90) ∨ (rot = 180 ∧ r = .r180) ∨ (rot = 270 ∧ r = .r270) →
        ∃ t d, exec (.bind rot left top swap hasDc bl) s = .next t ∧ t.devs = s.devs ++ [d] ∧
          d.st = .uninitialized ∧ d.gone = false ∧ d.rot = r ∧ d.left = left ∧ d.top = top ∧ d.swap = swap ∧
          d.hasDc = hasDc ∧ d.bl = bl ∧ d.wb = [] ∧ d.seq = .idle ∧ d.convCount = 0 ∧ d.trace = [] ∧
          d.job = none ∧ d.mode = ⟨320, 480, 49, 73⟩ ∧ d.caps = [.rgb565, .xrgb8888] ∧
          t.blk.get bl = ⟨(s.blk.get bl).on, (s.blk.get bl).refs + 1⟩ ∧
          (∀ id, id ≠ bl → t.blk.get id = s.blk.get id) ∧
          t.cfg = s.cfg ∧ t.cur = s.cur ∧ t.inputs = s.inputs ∧ t.returns = s.returns ++ [⟨none, .ok⟩] ∧
          t.env = { s.env with alloc := s.env.alloc.next }

/-- Every other rotation ends BIND with CONFIG_ERROR; no device exists and the backlights are unchanged (R123). -/
def Obligations.BindRefusesOtherRotations : Prop :=
  ∀ (s : State) (rot left top : Int) (swap hasDc : Bool) (bl : BacklightId),
    s.allocDraw = true → rot ≠ 0 → rot ≠ 90 → rot ≠ 180 → rot ≠ 270 →
      ∃ t, exec (.bind rot left top swap hasDc bl) s = .next t ∧ t.devs = s.devs ∧ t.blk = s.blk ∧
        t.cfg = s.cfg ∧ t.cur = s.cur ∧ t.inputs = s.inputs ∧ t.returns = s.returns ++ [⟨none, .configError⟩]

/-- A failed allocation ends BIND with ALLOC_FAILURE and creates nothing, whatever the rotation (R124, in the order of
R122). -/
def Obligations.BindAllocationFailsFirst : Prop :=
  ∀ (s : State) (rot left top : Int) (swap hasDc : Bool) (bl : BacklightId), s.allocDraw = false →
    ∃ t, exec (.bind rot left top swap hasDc bl) s = .next t ∧ t.devs = s.devs ∧ t.blk = s.blk ∧
      t.cfg = s.cfg ∧ t.cur = s.cur ∧ t.inputs = s.inputs ∧ t.returns = s.returns ++ [⟨none, .allocFailure⟩]

/-- DISABLE on a device that is not removed writes `D.st` and nothing else, whatever `D.st` was; on a removed device it
writes nothing. Both answer OK (R126). -/
def Obligations.DisableWritesOnlyTheState : Prop :=
  (∀ (s : State) (d : Device), s.dev? = some d → d.gone = false → d.job = none →
    ∃ t, exec .disable s = .next t ∧ t.devs = s.devs.set s.cur { d with st := .disabled } ∧ t.blk = s.blk ∧
      t.cfg = s.cfg ∧ t.cur = s.cur ∧ t.inputs = s.inputs ∧ t.env = s.env ∧
      t.returns = s.returns ++ [⟨some s.cur, .ok⟩]) ∧
    ∀ (s : State) (d : Device), s.dev? = some d → d.gone = true →
      exec .disable s = .next { s with returns := s.returns ++ [⟨some s.cur, .ok⟩] }

/-- REMOVE sets `D.gone`, makes the device Disabled, and gives back one reference without touching `on`, also while the
engine runs a request; a second removal changes nothing (R127). -/
def Obligations.RemoveReleasesTheLine : Prop :=
  (∀ (s : State) (d : Device), s.dev? = some d → d.gone = false →
    ∃ t, exec .remove s = .next t ∧ t.devs = s.devs.set s.cur { d with gone := true, st := .disabled } ∧
      t.blk.get d.bl = ⟨(s.blk.get d.bl).on, (s.blk.get d.bl).refs - 1⟩ ∧
      (∀ id, id ≠ d.bl → t.blk.get id = s.blk.get id) ∧
      t.cfg = s.cfg ∧ t.cur = s.cur ∧ t.inputs = s.inputs ∧ t.env = s.env ∧
      t.returns = s.returns ++ [⟨some s.cur, .ok⟩]) ∧
    ∀ (s : State) (d : Device), s.dev? = some d → d.gone = true →
      exec .remove s = .next { s with returns := s.returns ++ [⟨some s.cur, .ok⟩] }

/-- On a canonical backlight table SHUTDOWN turns every line off, changes no reference count and no device, and a second
one changes no line (R128). That it does so in one step is the model's choice (log 28), and so is its result OK (log 4). -/
def Obligations.ShutdownTurnsEveryLineOff : Prop :=
  ∀ (s : State), s.blk.wf →
    ∃ t, exec .shutdown s = .next t ∧ (∀ id, t.blk.get id = ⟨false, (s.blk.get id).refs⟩) ∧ t.devs = s.devs ∧
      t.cfg = s.cfg ∧ t.cur = s.cur ∧ t.inputs = s.inputs ∧ t.env = s.env ∧
      t.returns = s.returns ++ [⟨none, .ok⟩] ∧ ∃ u, exec .shutdown t = .next u ∧ u.blk = t.blk ∧ u.devs = t.devs

/-- A request that finds the device removed answers OK with no effect at all (R134, R129). -/
def Obligations.RemovedDeviceAnswersOk : Prop :=
  ∀ (s : State) (d : Device) (i : Instr), s.dev? = some d → d.gone = true → requestWaits i = true →
    exec i s = .next { s with returns := s.returns ++ [⟨some s.cur, .ok⟩] }

/-- Platform reset: no device record, and every line off with no reference (R150). -/
def Obligations.ResetHasNoDeviceAndDarkLines : Prop :=
  State.reset.devs = [] ∧ ∀ id, State.reset.blk.get id = ⟨false, 0⟩

/-! ## ENABLE -/

/-- ENABLE on an idle device that is not removed: `D.st` stays Active or becomes PoweringOn, `D.seq` is Step(1), the
steps of the sequence stand before the engine, and nothing else changes (R89, R91). -/
def Obligations.EnableStartsTheSequence : Prop :=
  ∀ (s : State) (d : Device) (region : Option Region) (S : SrcDesc),
    s.dev? = some d → d.gone = false → d.job = none →
      ∃ t e j, exec (.enable region S) s = .next t ∧ t.devs = s.devs.set s.cur e ∧
        e = { d with
          st := if d.st = .active then .active else .poweringOn
          seq := .at .step1
          job := some j } ∧
        j.req = .enable ∧ j.region = region.getD ⟨0, 0, s.cfg.fw, s.cfg.fh⟩ ∧ j.src = S ∧ j.flushing = false ∧
        j.todo = [.reset (decide (d.st = .active)), .addrMode, .paint, .blOn, .finish] ∧
        t.blk = s.blk ∧ t.cfg = s.cfg ∧ t.cur = s.cur ∧ t.inputs = s.inputs ∧ t.env = s.env ∧ t.returns = s.returns

/-- Step 1 by the transport's answer: failed ends the enable, retained leaves the steps from step 9 on, needs_init puts
steps 2 to 8 first and makes a device that was Active ResetOccurred (R92, R93, R94, R97). -/
def Obligations.StepOneActsOnTheAnswer : Prop :=
  ∀ (s : State) (n : Nat) (rest : List Input) (d : Device) (j : Job) (fromActive : Bool) (more : List Micro),
    s.inputs = .turn n :: rest → s.devs[n]? = some d → d.gone = false → d.job = some j →
      j.todo = .reset fromActive :: more →
        ∃ t e, step s = .next t ∧ t.devs = s.devs.set n e ∧ t.blk = s.blk ∧
          e.trace = d.trace ++ [.reset s.resetDraw] ∧ e.wb = d.wb ∧ e.convCount = d.convCount ∧
          (s.resetDraw = .failed → e.st = .disabled ∧ e.seq = .idle ∧ e.job = none ∧
            t.returns = s.returns ++ [⟨some n, .hwInitFailure⟩]) ∧
          (s.resetDraw = .retained → e.st = d.st ∧ e.seq = d.seq ∧ e.job = some { j with todo := more } ∧
            t.returns = s.returns) ∧
          (s.resetDraw = .needsInit → e.st = (if fromActive then .resetOccurred else d.st) ∧ e.seq = d.seq ∧
            e.job = some { j with todo := initTable s.cfg ++ more } ∧ t.returns = s.returns)

/-- A command of a running request, outside a flush and before step 9 (log 16), answered false ends the enable: Disabled,
Idle, BUS_FAILURE, the failed command the last event, and no backlight touched (R96, R97, R140). -/
def Obligations.EarlyCommandFailureIsFatal : Prop :=
  ∀ (s : State) (d : Device) (j : Job) (i : Instr), i.isCommand = true → s.dev? = some d → d.job = some j →
    j.flushing = false → d.seq ≠ .at .step9 → s.okDraw = false →
      ∃ t, exec i s = .next t ∧
        t.devs = s.devs.set s.cur
          { d with
            st := .disabled
            seq := .idle
            job := none
            trace := d.trace ++ [.cmd (i.lead s.cfg.opc) i.operands false] } ∧
        t.blk = s.blk ∧ t.cfg = s.cfg ∧ t.returns = s.returns ++ [⟨some s.cur, .busFailure⟩]

/-- A failure at step 9, or in the flush of step 10, does not end the enable: after a false answer at step 9 the sequence
goes on; after a command or a burst answered false in the flush, or an unsupported format there, the backlight and the
completion are next; nothing is returned and `D.st` stays (R119). -/
def Obligations.LateFailuresAreNotFatal : Prop :=
  (∀ (s : State) (d : Device) (j : Job) (i : Instr), i.isCommand = true → s.dev? = some d → d.job = some j →
    j.flushing = false → d.seq = .at .step9 → s.okDraw = false →
      ∃ t, exec i s = .next t ∧
        t.devs = s.devs.set s.cur
          { d with trace := d.trace ++ [.cmd (i.lead s.cfg.opc) i.operands false] } ∧
        t.blk = s.blk ∧ t.returns = s.returns) ∧
    (∀ (s : State) (d : Device) (j : Job) (i : Instr), i.isCommand = true → s.dev? = some d → d.job = some j →
      j.req = .enable → j.flushing = true → s.okDraw = false →
        ∃ t, exec i s = .next t ∧
          t.devs = s.devs.set s.cur
            { d with
              trace := d.trace ++ [.cmd (i.lead s.cfg.opc) i.operands false]
              job := some { j with flushing := false, raced := [], todo := [.blOn, .finish] } } ∧
          t.blk = s.blk ∧ t.returns = s.returns) ∧
    (∀ (s : State) (n : Nat) (rest : List Input) (d : Device) (j : Job) (more : List Micro),
      s.inputs = .turn n :: rest → s.devs[n]? = some d → d.gone = false → d.job = some j →
        j.req = .enable → j.todo = .data :: more → s.okDraw = false →
          ∃ t, step s = .next t ∧ (burst n d j s.env).1.length = j.region.burstLen ∧
            t.devs = s.devs.set n
              { d with
                trace := d.trace ++ [.data (burst n d j s.env).1 false]
                job := some { j with flushing := false, raced := [], todo := [.blOn, .finish] } } ∧
            t.blk = s.blk ∧ t.returns = s.returns) ∧
    ∀ (s : State) (n : Nat) (rest : List Input) (d : Device) (j : Job) (more : List Micro) (k : Nat),
      s.inputs = .turn n :: rest → s.devs[n]? = some d → d.gone = false → d.job = some j →
        j.req = .enable → j.todo = .convert :: more → j.src.fmt = .other k →
          ∃ t, step s = .next t ∧
            t.devs = s.devs.set n
              { d with
                convCount := d.convCount + 1
                job := some { j with flushing := false, raced := [], todo := [.blOn, .finish] } } ∧
            t.blk = s.blk ∧ t.env = s.env ∧ t.returns = s.returns

/-- Step 9 issues MADCTL with the byte of the rotation table, whatever the answer (R115, R116). The places of the three
bits in the byte are general knowledge, as R115 itself says (log 17). -/
def Obligations.AddressingModeFollowsRotation : Prop :=
  ∀ (s : State) (n : Nat) (rest : List Input) (d : Device) (j : Job) (more : List Micro) (bits : Byte),
    s.inputs = .turn n :: rest → s.devs[n]? = some d → d.gone = false → d.job = some j →
      j.todo = .addrMode :: more → j.flushing = false →
        (d.rot = .r0 ∧ bits = 0x40) ∨ (d.rot = .r90 ∧ bits = 0x20) ∨ (d.rot = .r180 ∧ bits = 0x80) ∨
          (d.rot = .r270 ∧ bits = 0xE0) →
          ∃ t, step s = .next t ∧
            t.devs = s.devs.set n
              { d with
                seq := .at .step9
                trace := d.trace ++ [.cmd s.cfg.opc.madctl [bits ||| s.cfg.madctlExtra] s.okDraw]
                job := some { j with todo := more } } ∧
            t.blk = s.blk ∧ t.returns = s.returns

/-- After SLPOUT answered true the engine's next step is Delay(120), after DISPON Delay(100), and only then the rest
(R112, R114, R155). -/
def Obligations.SettleDelaysFollowTheirCommands : Prop :=
  ∀ (s : State) (n : Nat) (rest : List Input) (d : Device) (j : Job) (pos : Option SeqStep) (i : Instr)
    (op : Byte) (ms : Nat) (more : List Micro),
    s.inputs = .turn n :: .turn n :: rest → s.devs[n]? = some d → d.gone = false → d.job = some j →
      j.todo = .cmd pos i :: more → s.okDraw = true →
        (i = .slpout ∧ op = s.cfg.opc.slpout ∧ ms = 120) ∨ (i = .dispon ∧ op = s.cfg.opc.dispon ∧ ms = 100) →
          ∃ t, runSteps 2 s = .next t ∧ t.blk = s.blk ∧ t.returns = s.returns ∧
            t.devs = s.devs.set n
              { d with
                seq := (pos.map SeqPos.at).getD d.seq
                trace := d.trace ++ [.cmd op [] true, .delay ms]
                job := some { j with todo := more } }

/-- The backlight comes on after the paint, with its event, and then ENABLE completes: Active, Idle, OK; no other line
changes (R118, R120, R146). -/
def Obligations.BacklightThenActive : Prop :=
  ∀ (s : State) (n : Nat) (rest : List Input) (d : Device) (j : Job),
    s.inputs = .turn n :: .turn n :: rest → s.devs[n]? = some d → d.gone = false → d.job = some j →
      j.todo = [.blOn, .finish] →
        ∃ t, runSteps 2 s = .next t ∧
          t.devs = s.devs.set n
            { d with st := .active, seq := .idle, job := none, trace := d.trace ++ [.blOn d.bl] } ∧
          t.blk.get d.bl = ⟨true, (s.blk.get d.bl).refs⟩ ∧ (∀ id, id ≠ d.bl → t.blk.get id = s.blk.get id) ∧
          t.returns = s.returns ++ [⟨some n, .ok⟩]

/-- A whole ENABLE whose reset reports needs_init and whose commands are all answered true: steps 1 to 10 in order, the
paint, the backlight, Active, OK (R89, R95, R120). The engine has as many turns as the sequence can have steps; a turn
too many changes nothing. -/
def Obligations.EnableRunInitializesPaintsAndLights : Prop :=
  ∀ (s : State) (n : Nat) (bytes : List Byte) (rest : List Input) (region : Option Region) (S : SrcDesc)
    (d : Device) (R : Region),
    decodeRequest bytes = .ok (.enable region S) →
      s.inputs = .request n bytes :: turns n (26 + s.cfg.pwrSeq.length) rest →
        s.devs[n]? = some d → d.gone = false → d.job = none → R = region.getD (fullFrame s.cfg) →
          R.Valid s.cfg d.left d.top → (∀ k, S.fmt ≠ .other k) → s.resetDraw = .needsInit →
            s.AllOk (19 + s.cfg.pwrSeq.length) →
              ∃ t e, runSteps (27 + s.cfg.pwrSeq.length) s = .next t ∧ t.inputs = rest ∧ t.cfg = s.cfg ∧
                t.devs = s.devs.set n e ∧ t.blk = s.blk.enable d.bl ∧ t.returns = s.returns ++ [⟨some n, .ok⟩] ∧
                e = { d with
                  st := .active
                  seq := .idle
                  job := none
                  wb := flushWire s.cfg d R S s.env
                  convCount := d.convCount + flushConversions s.cfg d R S
                  trace := d.trace ++ ([.reset .needsInit] ++ (initEvents s.cfg ++
                    ([.cmd s.cfg.opc.madctl [rotByte s.cfg d.rot] true] ++
                      (flushEvents s.cfg d R S s.env ++ [.blOn d.bl])))) }

/-- A whole ENABLE whose reset reports retained issues only the addressing-mode command, the paint and the backlight
(R94, R158). -/
def Obligations.EnableRunSkipsWhenRetained : Prop :=
  ∀ (s : State) (n : Nat) (bytes : List Byte) (rest : List Input) (region : Option Region) (S : SrcDesc)
    (d : Device) (R : Region),
    decodeRequest bytes = .ok (.enable region S) → s.inputs = .request n bytes :: turns n 10 rest →
      s.devs[n]? = some d → d.gone = false → d.job = none → R = region.getD (fullFrame s.cfg) →
        R.Valid s.cfg d.left d.top → (∀ k, S.fmt ≠ .other k) → s.resetDraw = .retained → s.AllOk 5 →
          ∃ t e, runSteps 11 s = .next t ∧ t.inputs = rest ∧ t.cfg = s.cfg ∧
            t.devs = s.devs.set n e ∧ t.blk = s.blk.enable d.bl ∧ t.returns = s.returns ++ [⟨some n, .ok⟩] ∧
            e = { d with
              st := .active
              seq := .idle
              job := none
              wb := flushWire s.cfg d R S s.env
              convCount := d.convCount + flushConversions s.cfg d R S
              trace := d.trace ++ ([.reset .retained, .cmd s.cfg.opc.madctl [rotByte s.cfg d.rot] true] ++
                (flushEvents s.cfg d R S s.env ++ [.blOn d.bl])) }

/-- Every ENABLE with a valid region returns, whatever the transport answers: after its turns the engine is idle, the
device Active or Disabled, and exactly one code was returned, one of OK, BUS_FAILURE and HW_INIT_FAILURE (the table of R121,
which the spec derives from R91 to R97 and R120; R130, R159). -/
def Obligations.EnableAlwaysReturns : Prop :=
  ∀ (s : State) (n : Nat) (bytes : List Byte) (rest : List Input) (region : Option Region) (S : SrcDesc)
    (d : Device),
    decodeRequest bytes = .ok (.enable region S) →
      s.inputs = .request n bytes :: turns n (26 + s.cfg.pwrSeq.length) rest →
        s.devs[n]? = some d → d.gone = false → d.job = none →
          (region.getD (fullFrame s.cfg)).Valid s.cfg d.left d.top →
            ∃ t e code, runSteps (27 + s.cfg.pwrSeq.length) s = .next t ∧ t.inputs = rest ∧
              t.devs = s.devs.set n e ∧ e.job = none ∧ e.seq = .idle ∧ t.returns = s.returns ++ [⟨some n, code⟩] ∧
              ((e.st = .active ∧ code = .ok ∧ t.blk = s.blk.enable d.bl) ∨
                (e.st = .disabled ∧ (code = .busFailure ∨ code = .hwInitFailure) ∧ t.blk = s.blk))

/-! ## UPDATE -/

/-- UPDATE on an idle device that is not removed, with a valid region: the path is decided by R80, the flush's steps stand
before the engine, and nothing else changes (R77 to R83, R87). -/
def Obligations.UpdateStartsTheFlush : Prop :=
  ∀ (s : State) (d : Device) (R : Region) (S : SrcDesc),
    s.dev? = some d → d.gone = false → d.job = none → R.Valid s.cfg d.left d.top →
      ∃ t j, exec (.update R S) s = .next t ∧ t.devs = s.devs.set s.cur { d with job := some j } ∧
        j.req = .update ∧ j.region = R ∧ j.src = S ∧ j.flushing = true ∧ j.raced = [] ∧
        (j.path = .fast ↔ R = ⟨0, 0, s.cfg.fw, s.cfg.fh⟩ ∧ S.fmt = .rgb565 ∧ d.swap = false ∧ d.hasDc = true) ∧
        j.todo = (if j.path = .copy then [.convert] else []) ++
          [.cmd none (windowCols R d.left), .cmd none (windowPages R d.top), .cmd none .ramwr] ∧
        t.blk = s.blk ∧ t.cfg = s.cfg ∧ t.cur = s.cur ∧ t.inputs = s.inputs ∧ t.env = s.env ∧ t.returns = s.returns

/-- A flush of a device that is not removed faults when its region is not valid: in UPDATE whatever the format, and at
ENABLE's step 10 (R137, in the order of R87). -/
def Obligations.BadRegionFaults : Prop :=
  (∀ (s : State) (d : Device) (R : Region) (S : SrcDesc),
    s.dev? = some d → d.gone = false → d.job = none → ¬ R.Valid s.cfg d.left d.top →
      exec (.update R S) s = .fault (.badRegion R)) ∧
    ∀ (s : State) (n : Nat) (rest : List Input) (d : Device) (j : Job) (more : List Micro),
      s.inputs = .turn n :: rest → s.devs[n]? = some d → d.gone = false → d.job = some j →
        j.todo = .paint :: more → ¬ j.region.Valid s.cfg d.left d.top →
          step s = .fault (.badRegion j.region)

/-- A whole UPDATE whose bus calls are all answered true sends CASET, PASET, RAMWR and one burst of `3*w*h` bytes, and
returns OK; `D.st` stays, and the buffer and the count change on the copy path only (R81, R82, R83, R87). -/
def Obligations.UpdateRunSendsWindowAndBurst : Prop :=
  ∀ (s : State) (n : Nat) (bytes : List Byte) (rest : List Input) (R : Region) (S : SrcDesc) (d : Device),
    decodeRequest bytes = .ok (.update R S) → s.inputs = .request n bytes :: turns n 5 rest →
      s.devs[n]? = some d → d.gone = false → d.job = none → R.Valid s.cfg d.left d.top →
        (∀ k, S.fmt ≠ .other k) → s.AllOk 4 →
          ∃ t e, runSteps 6 s = .next t ∧ t.inputs = rest ∧ t.cfg = s.cfg ∧ t.devs = s.devs.set n e ∧
            t.blk = s.blk ∧ t.returns = s.returns ++ [⟨some n, .ok⟩] ∧
            (flushBytes s.cfg d R S s.env).length = R.burstLen ∧
            e = { d with
              seq := .idle
              job := none
              wb := flushWire s.cfg d R S s.env
              convCount := d.convCount + flushConversions s.cfg d R S
              trace := d.trace ++ flushEvents s.cfg d R S s.env }

/-- The first bus call of an UPDATE that is answered false is its last event: the flush ends with BUS_FAILURE and `D.st`
stays (R84). -/
def Obligations.UpdateStopsAtTheFirstFailure : Prop :=
  ∀ (s : State) (n : Nat) (bytes : List Byte) (rest : List Input) (R : Region) (S : SrcDesc) (d : Device) (k : Nat)
    (ev : Event),
    decodeRequest bytes = .ok (.update R S) → s.inputs = .request n bytes :: turns n 5 rest →
      s.devs[n]? = some d → d.gone = false → d.job = none → R.Valid s.cfg d.left d.top →
        (∀ k, S.fmt ≠ .other k) → s.AllOk k → s.env.ok.peekAt Config.freeOk k = false →
          (flushEvents s.cfg d R S s.env)[k]? = some ev →
            ∃ t e, runSteps 6 s = .next t ∧ t.inputs = rest ∧ t.devs = s.devs.set n e ∧ t.blk = s.blk ∧
              t.returns = s.returns ++ [⟨some n, .busFailure⟩] ∧ e.st = d.st ∧ e.job = none ∧
              e.trace = d.trace ++ ((flushEvents s.cfg d R S s.env).take k ++ [ev.refused])

/-- An unsupported format ends an UPDATE with UNSUPPORTED_FORMAT before any bus transaction: the conversion is counted,
the wire buffer and the transcript stay (R60, R61, R81). -/
def Obligations.UnsupportedFormatSendsNothing : Prop :=
  ∀ (s : State) (n : Nat) (bytes : List Byte) (rest : List Input) (R : Region) (S : SrcDesc) (d : Device) (k : Nat),
    decodeRequest bytes = .ok (.update R S) → s.inputs = .request n bytes :: turns n 1 rest →
      s.devs[n]? = some d → d.gone = false → d.job = none → R.Valid s.cfg d.left d.top → S.fmt = .other k →
        ∃ t, runSteps 2 s = .next t ∧ t.inputs = rest ∧
          t.devs = s.devs.set n { d with seq := .idle, job := none, convCount := d.convCount + 1 } ∧
          t.blk = s.blk ∧ t.env = s.env ∧ t.returns = s.returns ++ [⟨some n, .unsupportedFormat⟩]

/-- A full-frame RGB565 update with a data/command line and no swap never invokes the converter; a full-frame XRGB8888
update always does, whatever the transport answers (R88, which the spec derives from R80). -/
def Obligations.PathChoiceShowsInTheCount : Prop :=
  ∀ (s : State) (n : Nat) (bytes : List Byte) (rest : List Input) (R : Region) (S : SrcDesc) (d : Device),
    decodeRequest bytes = .ok (.update R S) → s.inputs = .request n bytes :: turns n 5 rest →
      s.devs[n]? = some d → d.gone = false → d.job = none → R = fullFrame s.cfg →
        R.Valid s.cfg d.left d.top →
          (S.fmt = .rgb565 → d.swap = false → d.hasDc = true →
            ∃ t e, runSteps 6 s = .next t ∧ t.devs = s.devs.set n e ∧ e.convCount = d.convCount) ∧
          (S.fmt = .xrgb8888 →
            ∃ t e, runSteps 6 s = .next t ∧ t.devs = s.devs.set n e ∧ e.convCount = d.convCount + 1)

/-- Two successful updates of the same region from the same mapped source bytes append the same four events (R86,
which the spec derives from R83 and R62). -/
def Obligations.RepeatedUpdateRepeatsItsEvents : Prop :=
  ∀ (s : State) (n : Nat) (bytes : List Byte) (rest : List Input) (R : Region) (S : SrcDesc) (d : Device),
    decodeRequest bytes = .ok (.update R S) →
      s.inputs = .request n bytes :: turns n 5 (.request n bytes :: turns n 5 rest) →
        s.devs[n]? = some d → d.gone = false → d.job = none → R.Valid s.cfg d.left d.top →
          (∀ k, S.fmt ≠ .other k) → FlushMapped s.cfg d R S → s.AllOk 8 →
            ∃ t e es, runSteps 12 s = .next t ∧ t.devs = s.devs.set n e ∧ es.length = 4 ∧
              e.trace = d.trace ++ (es ++ es) ∧
              t.returns = s.returns ++ [⟨some n, .ok⟩, ⟨some n, .ok⟩]

/-! ## The converter and the source -/

/-- A conversion from mapped bytes: `3*w*h` bytes, drawing nothing, pixel `(x1+i, y1+j)` at `3*(j*w+i)` (R57, R59). The
pixel comes from the source bytes at `(y1+j)*pitch + (x1+i)*bpp` (R28): for RGB565 the fields of the little-endian word,
or of the word with its bytes exchanged, expanded (R29, R63, R64, R65; the places of the fields are general knowledge,
log 17); for XRGB8888 the bytes 2, 1 and 0, whatever the swap is (R67, R68). -/
def Obligations.ConversionPlacesEveryPixel : Prop :=
  ∀ (x : Expand565) (S : SrcDesc) (R : Region) (swap : Bool) (e : Env) (bpp : Nat),
    bytesPerPixel S.fmt = some bpp → 0 ≤ R.x1 → 0 ≤ R.y1 → R.x1 < R.x2 → R.y1 < R.y2 →
      (∀ y, y < R.y2.toNat → srcOff S bpp R.x2.toNat y ≤ S.len) →
        ∃ bytes, convertRegion x S [] R swap e = some (bytes, e) ∧ bytes.length = R.burstLen ∧
          ∀ i j, i < R.width → j < R.height →
            (bytes.drop (3 * (j * R.width + i))).take 3 =
              wireRow x S.fmt swap
                ((S.bytes.drop (srcOff S bpp (R.x1.toNat + i) (R.y1.toNat + j))).take bpp) ∧
            (S.fmt = .rgb565 →
              ∃ b0 b1, S.bytes[(R.y1.toNat + j) * S.pitch + (R.x1.toNat + i) * 2]? = some b0 ∧
                S.bytes[(R.y1.toNat + j) * S.pitch + (R.x1.toNat + i) * 2 + 1]? = some b1 ∧
                ∃ p : Half, p = (if swap then b0 ++ b1 else b1 ++ b0) ∧
                  (bytes.drop (3 * (j * R.width + i))).take 3 =
                    [expand5 x (p.extractLsb' 11 5), expand6 x (p.extractLsb' 5 6),
                      expand5 x (p.extractLsb' 0 5)]) ∧
            (S.fmt = .xrgb8888 →
              ∃ b0 b1 b2 b3, S.bytes[(R.y1.toNat + j) * S.pitch + (R.x1.toNat + i) * 4]? = some b0 ∧
                S.bytes[(R.y1.toNat + j) * S.pitch + (R.x1.toNat + i) * 4 + 1]? = some b1 ∧
                S.bytes[(R.y1.toNat + j) * S.pitch + (R.x1.toNat + i) * 4 + 2]? = some b2 ∧
                S.bytes[(R.y1.toNat + j) * S.pitch + (R.x1.toNat + i) * 4 + 3]? = some b3 ∧
                (bytes.drop (3 * (j * R.width + i))).take 3 = [b2, b1, b0])

/-- The conversion step of a request writes the first bytes of the wire buffer, leaves every other byte of it, and counts
once (R32, R57, R59, R60). -/
def Obligations.ConversionWritesOnlyItsBytes : Prop :=
  ∀ (s : State) (n : Nat) (rest : List Input) (d : Device) (j : Job) (more : List Micro) (bytes : List Byte)
    (env : Env),
    s.inputs = .turn n :: rest → s.devs[n]? = some d → d.gone = false → d.job = some j → d.wb.wf →
      j.todo = .convert :: more → j.region.Valid s.cfg d.left d.top →
        convertRegion s.cfg.expand j.src j.raced j.region d.swap s.env = some (bytes, env) →
          ∃ t e, step s = .next t ∧ t.devs = s.devs.set n e ∧ t.blk = s.blk ∧ t.returns = s.returns ∧
            e.convCount = d.convCount + 1 ∧ e.trace = d.trace ∧ e.st = d.st ∧
            e.job = some { j with todo := more } ∧ bytes.length = j.region.burstLen ∧
            ∀ a, e.wb.read a = if a < j.region.burstLen then bytes[a]? else d.wb.read a

/-- Converting RGB565 bytes with a swap is converting them without one after the two bytes of each word are exchanged
(R66, which the spec derives from R63 and R65). -/
def Obligations.SwapExchangesEachWord : Prop :=
  ∀ (x : Expand565) (bs : List Byte), wireRow565 x true bs = wireRow565 x false (exchangePairs bs)

/-- The wire pixel of an RGB565 word is its three fields expanded, by default with ZeroFill. The two expansions: zero low
bits under ZeroFill, the top bits again under Replicate, the same six bits of green, and a difference in the upper six bits
of red and blue only in bit 2, where the field's top bit is 1 (R65). The places of the fields in the word are general
knowledge, as R50 and R64 say (log 17). -/
def Obligations.ExpansionReadingsCompare : Prop :=
  Config.params.expand = .zeroFill ∧
  (∀ (x : Expand565) (p : Half),
    wire565 x p =
      [expand5 x (p.extractLsb' 11 5), expand6 x (p.extractLsb' 5 6), expand5 x (p.extractLsb' 0 5)]) ∧
  (∀ c : BitVec 5,
    expand5 .zeroFill c = c ++ (0 : BitVec 3) ∧
      expand5 .replicate c = c ++ c.extractLsb' 2 3 ∧
      (expand5 .replicate c).extractLsb' 3 5 = (expand5 .zeroFill c).extractLsb' 3 5 ∧
      ((expand5 .replicate c).getLsbD 2 ≠ (expand5 .zeroFill c).getLsbD 2 ↔ c.getLsbD 4 = true)) ∧
    ∀ c : BitVec 6,
      expand6 .zeroFill c = c ++ (0 : BitVec 2) ∧ expand6 .replicate c = c ++ c.extractLsb' 4 2 ∧
        (expand6 .replicate c).extractLsb' 2 6 = (expand6 .zeroFill c).extractLsb' 2 6

/-- `MemRead` when nobody writes the source: a mapped byte is what the source holds, every other byte is a draw of its
own, and only those draws are taken (R27). -/
def Obligations.ReadsGiveTheMappedBytes : Prop :=
  ∀ (S : SrcDesc) (off n : Nat) (e : Env),
    (memRead S [] off n e).1.length = n ∧
      (∀ k, k < n → (memRead S [] off n e).1[k]? =
        if off + k < S.len then S.bytes[off + k]?
        else some (e.byte.peekAt Config.freeByte (k - (S.len - off)))) ∧
      (n ≤ S.len - off → (memRead S [] off n e).2 = e) ∧
      (S.len - off ≤ n → (memRead S [] off n e).2.byte.drawn = e.byte.drawn + (n - (S.len - off)))

/-- A source byte the host wrote during the flush reads as its old value or as a written one, and each of these can be
read. R31 draws between the old value and the new one; that after several writes at one offset every written value can
still be read is the model's deduction (log 14). -/
def Obligations.RacedByteIsOldOrWritten : Prop :=
  ∀ (raced : List (Nat × Byte)) (off : Nat) (b : Byte) (e : Env),
    ((readByte raced off (some b) e).1 = b ∨ (off, (readByte raced off (some b) e).1) ∈ raced) ∧
      ∀ v, v = b ∨ (off, v) ∈ raced →
        ∃ k, (readByte raced off (some b) { e with pick := ⟨[k], e.pick.drawn⟩ }).1 = v

/-- A host write to the source memory of a running request (R31): before a flush the mapped byte is changed, during one it
is remembered as a value the byte may read as, past the mapped memory there is nothing to write; without a running request
nothing changes. Where the new value stands is the model's form (log 14). -/
def Obligations.HostWriteReachesTheRunningRequest : Prop :=
  ∀ (s : State) (n off : Nat) (v : Byte) (rest : List Input), s.inputs = .hostWrite n off v :: rest →
    ∃ t, step s = .next t ∧ t.inputs = rest ∧ t.cfg = s.cfg ∧ t.blk = s.blk ∧ t.cur = s.cur ∧ t.env = s.env ∧
      t.returns = s.returns ∧ ((∀ d, s.devs[n]? = some d → d.job = none) → t.devs = s.devs) ∧
      ∀ (d : Device) (j : Job), s.devs[n]? = some d → d.job = some j →
        (j.src.len ≤ off → t.devs = s.devs) ∧
        (off < j.src.len → j.flushing = true →
          t.devs = s.devs.set n { d with job := some { j with raced := j.raced ++ [(off, v)] } }) ∧
        (off < j.src.len → j.flushing = false →
          ∃ bytes, t.devs = s.devs.set n { d with job := some { j with src := { j.src with bytes := bytes } } } ∧
            bytes.length = j.src.len ∧ bytes[off]? = some v ∧ ∀ k, k ≠ off → bytes[k]? = j.src.bytes[k]?)

/-! ## The window encoder and the commands -/

/-- On a panel whose coordinates fit 16 bits a valid region's window commands carry exactly the four coordinates, end
inclusive, inside the panel, each as high byte then low byte (R48, R72, R73; the spec derives R71 from R78). On a larger
panel the spec gives no bytes for a coordinate above 65535, and the model sends a free value (log 29). -/
def Obligations.WindowCoordinatesAreExact : Prop :=
  ∀ (p : Params) (left top : Int) (R : Region), R.Valid p left top → p.panelW ≤ 65536 → p.panelH ≤ 65536 →
    ∃ xs xe ys ye : Half, windowCols R left = .caset xs xe ∧ windowPages R top = .paset ys ye ∧
      (xs.toNat : Int) = R.x1 + left ∧ (xe.toNat : Int) = R.x2 - 1 + left ∧
      (ys.toNat : Int) = R.y1 + top ∧ (ye.toNat : Int) = R.y2 - 1 + top ∧
      xs.toNat ≤ xe.toNat ∧ xe.toNat ≤ p.panelW - 1 ∧ ys.toNat ≤ ye.toNat ∧ ye.toNat ≤ p.panelH - 1 ∧
      (windowCols R left).operands.map BitVec.toNat =
        [xs.toNat / 256, xs.toNat % 256, xe.toNat / 256, xe.toNat % 256] ∧
      (windowPages R top).operands.map BitVec.toNat =
        [ys.toNat / 256, ys.toNat % 256, ye.toNat / 256, ye.toNat % 256]

/-- Each of the twenty panel commands, answered true: one event with its opcode and parameters, its follow-up before the
request's other steps, and nothing else changes (R35, R46, R47, R98 to R114, R116, R72, R73, R83). The follow-up of a
command that no request runs is left out (log 24). -/
def Obligations.CommandIsOneTransaction : Prop :=
  ∀ (s : State) (d : Device) (i : Instr), s.dev? = some d → s.okDraw = true → i.isCommand = true →
    ∃ t, exec i s = .next t ∧
      t.devs = s.devs.set s.cur
        { d with
          trace := d.trace ++ [.cmd (i.lead s.cfg.opc) i.operands true]
          job := d.job.map fun j => { j with todo := commandAfter i ++ j.todo } } ∧
      t.blk = s.blk ∧ t.cfg = s.cfg ∧ t.cur = s.cur ∧ t.inputs = s.inputs ∧ t.returns = s.returns ∧
      t.env = { s.env with ok := s.env.ok.next }

/-- What a panel command leaves unchanged, whatever the answer: every other device, the bind-time values, the liveness
flag, the wire buffer, the converter's count, the backlights, and all of the transcript before its own event (R96, R140). -/
def Obligations.CommandFrame : Prop :=
  ∀ (s t : State) (i : Instr), i.isCommand = true → exec i s = .next t →
    (∀ n, n ≠ s.cur → t.devs[n]? = s.devs[n]?) ∧ t.blk = s.blk ∧ t.cfg = s.cfg ∧ t.cur = s.cur ∧
      t.inputs = s.inputs ∧ t.env = { s.env with ok := s.env.ok.next } ∧
      ∃ d e, s.devs[s.cur]? = some d ∧ t.devs[s.cur]? = some e ∧ d.SameBinding e ∧ e.gone = d.gone ∧
        e.wb = d.wb ∧ e.convCount = d.convCount ∧
        e.trace = d.trace ++ [.cmd (i.lead s.cfg.opc) i.operands s.okDraw]

/-! ## Removal while a request runs -/

/-- After a removal a running request stops at the boundary, returning OK with no further event, or takes the step it
would have taken, as drawn (R143). Boundaries of internal steps count too, which is the model's choice (log 13). -/
def Obligations.RemovedRequestStopsOrGoesOn : Prop :=
  ∀ (s : State) (n : Nat) (rest : List Input) (d : Device) (j : Job),
    s.inputs = .turn n :: rest → s.devs[n]? = some d → d.gone = true → d.job = some j →
      (s.goOnDraw = false →
        ∃ t, step s = .next t ∧ t.devs = s.devs.set n { d with seq := .idle, job := none } ∧ t.blk = s.blk ∧
          t.returns = s.returns ++ [⟨some n, .ok⟩]) ∧
      (s.goOnDraw = true →
        step s = runNext j.todo
          { s with cur := n, inputs := rest, env := { s.env with goOn := s.env.goOn.next } })

/-! ## What every step keeps -/

/-- Every step keeps memories and backlight table in their canonical form. -/
def Obligations.StepKeepsCanonicalForm : Prop :=
  ∀ s t : State, s.Canonical → step s = .next t → t.Canonical

/-- Every step keeps `refs` the number of devices on the line that are bound and not removed (R23). -/
def Obligations.StepKeepsReferencesCounted : Prop :=
  ∀ s t : State, s.Canonical → s.RefsCounted → step s = .next t → t.RefsCounted

/-- No step writes a wire buffer past its size (R32). -/
def Obligations.StepKeepsWireBufferBounds : Prop :=
  ∀ s t : State, s.WireBounded → step s = .next t → t.WireBounded

/-- Every step keeps request, sequencer position and device state together: `D.seq` is Idle whenever no ENABLE runs, and
`PoweringOn` and `ResetOccurred` hold only while one runs, where the device is not removed (R20, R121; the spec derives
R121). After a removal an ENABLE that goes on may leave either (log 11). -/
def Obligations.StepKeepsSequencerTracked : Prop :=
  ∀ s t : State, s.Tracked → step s = .next t → t.Tracked

/-- Every step keeps every data burst right behind CASET, PASET and RAMWR, in that order and answered true (R74, R154). -/
def Obligations.StepKeepsBurstsOpened : Prop :=
  ∀ s t : State, s.Opened → step s = .next t → t.Opened

/-- Platform reset meets every invariant. -/
def Obligations.ResetMeetsTheInvariants : Prop :=
  State.reset.Canonical ∧ State.reset.RefsCounted ∧ State.reset.WireBounded ∧ State.reset.Tracked ∧
    State.reset.Opened

/-- Every step keeps the parameters, every bound device, the values fixed at its bind, and its removal (R14 to R18, R129). -/
def Obligations.StepKeepsBindTimeValues : Prop :=
  ∀ s t : State, step s = .next t →
    t.cfg = s.cfg ∧ ∀ (n : Nat) (d : Device), s.devs[n]? = some d →
      ∃ e, t.devs[n]? = some e ∧ d.SameBinding e ∧ (d.gone = true → e.gone = true)

/-- Every step leaves each transcript as it was or appends one event (R22, R36). -/
def Obligations.StepAppendsAtMostOneEvent : Prop :=
  ∀ (s t : State) (n : Nat) (d : Device), step s = .next t → s.devs[n]? = some d →
    ∃ e, t.devs[n]? = some e ∧ (e.trace = d.trace ∨ ∃ ev, e.trace = d.trace ++ [ev])

/-- A turn of one engine leaves every other device's record and every other device's line as they were (R37, R147). -/
def Obligations.TurnTouchesOneDevice : Prop :=
  ∀ (s t : State) (n : Nat) (rest : List Input), s.inputs = .turn n :: rest → step s = .next t →
    t.devs.length = s.devs.length ∧ (∀ m, m ≠ n → t.devs[m]? = s.devs[m]?) ∧
      ∀ id, (∀ d, s.devs[n]? = some d → d.bl ≠ id) → t.blk.get id = s.blk.get id

/-- A line that is on goes off only by SHUTDOWN (R127, R128). -/
def Obligations.OnlyShutdownTurnsALineOff : Prop :=
  ∀ (s t : State) (id : BacklightId), step s = .next t → (s.blk.get id).on = true → (t.blk.get id).on = false →
    ∃ d bytes rest, s.inputs = .request d bytes :: rest ∧ decodeRequest bytes = .ok .shutdown

/-- A line that is off goes on only by the backlight step of an ENABLE of a device on it, which appends its event (R22,
R118, R146). The premise is the invariant of `StepKeepsSequencerTracked`. -/
def Obligations.OnlyEnableTurnsALineOn : Prop :=
  ∀ (s t : State) (id : BacklightId), s.Tracked → step s = .next t →
    (s.blk.get id).on = false → (t.blk.get id).on = true →
      ∃ (n : Nat) (d : Device) (j : Job) (e : Device), s.devs[n]? = some d ∧ d.job = some j ∧ j.req = .enable ∧
        j.todo.head? = some .blOn ∧ d.bl = id ∧ t.devs[n]? = some e ∧ e.trace = d.trace ++ [.blOn id]

/-- The engine's steps of an UPDATE never change `D.st` (R84, R87). -/
def Obligations.UpdateNeverChangesDeviceState : Prop :=
  ∀ (s t : State) (n : Nat) (rest : List Input) (d : Device) (j : Job),
    s.inputs = .turn n :: rest → step s = .next t → s.devs[n]? = some d → d.Tracked → d.job = some j →
      j.req = .update → j.flushing = true → ∃ e, t.devs[n]? = some e ∧ e.st = d.st ∧ e.seq = .idle
end

