-- ==== Sys2Proof/Laws/Decode.lean ====
section
/-! SUPPORT. What each reader of an operand gives on what its writer wrote, with any bytes after it. -/

namespace Sys2Proof

/-- A natural number is read back. -/
theorem takeNat_encodeNatIn (name : String) {k n : Nat} (h : n ≤ k) (rest : List Byte) :
    takeNat name (encodeNatIn k n ++ rest) = .ok (n, rest) := by
  induction k generalizing n with
  | zero =>
    obtain rfl : n = 0 := Nat.le_zero.mp h
    rfl
  | succ k ih =>
    unfold encodeNatIn
    split
    · rename_i hn
      have hb : (BitVec.ofNat 8 n).toNat = n := by rw [BitVec.toNat_ofNat]; omega
      simp only [List.singleton_append, takeNat, hb, if_pos hn]
    · have hb : (BitVec.ofNat 8 (n % 128 + 128)).toNat = n % 128 + 128 := by rw [BitVec.toNat_ofNat]; omega
      simp only [List.cons_append, takeNat, hb, ih (n := n / 128) (by omega)]
      rw [if_neg (by omega)]
      congr 2
      omega

/-- A natural number is read back. -/
theorem takeNat_encodeNat (name : String) (n : Nat) (rest : List Byte) :
    takeNat name (encodeNat n ++ rest) = .ok (n, rest) := takeNat_encodeNatIn name (Nat.le_refl n) rest

/-- An integer is found again from its number. -/
theorem unzigzag_zigzag (z : Int) : unzigzag (zigzag z) = z := by
  cases z with
  | ofNat n => simp [zigzag, unzigzag]
  | negSucc n =>
    have h : (2 * n + 1) % 2 = 1 := by omega
    have hd : (2 * n + 1) / 2 = n := by omega
    simp [zigzag, unzigzag, h, hd]

/-- An integer is read back. -/
theorem takeInt_encodeInt (name : String) (z : Int) (rest : List Byte) :
    takeInt name (encodeInt z ++ rest) = .ok (z, rest) := by
  simp only [takeInt, encodeInt, takeNat_encodeNat, unzigzag_zigzag]

/-- A Bool is read back. -/
theorem takeBool_encodeBool (name : String) (b : Bool) (rest : List Byte) :
    takeBool name (encodeBool b ++ rest) = .ok (b, rest) := by cases b <;> rfl

/-- A region is read back. -/
theorem takeRegion_encodeRegion (R : Region) (rest : List Byte) :
    takeRegion (encodeRegion R ++ rest) = .ok (R, rest) := by
  simp only [takeRegion, encodeRegion, List.append_assoc, takeInt_encodeInt, bind, Except.bind]
  simp [pure, Except.pure]

/-- An optional region is read back. -/
theorem takeOptRegion_encodeOptRegion (R : Option Region) (rest : List Byte) :
    takeOptRegion (encodeOptRegion R ++ rest) = .ok (R, rest) := by
  cases R with
  | none =>
    simp only [takeOptRegion, encodeOptRegion, takeBool_encodeBool, bind, Except.bind]
    rfl
  | some R =>
    simp only [takeOptRegion, encodeOptRegion, List.append_assoc, takeBool_encodeBool, takeRegion_encodeRegion, bind,
      Except.bind]
    rfl

/-- A pixel format is found again from its number. -/
theorem formatOfCode_formatCode (f : PixelFormat) : formatOfCode (formatCode f) = f := by cases f <;> rfl

/-- A source descriptor is read back. -/
theorem takeSrc_encodeSrc (S : SrcDesc) (rest : List Byte) : takeSrc (encodeSrc S ++ rest) = .ok (S, rest) := by
  have h : ¬ (S.bytes ++ rest).length < S.bytes.length := by rw [List.length_append]; omega
  simp only [takeSrc, encodeSrc, List.append_assoc, takeNat_encodeNat, takeBytes, bind, Except.bind, if_neg h]
  simp [pure, Except.pure, formatOfCode_formatCode]

/-- A 16-bit value is put together again from its two bytes (R8). -/
theorem cat8_hi8_lo8 (v : Half) : cat8 (hi8 v) (lo8 v) = v := by
  apply BitVec.eq_of_getLsbD_eq
  intro i hi
  simp only [cat8, hi8, lo8, BitVec.getLsbD_append, BitVec.getLsbD_extractLsb']
  by_cases h : i < 8
  · simp [h]
  · simp only [h, decide_false, Bool.false_and, if_false]
    have h8 : i - 8 < 8 := by omega
    have he : 8 + (i - 8) = i := by omega
    simp [h8, he]

end Sys2Proof
end

