-- ==== Sys2Proof/Laws/State.lean ====
section
/-! SUPPORT. What each update of the state leaves in each field: one lemma per field per update, so that no proof unfolds
a record update. -/

namespace Sys2Proof.Machine

open Sys2Proof

/-! ## Updates of a device record -/


@[simp] theorem Device.log_st (d : Device) (e : Event) : (d.log e).st = d.st := rfl
@[simp] theorem Device.log_gone (d : Device) (e : Event) : (d.log e).gone = d.gone := rfl
@[simp] theorem Device.log_rot (d : Device) (e : Event) : (d.log e).rot = d.rot := rfl
@[simp] theorem Device.log_left (d : Device) (e : Event) : (d.log e).left = d.left := rfl
@[simp] theorem Device.log_top (d : Device) (e : Event) : (d.log e).top = d.top := rfl
@[simp] theorem Device.log_swap (d : Device) (e : Event) : (d.log e).swap = d.swap := rfl
@[simp] theorem Device.log_hasDc (d : Device) (e : Event) : (d.log e).hasDc = d.hasDc := rfl
@[simp] theorem Device.log_bl (d : Device) (e : Event) : (d.log e).bl = d.bl := rfl
@[simp] theorem Device.log_wb (d : Device) (e : Event) : (d.log e).wb = d.wb := rfl
@[simp] theorem Device.log_seq (d : Device) (e : Event) : (d.log e).seq = d.seq := rfl
@[simp] theorem Device.log_convCount (d : Device) (e : Event) : (d.log e).convCount = d.convCount := rfl
@[simp] theorem Device.log_trace (d : Device) (e : Event) : (d.log e).trace = d.trace ++ [e] := rfl
@[simp] theorem Device.log_mode (d : Device) (e : Event) : (d.log e).mode = d.mode := rfl
@[simp] theorem Device.log_caps (d : Device) (e : Event) : (d.log e).caps = d.caps := rfl
@[simp] theorem Device.log_job (d : Device) (e : Event) : (d.log e).job = d.job := rfl

@[simp] theorem Device.modJob_st (d : Device) (f : Job → Job) : (d.modJob f).st = d.st := rfl
@[simp] theorem Device.modJob_gone (d : Device) (f : Job → Job) : (d.modJob f).gone = d.gone := rfl
@[simp] theorem Device.modJob_rot (d : Device) (f : Job → Job) : (d.modJob f).rot = d.rot := rfl
@[simp] theorem Device.modJob_left (d : Device) (f : Job → Job) : (d.modJob f).left = d.left := rfl
@[simp] theorem Device.modJob_top (d : Device) (f : Job → Job) : (d.modJob f).top = d.top := rfl
@[simp] theorem Device.modJob_swap (d : Device) (f : Job → Job) : (d.modJob f).swap = d.swap := rfl
@[simp] theorem Device.modJob_hasDc (d : Device) (f : Job → Job) : (d.modJob f).hasDc = d.hasDc := rfl
@[simp] theorem Device.modJob_bl (d : Device) (f : Job → Job) : (d.modJob f).bl = d.bl := rfl
@[simp] theorem Device.modJob_wb (d : Device) (f : Job → Job) : (d.modJob f).wb = d.wb := rfl
@[simp] theorem Device.modJob_seq (d : Device) (f : Job → Job) : (d.modJob f).seq = d.seq := rfl
@[simp] theorem Device.modJob_convCount (d : Device) (f : Job → Job) : (d.modJob f).convCount = d.convCount := rfl
@[simp] theorem Device.modJob_trace (d : Device) (f : Job → Job) : (d.modJob f).trace = d.trace := rfl
@[simp] theorem Device.modJob_mode (d : Device) (f : Job → Job) : (d.modJob f).mode = d.mode := rfl
@[simp] theorem Device.modJob_caps (d : Device) (f : Job → Job) : (d.modJob f).caps = d.caps := rfl
@[simp] theorem Device.modJob_job (d : Device) (f : Job → Job) : (d.modJob f).job = d.job.map f := rfl

@[simp] theorem Device.setSeq_st (d : Device) (p : SeqPos) : (d.setSeq p).st = d.st := rfl
@[simp] theorem Device.setSeq_gone (d : Device) (p : SeqPos) : (d.setSeq p).gone = d.gone := rfl
@[simp] theorem Device.setSeq_rot (d : Device) (p : SeqPos) : (d.setSeq p).rot = d.rot := rfl
@[simp] theorem Device.setSeq_left (d : Device) (p : SeqPos) : (d.setSeq p).left = d.left := rfl
@[simp] theorem Device.setSeq_top (d : Device) (p : SeqPos) : (d.setSeq p).top = d.top := rfl
@[simp] theorem Device.setSeq_swap (d : Device) (p : SeqPos) : (d.setSeq p).swap = d.swap := rfl
@[simp] theorem Device.setSeq_hasDc (d : Device) (p : SeqPos) : (d.setSeq p).hasDc = d.hasDc := rfl
@[simp] theorem Device.setSeq_bl (d : Device) (p : SeqPos) : (d.setSeq p).bl = d.bl := rfl
@[simp] theorem Device.setSeq_wb (d : Device) (p : SeqPos) : (d.setSeq p).wb = d.wb := rfl
@[simp] theorem Device.setSeq_seq (d : Device) (p : SeqPos) : (d.setSeq p).seq = p := rfl
@[simp] theorem Device.setSeq_convCount (d : Device) (p : SeqPos) : (d.setSeq p).convCount = d.convCount := rfl
@[simp] theorem Device.setSeq_trace (d : Device) (p : SeqPos) : (d.setSeq p).trace = d.trace := rfl
@[simp] theorem Device.setSeq_mode (d : Device) (p : SeqPos) : (d.setSeq p).mode = d.mode := rfl
@[simp] theorem Device.setSeq_caps (d : Device) (p : SeqPos) : (d.setSeq p).caps = d.caps := rfl
@[simp] theorem Device.setSeq_job (d : Device) (p : SeqPos) : (d.setSeq p).job = d.job := rfl

@[simp] theorem Device.push_st (d : Device) (ms : List Micro) : (d.push ms).st = d.st := rfl
@[simp] theorem Device.push_gone (d : Device) (ms : List Micro) : (d.push ms).gone = d.gone := rfl
@[simp] theorem Device.push_rot (d : Device) (ms : List Micro) : (d.push ms).rot = d.rot := rfl
@[simp] theorem Device.push_left (d : Device) (ms : List Micro) : (d.push ms).left = d.left := rfl
@[simp] theorem Device.push_top (d : Device) (ms : List Micro) : (d.push ms).top = d.top := rfl
@[simp] theorem Device.push_swap (d : Device) (ms : List Micro) : (d.push ms).swap = d.swap := rfl
@[simp] theorem Device.push_hasDc (d : Device) (ms : List Micro) : (d.push ms).hasDc = d.hasDc := rfl
@[simp] theorem Device.push_bl (d : Device) (ms : List Micro) : (d.push ms).bl = d.bl := rfl
@[simp] theorem Device.push_wb (d : Device) (ms : List Micro) : (d.push ms).wb = d.wb := rfl
@[simp] theorem Device.push_seq (d : Device) (ms : List Micro) : (d.push ms).seq = d.seq := rfl
@[simp] theorem Device.push_convCount (d : Device) (ms : List Micro) : (d.push ms).convCount = d.convCount := rfl
@[simp] theorem Device.push_trace (d : Device) (ms : List Micro) : (d.push ms).trace = d.trace := rfl
@[simp] theorem Device.push_mode (d : Device) (ms : List Micro) : (d.push ms).mode = d.mode := rfl
@[simp] theorem Device.push_caps (d : Device) (ms : List Micro) : (d.push ms).caps = d.caps := rfl
@[simp] theorem Device.push_job (d : Device) (ms : List Micro) : (d.push ms).job = d.job.map fun j => { j with todo := ms ++ j.todo } := rfl

@[simp] theorem Device.countConversion_st (d : Device) : (d.countConversion).st = d.st := rfl
@[simp] theorem Device.countConversion_gone (d : Device) : (d.countConversion).gone = d.gone := rfl
@[simp] theorem Device.countConversion_rot (d : Device) : (d.countConversion).rot = d.rot := rfl
@[simp] theorem Device.countConversion_left (d : Device) : (d.countConversion).left = d.left := rfl
@[simp] theorem Device.countConversion_top (d : Device) : (d.countConversion).top = d.top := rfl
@[simp] theorem Device.countConversion_swap (d : Device) : (d.countConversion).swap = d.swap := rfl
@[simp] theorem Device.countConversion_hasDc (d : Device) : (d.countConversion).hasDc = d.hasDc := rfl
@[simp] theorem Device.countConversion_bl (d : Device) : (d.countConversion).bl = d.bl := rfl
@[simp] theorem Device.countConversion_wb (d : Device) : (d.countConversion).wb = d.wb := rfl
@[simp] theorem Device.countConversion_seq (d : Device) : (d.countConversion).seq = d.seq := rfl
@[simp] theorem Device.countConversion_convCount (d : Device) : (d.countConversion).convCount = d.convCount + 1 := rfl
@[simp] theorem Device.countConversion_trace (d : Device) : (d.countConversion).trace = d.trace := rfl
@[simp] theorem Device.countConversion_mode (d : Device) : (d.countConversion).mode = d.mode := rfl
@[simp] theorem Device.countConversion_caps (d : Device) : (d.countConversion).caps = d.caps := rfl
@[simp] theorem Device.countConversion_job (d : Device) : (d.countConversion).job = d.job := rfl

/-! ## Updates of the state -/

@[simp] theorem State.modDev_cfg (s : State) (f : Device → Device) : (s.modDev f).cfg = s.cfg := rfl
@[simp] theorem State.modDev_devs (s : State) (f : Device → Device) : (s.modDev f).devs = s.devs.modify s.cur f := rfl
@[simp] theorem State.modDev_blk (s : State) (f : Device → Device) : (s.modDev f).blk = s.blk := rfl
@[simp] theorem State.modDev_cur (s : State) (f : Device → Device) : (s.modDev f).cur = s.cur := rfl
@[simp] theorem State.modDev_inputs (s : State) (f : Device → Device) : (s.modDev f).inputs = s.inputs := rfl
@[simp] theorem State.modDev_returns (s : State) (f : Device → Device) : (s.modDev f).returns = s.returns := rfl
@[simp] theorem State.modDev_env (s : State) (f : Device → Device) : (s.modDev f).env = s.env := rfl

@[simp] theorem State.busCmd_cfg (s : State) (op : Byte) (ps : List Byte) : (s.busCmd op ps).cfg = s.cfg := rfl
@[simp] theorem State.busCmd_devs (s : State) (op : Byte) (ps : List Byte) : (s.busCmd op ps).devs = s.devs.modify s.cur (·.log (.cmd op ps s.okDraw)) := rfl
@[simp] theorem State.busCmd_blk (s : State) (op : Byte) (ps : List Byte) : (s.busCmd op ps).blk = s.blk := rfl
@[simp] theorem State.busCmd_cur (s : State) (op : Byte) (ps : List Byte) : (s.busCmd op ps).cur = s.cur := rfl
@[simp] theorem State.busCmd_inputs (s : State) (op : Byte) (ps : List Byte) : (s.busCmd op ps).inputs = s.inputs := rfl
@[simp] theorem State.busCmd_returns (s : State) (op : Byte) (ps : List Byte) : (s.busCmd op ps).returns = s.returns := rfl
@[simp] theorem State.busCmd_env (s : State) (op : Byte) (ps : List Byte) : (s.busCmd op ps).env = { s.env with ok := s.env.ok.next } := rfl

@[simp] theorem State.busData_cfg (s : State) (bs : List Byte) : (s.busData bs).cfg = s.cfg := rfl
@[simp] theorem State.busData_devs (s : State) (bs : List Byte) : (s.busData bs).devs = s.devs.modify s.cur (·.log (.data bs s.okDraw)) := rfl
@[simp] theorem State.busData_blk (s : State) (bs : List Byte) : (s.busData bs).blk = s.blk := rfl
@[simp] theorem State.busData_cur (s : State) (bs : List Byte) : (s.busData bs).cur = s.cur := rfl
@[simp] theorem State.busData_inputs (s : State) (bs : List Byte) : (s.busData bs).inputs = s.inputs := rfl
@[simp] theorem State.busData_returns (s : State) (bs : List Byte) : (s.busData bs).returns = s.returns := rfl
@[simp] theorem State.busData_env (s : State) (bs : List Byte) : (s.busData bs).env = { s.env with ok := s.env.ok.next } := rfl

@[simp] theorem State.busReset_cfg (s : State) : (s.busReset).cfg = s.cfg := rfl
@[simp] theorem State.busReset_devs (s : State) : (s.busReset).devs = s.devs.modify s.cur (·.log (.reset s.resetDraw)) := rfl
@[simp] theorem State.busReset_blk (s : State) : (s.busReset).blk = s.blk := rfl
@[simp] theorem State.busReset_cur (s : State) : (s.busReset).cur = s.cur := rfl
@[simp] theorem State.busReset_inputs (s : State) : (s.busReset).inputs = s.inputs := rfl
@[simp] theorem State.busReset_returns (s : State) : (s.busReset).returns = s.returns := rfl
@[simp] theorem State.busReset_env (s : State) : (s.busReset).env = { s.env with reset := s.env.reset.next } := rfl

@[simp] theorem State.delay_cfg (s : State) (ms : Nat) : (s.delay ms).cfg = s.cfg := rfl
@[simp] theorem State.delay_devs (s : State) (ms : Nat) : (s.delay ms).devs = s.devs.modify s.cur (·.log (.delay ms)) := rfl
@[simp] theorem State.delay_blk (s : State) (ms : Nat) : (s.delay ms).blk = s.blk := rfl
@[simp] theorem State.delay_cur (s : State) (ms : Nat) : (s.delay ms).cur = s.cur := rfl
@[simp] theorem State.delay_inputs (s : State) (ms : Nat) : (s.delay ms).inputs = s.inputs := rfl
@[simp] theorem State.delay_returns (s : State) (ms : Nat) : (s.delay ms).returns = s.returns := rfl
@[simp] theorem State.delay_env (s : State) (ms : Nat) : (s.delay ms).env = s.env := rfl

@[simp] theorem State.answer_cfg (s : State) (c : ResultCode) : (s.answer c).cfg = s.cfg := rfl
@[simp] theorem State.answer_devs (s : State) (c : ResultCode) : (s.answer c).devs = s.devs := rfl
@[simp] theorem State.answer_blk (s : State) (c : ResultCode) : (s.answer c).blk = s.blk := rfl
@[simp] theorem State.answer_cur (s : State) (c : ResultCode) : (s.answer c).cur = s.cur := rfl
@[simp] theorem State.answer_inputs (s : State) (c : ResultCode) : (s.answer c).inputs = s.inputs := rfl
@[simp] theorem State.answer_returns (s : State) (c : ResultCode) : (s.answer c).returns = s.returns ++ [⟨some s.cur, c⟩] := rfl
@[simp] theorem State.answer_env (s : State) (c : ResultCode) : (s.answer c).env = s.env := rfl

@[simp] theorem State.answerPlatform_cfg (s : State) (c : ResultCode) : (s.answerPlatform c).cfg = s.cfg := rfl
@[simp] theorem State.answerPlatform_devs (s : State) (c : ResultCode) : (s.answerPlatform c).devs = s.devs := rfl
@[simp] theorem State.answerPlatform_blk (s : State) (c : ResultCode) : (s.answerPlatform c).blk = s.blk := rfl
@[simp] theorem State.answerPlatform_cur (s : State) (c : ResultCode) : (s.answerPlatform c).cur = s.cur := rfl
@[simp] theorem State.answerPlatform_inputs (s : State) (c : ResultCode) : (s.answerPlatform c).inputs = s.inputs := rfl
@[simp] theorem State.answerPlatform_returns (s : State) (c : ResultCode) : (s.answerPlatform c).returns = s.returns ++ [⟨none, c⟩] := rfl
@[simp] theorem State.answerPlatform_env (s : State) (c : ResultCode) : (s.answerPlatform c).env = s.env := rfl

@[simp] theorem State.endRequest_cfg (s : State) (c : ResultCode) : (s.endRequest c).cfg = s.cfg := rfl
@[simp] theorem State.endRequest_devs (s : State) (c : ResultCode) : (s.endRequest c).devs = s.devs.modify s.cur fun d => { d with job := none, seq := .idle } := rfl
@[simp] theorem State.endRequest_blk (s : State) (c : ResultCode) : (s.endRequest c).blk = s.blk := rfl
@[simp] theorem State.endRequest_cur (s : State) (c : ResultCode) : (s.endRequest c).cur = s.cur := rfl
@[simp] theorem State.endRequest_inputs (s : State) (c : ResultCode) : (s.endRequest c).inputs = s.inputs := rfl
@[simp] theorem State.endRequest_returns (s : State) (c : ResultCode) : (s.endRequest c).returns = s.returns ++ [⟨some s.cur, c⟩] := rfl
@[simp] theorem State.endRequest_env (s : State) (c : ResultCode) : (s.endRequest c).env = s.env := rfl

@[simp] theorem State.enableFail_cfg (s : State) (c : ResultCode) : (s.enableFail c).cfg = s.cfg := rfl
@[simp] theorem State.enableFail_devs (s : State) (c : ResultCode) : (s.enableFail c).devs = (s.devs.modify s.cur fun d => { d with st := .disabled }).modify s.cur fun d => { d with job := none, seq := .idle } := rfl
@[simp] theorem State.enableFail_blk (s : State) (c : ResultCode) : (s.enableFail c).blk = s.blk := rfl
@[simp] theorem State.enableFail_cur (s : State) (c : ResultCode) : (s.enableFail c).cur = s.cur := rfl
@[simp] theorem State.enableFail_inputs (s : State) (c : ResultCode) : (s.enableFail c).inputs = s.inputs := rfl
@[simp] theorem State.enableFail_returns (s : State) (c : ResultCode) : (s.enableFail c).returns = s.returns ++ [⟨some s.cur, c⟩] := rfl
@[simp] theorem State.enableFail_env (s : State) (c : ResultCode) : (s.enableFail c).env = s.env := rfl

@[simp] theorem State.addDevice_cfg (s : State) (d : Device) : (s.addDevice d).cfg = s.cfg := rfl
@[simp] theorem State.addDevice_devs (s : State) (d : Device) : (s.addDevice d).devs = s.devs ++ [d] := rfl
@[simp] theorem State.addDevice_blk (s : State) (d : Device) : (s.addDevice d).blk = s.blk.attach d.bl := rfl
@[simp] theorem State.addDevice_cur (s : State) (d : Device) : (s.addDevice d).cur = s.cur := rfl
@[simp] theorem State.addDevice_inputs (s : State) (d : Device) : (s.addDevice d).inputs = s.inputs := rfl
@[simp] theorem State.addDevice_returns (s : State) (d : Device) : (s.addDevice d).returns = s.returns := rfl
@[simp] theorem State.addDevice_env (s : State) (d : Device) : (s.addDevice d).env = s.env := rfl

/-! ## The current device under an update -/

/-- The current device after an update of it. -/
@[simp] theorem State.modDev_dev? (s : State) (f : Device → Device) : (s.modDev f).dev? = s.dev?.map f := by
  simp [State.dev?]

/-- Another device is not changed. -/
theorem State.modDev_get_ne (s : State) (f : Device → Device) {n : Nat} (h : s.cur ≠ n) :
    (s.modDev f).devs[n]? = s.devs[n]? := by
  simp [h]

/-- An update of the current device writes the record at its place. -/
theorem State.modDev_devs_set {s : State} {d : Device} (h : s.dev? = some d) (f : Device → Device) :
    (s.modDev f).devs = s.devs.set s.cur (f d) := by
  refine List.ext_getElem? fun n => ?_
  have hd : s.devs[s.cur]? = some d := h
  obtain ⟨hlt, hget⟩ := List.getElem?_eq_some_iff.mp hd
  by_cases hn : s.cur = n
  · subst hn
    simp [hlt, hget]
  · simp [hn]

/-- Two updates of the current device are one. -/
theorem State.modDev_modDev (s : State) (f g : Device → Device) :
    (s.modDev f).modDev g = s.modDev (g ∘ f) := by
  simp [State.modDev, List.modify_modify_eq]

end Sys2Proof.Machine
end

