-- ==== Sys2Proof/Laws/Engine.lean ====
section
/-! SUPPORT. What one step can do, said once: to the record of one device and to the backlight table (`Moves`), and to the
whole state (`step_moves`). Invariants are derived from this, not from the step function. -/

namespace Sys2Proof.Machine

open Sys2Proof

/-! ## Commands and the end of requests -/

/-- Every panel command is one `BusCmd` of its opcode and parameters. -/
theorem exec_command {i : Instr} (h : i.isCommand = true) (s : State) :
    exec i s = issue (i.lead s.cfg.opc) i.operands (commandAfter i) s := by
  cases i <;> first | rfl | simp [Instr.isCommand] at h

/-- The record of a device whose request ended (R140). -/
def Device.ended (d : Device) : Device := { d with job := none, seq := .idle }

/-- The record of a device whose flush ended. -/
def Device.flushEnded (d : Device) : Device :=
  match d.job with
  | none => d
  | some j =>
    match j.req with
    | .update => d.ended
    | .enable => { d with job := some { j with flushing := false, raced := [], todo := [.blOn, .finish] } }

/-- The end of an UPDATE's flush. -/
theorem Device.flushEnded_update {d : Device} {j : Job} (hj : d.job = some j) (hr : j.req = .update) :
    d.flushEnded = d.ended := by simp only [Device.flushEnded, hj, hr]

/-- The end of the flush of ENABLE's step 10. -/
theorem Device.flushEnded_enable {d : Device} {j : Job} (hj : d.job = some j) (hr : j.req = .enable) :
    d.flushEnded = { d with job := some { j with flushing := false, raced := [], todo := [.blOn, .finish] } } := by
  simp only [Device.flushEnded, hj, hr]

/-- The record of a device whose command was answered false. -/
def Device.cmdFailed (d : Device) : Device :=
  match d.job with
  | none => d
  | some j =>
    if j.flushing then d.flushEnded
    else if d.seq = .at .step9 then d
    else { d with st := .disabled }.ended

/-- The record of a device after a command, answered `ok`. -/
def Device.commanded (p : Params) (i : Instr) (ok : Bool) (d : Device) : Device :=
  if ok then (d.log (.cmd (i.lead p.opc) i.operands ok)).push (commandAfter i)
  else (d.log (.cmd (i.lead p.opc) i.operands ok)).cmdFailed

/-- The end of a flush leaves everything but the request and the sequencer position. -/
theorem Device.flushEnded_frame (d : Device) :
    d.SameBinding d.flushEnded ∧ d.flushEnded.gone = d.gone ∧ d.flushEnded.st = d.st ∧ d.flushEnded.wb = d.wb ∧
      d.flushEnded.convCount = d.convCount ∧ d.flushEnded.trace = d.trace := by
  unfold Device.flushEnded
  split
  · simp [Device.SameBinding]
  · split <;> simp [Device.SameBinding, Device.ended]

/-- A command's failure leaves the values fixed at bind, the wire buffer, the count and the transcript. -/
theorem Device.cmdFailed_frame (d : Device) :
    d.SameBinding d.cmdFailed ∧ d.cmdFailed.gone = d.gone ∧ d.cmdFailed.wb = d.wb ∧
      d.cmdFailed.convCount = d.convCount ∧ d.cmdFailed.trace = d.trace := by
  obtain ⟨h1, h2, -, h3, h4, h5⟩ := d.flushEnded_frame
  unfold Device.cmdFailed
  split
  · simp [Device.SameBinding]
  · split
    · exact ⟨h1, h2, h3, h4, h5⟩
    · split <;> simp [Device.SameBinding, Device.ended]

/-- A command appends its event and leaves the values fixed at bind, the wire buffer and the count. -/
theorem Device.commanded_frame (p : Params) (i : Instr) (ok : Bool) (d : Device) :
    d.SameBinding (d.commanded p i ok) ∧ (d.commanded p i ok).gone = d.gone ∧ (d.commanded p i ok).wb = d.wb ∧
      (d.commanded p i ok).convCount = d.convCount ∧
      (d.commanded p i ok).trace = d.trace ++ [.cmd (i.lead p.opc) i.operands ok] := by
  unfold Device.commanded
  split
  · simp [Device.SameBinding, Device.log]
  · exact (d.log _).cmdFailed_frame

/-- The sequencer position, where a step gives one. -/
def Device.atStep (d : Device) : Option SeqStep → Device
  | none => d
  | some k => d.setSeq (.at k)

/-- The record of a device after step 1 with answer `r`. -/
def Device.wasReset (p : Params) (fromActive : Bool) (r : ResetResult) (d : Device) : Device :=
  match r with
  | .failed => { d.log (.reset r) with st := .disabled }.ended
  | .retained => d.log (.reset r)
  | .needsInit =>
    ({ d.log (.reset r) with st := if fromActive then .resetOccurred else d.st }).push (initTable p)

/-- What one step can make of a device's record and of the backlight table. -/
inductive Moves (p : Params) : Device → Backlights → Device → Backlights → Prop where
  /-- The record stays: a request that only answers. -/
  | stays (d b) : Moves p d b d b
  | disabled (d b) (hg : d.gone = false) (hj : d.job = none) : Moves p d b { d with st := .disabled } b
  | removed (d b) (hg : d.gone = false) :
      Moves p d b { d with gone := true, st := .disabled } (b.release d.bl)
  | enabled (d b R S) (hg : d.gone = false) (hj : d.job = none) :
      Moves p d b
        { d with
          st := if d.st = .active then .active else .poweringOn
          seq := .at .step1
          job := some ⟨.enable, R, S, false, [], .copy, enableSteps (decide (d.st = .active))⟩ } b
  | updated (d b R S) (hg : d.gone = false) (hj : d.job = none) (hv : R.Valid p d.left d.top) :
      Moves p d b { d with job := some (d.startFlush p ⟨.update, R, S, false, [], .copy, []⟩) } b
  | hostWrote (d b off v) : Moves p d b (d.modJob (·.hostWrite off v)) b
  /-- A request stops after a removal. -/
  | stopped (d b j) (hj : d.job = some j) (hg : d.gone = true) : Moves p d b d.ended b
  /-- A request without steps is over. -/
  | over (d b j) (hj : d.job = some j) (ht : j.todo = []) : Moves p d b d.ended b
  /-- A step that is no step of a request is dropped. -/
  | dropped (d b j pos i rest) (hj : d.job = some j) (ht : j.todo = .cmd pos i :: rest)
      (hi : i.isCommand = false) : Moves p d b { d with job := some { j with todo := rest } } b
  | reset (d b j fa r rest) (hj : d.job = some j) (ht : j.todo = .reset fa :: rest) :
      Moves p d b ({ d with job := some { j with todo := rest } }.wasReset p fa r) b
  | command (d b j pos i ok rest) (hj : d.job = some j) (ht : j.todo = .cmd pos i :: rest)
      (hi : i.isCommand = true) :
      Moves p d b (({ d with job := some { j with todo := rest } }.atStep pos).commanded p i ok) b
  | delay (d b j ms rest) (hj : d.job = some j) (ht : j.todo = .delay ms :: rest) :
      Moves p d b ({ d with job := some { j with todo := rest } }.log (.delay ms)) b
  | addrMode (d b j ok rest) (hj : d.job = some j) (ht : j.todo = .addrMode :: rest) :
      Moves p d b
        (({ d with job := some { j with todo := rest } }.setSeq (.at .step9)).commanded p
          (.madctl (rotByte p d.rot)) ok) b
  | paintGone (d b j rest) (hj : d.job = some j) (ht : j.todo = .paint :: rest) (hg : d.gone = true) :
      Moves p d b ({ d with job := some { j with todo := rest } }.setSeq (.at .step10)).flushEnded b
  | paint (d b j rest) (hj : d.job = some j) (ht : j.todo = .paint :: rest) (hg : d.gone = false)
      (hv : j.region.Valid p d.left d.top) :
      Moves p d b { d with seq := .at .step10, job := some (d.startFlush p { j with todo := rest }) } b
  | unsupported (d b j rest) (hj : d.job = some j) (ht : j.todo = .convert :: rest)
      (hf : bytesPerPixel j.src.fmt = none) :
      Moves p d b ({ d with job := some { j with todo := rest } }.countConversion).flushEnded b
  | converted (d b j rest bytes) (hj : d.job = some j) (ht : j.todo = .convert :: rest)
      (hl : bytes.length ≤ p.wbSize) :
      Moves p d b
        { d with
          job := some { j with todo := rest }
          convCount := d.convCount + 1
          wb := d.wb.writeBlock 0 bytes } b
  | data (d b j rest bytes ok) (hj : d.job = some j) (ht : j.todo = .data :: rest) :
      Moves p d b ({ d with job := some { j with todo := rest } }.log (.data bytes ok)).flushEnded b
  | blOn (d b j rest) (hj : d.job = some j) (ht : j.todo = .blOn :: rest) :
      Moves p d b ({ d with job := some { j with todo := rest } }.log (.blOn d.bl)) (b.enable d.bl)
  | finish (d b j rest) (hj : d.job = some j) (ht : j.todo = .finish :: rest) :
      Moves p d b { d with st := .active }.ended b

/-! ## The operations on the current device -/

/-- From `s` to `t` the current device's record becomes `d`, and parameters, backlights and current device stay. -/
structure Writes (s t : State) (d : Device) : Prop where
  devs : t.devs = s.devs.set s.cur d
  cfg : t.cfg = s.cfg
  blk : t.blk = s.blk
  cur : t.cur = s.cur

theorem Writes.trans {s t u : State} {d e : Device} (h : Writes s t d) (k : Writes t u e) : Writes s u e where
  devs := by rw [k.devs, h.devs, h.cur, List.set_set]
  cfg := k.cfg.trans h.cfg
  blk := k.blk.trans h.blk
  cur := k.cur.trans h.cur

/-- The record is found again where it was written. -/
theorem Writes.dev? {s t : State} {d e : Device} (h : s.dev? = some d) (k : Writes s t e) : t.dev? = some e := by
  obtain ⟨hlt, -⟩ := List.getElem?_eq_some_iff.mp (show s.devs[s.cur]? = some d from h)
  simp [State.dev?, k.devs, k.cur, hlt]

theorem Writes.refl {s : State} {d : Device} (h : s.dev? = some d) : Writes s s d where
  devs := by
    obtain ⟨hlt, rfl⟩ := List.getElem?_eq_some_iff.mp (show s.devs[s.cur]? = some d from h)
    simp
  cfg := rfl
  blk := rfl
  cur := rfl

/-- The draws play no part in what a write is. -/
theorem Writes.of_env {s t : State} {d : Device} (env : Env) (h : Writes { s with env := env } t d) : Writes s t d :=
  ⟨h.devs, h.cfg, h.blk, h.cur⟩

theorem writes_modDev {s : State} {d : Device} (h : s.dev? = some d) (f : Device → Device) :
    Writes s (s.modDev f) (f d) := ⟨State.modDev_devs_set h f, rfl, rfl, rfl⟩

theorem writes_busCmd {s : State} {d : Device} (h : s.dev? = some d) (op : Byte) (ps : List Byte) :
    Writes s (s.busCmd op ps) (d.log (.cmd op ps s.okDraw)) :=
  ⟨State.modDev_devs_set (s := { s with env := _ }) h _, rfl, rfl, rfl⟩

theorem writes_busData {s : State} {d : Device} (h : s.dev? = some d) (bs : List Byte) :
    Writes s (s.busData bs) (d.log (.data bs s.okDraw)) :=
  ⟨State.modDev_devs_set (s := { s with env := _ }) h _, rfl, rfl, rfl⟩

theorem writes_busReset {s : State} {d : Device} (h : s.dev? = some d) :
    Writes s s.busReset (d.log (.reset s.resetDraw)) :=
  ⟨State.modDev_devs_set (s := { s with env := _ }) h _, rfl, rfl, rfl⟩

theorem writes_endRequest {s : State} {d : Device} (h : s.dev? = some d) (c : ResultCode) :
    Writes s (s.endRequest c) d.ended := ⟨State.modDev_devs_set h _, rfl, rfl, rfl⟩

theorem writes_enableFail {s : State} {d : Device} (h : s.dev? = some d) (c : ResultCode) :
    Writes s (s.enableFail c) { d with st := .disabled }.ended :=
  have hw := writes_modDev h fun d => { d with st := .disabled }
  hw.trans (writes_endRequest (hw.dev? h) c)

/-- A flush's end, on the record of the current device. -/
theorem writes_flushEnd {s : State} {d : Device} (h : s.dev? = some d) (c : ResultCode) :
    Writes s (s.flushEnd c) d.flushEnded := by
  unfold State.flushEnd Device.flushEnded
  cases hj : d.job with
  | none => simpa [h, hj] using Writes.refl h
  | some j =>
    cases hr : j.req with
    | update => simpa [h, hj, hr] using writes_endRequest h c
    | enable => simpa [h, hj, hr, Device.modJob] using
        writes_modDev h (·.modJob fun j => { j with flushing := false, raced := [], todo := [.blOn, .finish] })

/-- A burst, on the record of the current device. -/
theorem writes_sendBurst {s : State} {d : Device} (h : s.dev? = some d) (bs : List Byte) :
    Writes s (s.sendBurst bs) (d.log (.data bs s.okDraw)).flushEnded :=
  (writes_busData h bs).trans (writes_flushEnd ((writes_busData h bs).dev? h) _)

/-- A command's failure, on the record of the current device. -/
theorem writes_cmdFailed {s : State} {d : Device} (h : s.dev? = some d) : Writes s s.cmdFailed d.cmdFailed := by
  unfold State.cmdFailed Device.cmdFailed
  cases hj : d.job with
  | none => simpa [h, hj] using Writes.refl h
  | some j =>
    simp only [h, hj]
    split
    · exact writes_flushEnd h _
    · split
      · exact Writes.refl h
      · exact writes_enableFail h _

/-- What a command does when it is issued, on the record of the current device. -/
theorem issue_writes {s t : State} {d : Device} {i : Instr} (h : s.dev? = some d)
    (ht : issue (i.lead s.cfg.opc) i.operands (commandAfter i) s = .next t) :
    Writes s t (d.commanded s.cfg i s.okDraw) := by
  have hb := writes_busCmd h (i.lead s.cfg.opc) i.operands
  simp only [issue, h, Host.Outcome.next.injEq] at ht
  subst ht
  unfold Device.commanded
  cases hok : s.okDraw with
  | true => simpa [hok] using hb.trans (writes_modDev (hb.dev? h) _)
  | false => simpa [hok] using hb.trans (writes_cmdFailed (hb.dev? h))

/-! ## One step of a request -/

/-- What one step can do to the whole state: to the record of one device and the backlight table, to the backlight table
alone, or to bind a device; the parameters stay. -/
inductive StepMoves (s t : State) : Prop where
  | device (n : Nat) (d e : Device) (hn : s.devs[n]? = some d) (hm : Moves s.cfg d s.blk e t.blk)
      (ht : t.devs = s.devs.set n e) (hc : t.cfg = s.cfg)
  | shutdown (hb : t.blk = s.blk.disableAll) (ht : t.devs = s.devs) (hc : t.cfg = s.cfg)
  | platform (hb : t.blk = s.blk) (ht : t.devs = s.devs) (hc : t.cfg = s.cfg)
  | bound (r : Rotation) (left top : Int) (swap hasDc : Bool) (bl : BacklightId)
      (ht : t.devs = s.devs ++ [freshDevice r left top swap hasDc bl]) (hb : t.blk = s.blk.attach bl)
      (hc : t.cfg = s.cfg)

/-- A write of the current device's record, together with a move that makes it, is a move of the whole state. -/
theorem StepMoves.of_writes {s t : State} {d e : Device} (h : s.dev? = some d) (hw : Writes s t e)
    (hm : Moves s.cfg d s.blk e s.blk) : StepMoves s t :=
  .device s.cur d e h (hw.blk ▸ hm) hw.devs hw.cfg

/-- The position of a step, on the record of the current device. -/
theorem writes_atStep {s : State} {d : Device} (h : s.dev? = some d) (pos : Option SeqStep) :
    Writes s (s.atStep pos) (d.atStep pos) := by
  cases pos with
  | none => exact Writes.refl h
  | some k => exact writes_modDev h _

/-- A command as a step of a request. -/
theorem command_writes {s t : State} {d : Device} {i : Instr} (hi : i.isCommand = true) (h : s.dev? = some d)
    (pos : Option SeqStep) (ht : exec i (s.atStep pos) = .next t) :
    ∃ ok, Writes s t ((d.atStep pos).commanded s.cfg i ok) := by
  have hp := writes_atStep h pos
  rw [exec_command hi] at ht
  have hw := issue_writes (hp.dev? h) ht
  rw [hp.cfg] at hw
  exact ⟨_, hp.trans hw⟩

/-- Step 1, on the record of the current device. -/
theorem resetStep_writes {s : State} {d : Device} (h : s.dev? = some d) (fromActive : Bool) :
    Writes s (resetStep fromActive s) (d.wasReset s.cfg fromActive s.resetDraw) := by
  have hb := writes_busReset h
  unfold resetStep Device.wasReset
  cases hr : s.resetDraw with
  | failed => simpa [hr] using hb.trans (writes_enableFail (hb.dev? h) _)
  | retained => simpa [hr] using hb
  | needsInit => simp only [hr] at hb ⊢; exact hb.trans (writes_modDev (hb.dev? h) _)

/-- The engine's next step, on a device whose steps are `todo`. -/
theorem runNext_moves {s t : State} {d : Device} {j : Job} (h : s.dev? = some d) (hj : d.job = some j)
    (ht : runNext j.todo s = .next t) : StepMoves s t := by
  cases htodo : j.todo with
  | nil =>
    simp only [htodo, runNext, Host.Outcome.next.injEq] at ht
    subst ht
    exact .of_writes h (writes_modDev h _) (.over d s.blk j hj htodo)
  | cons m rest =>
    simp only [htodo, runNext] at ht
    have hp : Writes s (s.modDev (·.modJob fun j => { j with todo := rest }))
        { d with job := some { j with todo := rest } } := by
      simpa [Device.modJob, hj] using writes_modDev h (·.modJob fun j => { j with todo := rest })
    have hd := hp.dev? h
    generalize s.modDev (·.modJob fun j => { j with todo := rest }) = s1 at ht hp hd
    have hcfg := hp.cfg
    cases m with
    | reset fa =>
      simp only [runMicro, Host.Outcome.next.injEq] at ht
      subst ht
      have hw := hp.trans (resetStep_writes hd fa)
      rw [hcfg] at hw
      exact .of_writes h hw (.reset d s.blk j fa _ rest hj htodo)
    | cmd pos i =>
      simp only [runMicro] at ht
      split at ht
      · rename_i hi
        obtain ⟨ok, hw⟩ := command_writes hi hd pos ht
        rw [hcfg] at hw
        exact .of_writes h (hp.trans hw) (.command d s.blk j pos i ok rest hj htodo hi)
      · rename_i hi
        simp only [Host.Outcome.next.injEq] at ht
        subst ht
        exact .of_writes h hp (.dropped d s.blk j pos i rest hj htodo (by simpa using hi))
    | delay ms =>
      simp only [runMicro, Host.Outcome.next.injEq] at ht
      subst ht
      exact .of_writes h (hp.trans (writes_modDev hd _)) (.delay d s.blk j ms rest hj htodo)
    | addrMode =>
      simp only [runMicro, addrModeStep, hd] at ht
      obtain ⟨ok, hw⟩ := command_writes (by rfl) hd (some .step9) ht
      rw [hcfg] at hw
      exact .of_writes h (hp.trans hw) (.addrMode d s.blk j ok rest hj htodo)
    | paint =>
      simp only [runMicro, paintStep, hd] at ht
      split at ht
      · rename_i hg
        simp only [Host.Outcome.next.injEq] at ht
        subst ht
        have h1 := writes_modDev hd (·.setSeq (.at .step10))
        exact .of_writes h (hp.trans (h1.trans (writes_flushEnd (h1.dev? hd) _)))
          (.paintGone d s.blk j rest hj htodo hg)
      · rename_i hg
        split at ht
        · rename_i hv
          simp only [Host.Outcome.next.injEq] at ht
          subst ht
          rw [hcfg] at hv ⊢
          exact .of_writes h (hp.trans (writes_modDev hd _))
            (.paint d s.blk j rest hj htodo (by simpa using hg) hv)
        · cases ht
    | convert =>
      simp only [runMicro, convertStep, hd] at ht
      split at ht
      · rename_i hf
        simp only [Host.Outcome.next.injEq] at ht
        subst ht
        have h1 := writes_modDev hd Device.countConversion
        refine .of_writes h (hp.trans (h1.trans (writes_flushEnd (h1.dev? hd) _)))
          (.unsupported d s.blk j rest hj htodo ?_)
        revert hf
        unfold convertRegion
        cases bytesPerPixel j.src.fmt <;> simp
      · rename_i bytes env _
        split at ht
        · cases ht
        · rename_i hl
          simp only [Host.Outcome.next.injEq] at ht
          subst ht
          rw [hcfg] at hl
          exact .of_writes h (hp.trans (.of_env env (writes_modDev (s := { s1 with env := env }) hd fun d =>
            { d.countConversion with wb := d.wb.writeBlock 0 bytes })))
            (.converted d s.blk j rest bytes hj htodo (Nat.le_of_not_lt hl))
    | data =>
      simp only [runMicro, dataStep, hd, Host.Outcome.next.injEq] at ht
      subst ht
      generalize burst s1.cur _ _ s1.env = b
      exact .of_writes h (hp.trans (.of_env b.2 (writes_sendBurst (s := { s1 with env := b.2 }) hd b.1)))
        (.data d s.blk j rest _ _ hj htodo)
    | blOn =>
      simp only [runMicro, State.blEnable, hd, Host.Outcome.next.injEq] at ht
      subst ht
      have h1 := State.modDev_devs_set (s := { s1 with blk := s1.blk.enable d.bl }) hd (·.log (.blOn d.bl))
      have hdevs := h1.trans (by rw [hp.devs, hp.cur, List.set_set] : _ = s.devs.set s.cur _)
      have hblk : s1.blk = s.blk := hp.blk
      refine .device s.cur d _ h ?_ hdevs hcfg
      rw [State.modDev_blk, hblk]
      exact .blOn d s.blk j rest hj htodo
    | finish =>
      simp only [runMicro, finishStep, Host.Outcome.next.injEq] at ht
      subst ht
      have h1 := writes_modDev hd fun d => { d with st := .active }
      exact .of_writes h (hp.trans (h1.trans (writes_endRequest (h1.dev? hd) _)))
        (.finish d s.blk j rest hj htodo)

/-- Where the engine stands, what is drawn and what is still to come play no part in what a step moves. -/
theorem StepMoves.of_frame {s t : State} (c : Nat) (is : List Input) (env : Env)
    (hm : StepMoves { s with cur := c, inputs := is, env := env } t) : StepMoves s t := by
  cases hm with
  | device n d e hn hm ht hc => exact .device n d e hn hm ht hc
  | shutdown hb ht hc => exact .shutdown hb ht hc
  | platform hb ht hc => exact .platform hb ht hc
  | bound r left top swap hasDc bl ht hb hc => exact .bound r left top swap hasDc bl ht hb hc

/-- A step of the engine of device `d` moves that device's record, or nothing. -/
theorem engineStep_moves {s t : State} {d : Nat} (ht : engineStep d s = .next t) : StepMoves s t := by
  unfold engineStep at ht
  cases hd : s.devs[d]? with
  | none =>
    simp only [hd, Host.Outcome.next.injEq] at ht
    subst ht
    exact .platform rfl rfl rfl
  | some D =>
    cases hj : D.job with
    | none =>
      simp only [hd, hj, Host.Outcome.next.injEq] at ht
      subst ht
      exact .platform rfl rfl rfl
    | some j =>
      simp only [hd, hj] at ht
      split at ht
      · rename_i hg
        split at ht
        · exact .of_frame d s.inputs _ (runNext_moves (s := { s with cur := d, env := _ }) hd hj ht)
        · simp only [Host.Outcome.next.injEq] at ht
          subst ht
          exact .of_frame d s.inputs _ (.of_writes (s := { s with cur := d, env := _ }) hd
            (writes_endRequest (s := { s with cur := d, env := _ }) hd _) (.stopped D s.blk j hj hg))
      · exact .of_frame d s.inputs s.env (runNext_moves (s := { s with cur := d }) hd hj ht)

/-! ## One step of the machine -/

/-- A request to a device that answers a next state found the device bound; it answered at once on a removed device, or
found it idle. -/
theorem onDevice_next {s t : State} {k : Device → Host.Outcome State Fault Refusal}
    (ht : onDevice s k = .next t) :
    ∃ d, s.dev? = some d ∧
      ((d.gone = true ∧ t = s.answer .ok) ∨ (d.gone = false ∧ d.job = none ∧ k d = .next t)) := by
  unfold onDevice at ht
  cases hd : s.dev? with
  | none => simp [hd] at ht
  | some d =>
    refine ⟨d, rfl, ?_⟩
    simp only [hd] at ht
    split at ht
    · rename_i hg
      simp only [Host.Outcome.next.injEq] at ht
      exact .inl ⟨hg, ht.symm⟩
    · rename_i hg
      split at ht
      · cases ht
      · rename_i hj
        exact .inr ⟨by simpa using hg, by simpa using hj, ht⟩

/-- A panel command moves the current device's record as its answer says. -/
theorem exec_command_writes {s t : State} {i : Instr} (hi : i.isCommand = true) (ht : exec i s = .next t) :
    ∃ d, s.dev? = some d ∧ Writes s t (d.commanded s.cfg i s.okDraw) := by
  rw [exec_command hi] at ht
  cases hd : s.dev? with
  | none => simp [issue, hd] at ht
  | some d => exact ⟨d, rfl, issue_writes hd ht⟩

/-- A host request moves the record of the device it is addressed to, or the platform. -/
theorem exec_request_moves {s t : State} {i : Instr} (hi : i.isCommand = false) (ht : exec i s = .next t) :
    StepMoves s t := by
  cases i with
  | bind rot left top swap hasDc bl =>
    simp only [exec, execBind, Host.Outcome.next.injEq] at ht
    subst ht
    split
    · split
      · exact .platform rfl rfl rfl
      · exact .bound _ left top swap hasDc bl rfl rfl rfl
    · exact .platform rfl rfl rfl
  | enable region S =>
    obtain ⟨d, hd, ⟨-, rfl⟩ | ⟨hg, hj, hk⟩⟩ := onDevice_next ht
    · exact .platform rfl rfl rfl
    · simp only [Host.Outcome.next.injEq] at hk
      subst hk
      exact .of_writes hd (writes_modDev hd _) (.enabled d s.blk _ S hg hj)
  | update R S =>
    obtain ⟨d, hd, ⟨-, rfl⟩ | ⟨hg, hj, hk⟩⟩ := onDevice_next ht
    · exact .platform rfl rfl rfl
    · split at hk
      · rename_i hv
        simp only [Host.Outcome.next.injEq] at hk
        subst hk
        exact .of_writes hd (writes_modDev hd _) (.updated d s.blk R S hg hj hv)
      · cases hk
  | disable =>
    obtain ⟨d, hd, ⟨-, rfl⟩ | ⟨hg, hj, hk⟩⟩ := onDevice_next ht
    · exact .platform rfl rfl rfl
    · simp only [Host.Outcome.next.injEq] at hk
      subst hk
      have hw := writes_modDev hd fun d => { d with st := .disabled }
      exact .of_writes hd ⟨hw.devs, rfl, rfl, rfl⟩ (.disabled d s.blk hg hj)
  | remove =>
    simp only [exec, execRemove] at ht
    cases hd : s.dev? with
    | none => simp [hd] at ht
    | some d =>
      simp only [hd, Host.Outcome.next.injEq] at ht
      subst ht
      split
      · exact .platform rfl rfl rfl
      · rename_i hg
        have hw := writes_modDev (s := { s with blk := s.blk.release d.bl }) hd fun d =>
          { d with gone := true, st := .disabled }
        exact .device s.cur d _ hd (.removed d s.blk (by simpa using hg)) hw.devs rfl
  | shutdown =>
    simp only [exec, execShutdown, Host.Outcome.next.injEq] at ht
    subst ht
    exact .shutdown rfl rfl rfl
  | _ => simp [Instr.isCommand] at hi

/-- The decoder of requests gives no panel command. -/
theorem decodeRequest_request {bs : List Byte} {i : Instr} (h : decodeRequest bs = .ok i) : i.isCommand = false := by
  cases bs with
  | nil => cases h
  | cons b bs =>
    simp only [decodeRequest, decodeRequestAt] at h
    have done : ∀ {j : Instr} {bs}, finishAt j bs = .ok i → i = j := fun {j bs} h => by
      cases bs with
      | nil => exact (Except.ok.inj h).symm
      | cons _ _ => cases h
    repeat' first
      | split at h
      | cases h
      | (rw [done h]; rfl)
      | (simp only [bind, Except.bind] at h; split at h)

/-- What one step of the machine can do. -/
theorem step_moves {s t : State} (ht : step s = .next t) : StepMoves s t := by
  unfold step move at ht
  split at ht
  · unfold drain at ht
    split at ht
    · simp only [Host.Outcome.next.injEq] at ht
      subst ht
      exact .platform rfl rfl rfl
    · exact engineStep_moves ht
    · exact .of_frame s.cur s.inputs _ (engineStep_moves ht)
  · unfold takeRequest at ht
    split at ht
    · cases ht
    · rename_i i hi
      split at ht
      · exact engineStep_moves ht
      · exact .of_frame _ _ s.env (exec_request_moves (decodeRequest_request hi) ht)
  · exact .of_frame _ _ s.env (exec_request_moves (i := .remove) rfl ht)
  · exact .of_frame s.cur _ s.env (engineStep_moves ht)
  · simp only [Host.Outcome.next.injEq] at ht
    subst ht
    rename_i d off v rest _
    cases hd : s.devs[d]? with
    | none =>
      refine .platform rfl ?_ rfl
      exact List.modify_eq_self (List.getElem?_eq_none_iff.mp hd)
    | some D =>
      refine .device d D _ hd (.hostWrote D s.blk off v) ?_ rfl
      exact State.modDev_devs_set (s := { s with cur := d }) hd _

end Sys2Proof.Machine
end

