-- ==== Sys2Proof/Laws/Memory.lean ====
section
/-! SUPPORT. Sorted tables, memory and the backlight table: what is read after a write, and that every operation keeps
the canonical form. -/

namespace Sys2Proof.Machine

open Sys2Proof

/-! ## Sorted tables -/

/-- A table in rising order of its keys. -/
abbrev Table.Sorted {α : Type} (t : List (Nat × α)) : Prop := (t.map Prod.fst).Pairwise (· < ·)

@[simp] theorem Table.find_insert_same {α : Type} (k : Nat) (v : α) (t : List (Nat × α)) :
    Table.find k (Table.insert k v t) = some v := by
  induction t with
  | nil => simp [Table.insert, Table.find]
  | cons e t ih =>
    obtain ⟨a, w⟩ := e
    simp only [Table.insert]
    split
    · simp [Table.find]
    · split
      · simp [Table.find]
      · rename_i h1 h2
        simp [Table.find, Ne.symm h2, ih]

theorem Table.find_insert_ne {α : Type} {k n : Nat} (h : n ≠ k) (v : α) (t : List (Nat × α)) :
    Table.find n (Table.insert k v t) = Table.find n t := by
  induction t with
  | nil => simp [Table.insert, Table.find, Ne.symm h]
  | cons e t ih =>
    obtain ⟨a, w⟩ := e
    simp only [Table.insert]
    split
    · simp [Table.find, Ne.symm h]
    · split
      · rename_i h1 h2
        simp [Table.find, Ne.symm h, ← h2]
      · simp [Table.find, ih]

@[simp] theorem Table.find_erase_same {α : Type} (k : Nat) (t : List (Nat × α)) :
    Table.find k (Table.erase k t) = none := by
  unfold Table.erase
  induction t with
  | nil => rfl
  | cons e t ih =>
    by_cases h : e.1 = k
    · simp [h, ih]
    · simp [h, Table.find, ih]

theorem Table.find_erase_ne {α : Type} {k n : Nat} (h : n ≠ k) (t : List (Nat × α)) :
    Table.find n (Table.erase k t) = Table.find n t := by
  unfold Table.erase
  induction t with
  | nil => rfl
  | cons e t ih =>
    by_cases hk : e.1 = k
    · have : ¬ e.1 = n := fun hn => h (hn ▸ hk)
      simp [hk, Table.find, ih, Ne.symm h]
    · simp [hk, Table.find, ih]

theorem Table.mem_insert {α : Type} {k : Nat} {v : α} {t : List (Nat × α)} {e : Nat × α}
    (h : e ∈ Table.insert k v t) : e = (k, v) ∨ e ∈ t := by
  induction t with
  | nil => simpa [Table.insert] using h
  | cons a t ih =>
    obtain ⟨a, w⟩ := a
    simp only [Table.insert] at h
    split at h
    · simpa using h
    · split at h
      · rcases List.mem_cons.mp h with h | h
        · exact .inl h
        · exact .inr (List.mem_cons_of_mem _ h)
      · rcases List.mem_cons.mp h with h | h
        · exact .inr (h ▸ List.mem_cons_self)
        · exact (ih h).imp id (List.mem_cons_of_mem _)

theorem Table.sorted_insert {α : Type} (k : Nat) (v : α) {t : List (Nat × α)} (h : Table.Sorted t) :
    Table.Sorted (Table.insert k v t) := by
  induction t with
  | nil => simp [Table.insert, Table.Sorted]
  | cons a t ih =>
    obtain ⟨a, w⟩ := a
    simp only [Table.Sorted, List.map_cons, List.pairwise_cons, List.mem_map] at h ih ⊢
    simp only [Table.insert]
    split
    · rename_i hk
      simp only [List.map_cons, List.pairwise_cons, List.mem_map, List.mem_cons]
      refine ⟨?_, h⟩
      rintro b (rfl | ⟨e, he, rfl⟩)
      · exact hk
      · exact Nat.lt_trans hk (h.1 _ ⟨e, he, rfl⟩)
    · split
      · rename_i hk
        subst hk
        simpa using h
      · rename_i h1 h2
        simp only [List.map_cons, List.pairwise_cons, List.mem_map]
        refine ⟨?_, ih h.2⟩
        rintro b ⟨e, he, rfl⟩
        rcases Table.mem_insert he with rfl | he
        · exact Nat.lt_of_le_of_ne (Nat.le_of_not_lt h1) (Ne.symm h2)
        · exact h.1 _ ⟨e, he, rfl⟩

theorem Table.sorted_filter {α : Type} (f : Nat × α → Bool) {t : List (Nat × α)} (h : Table.Sorted t) :
    Table.Sorted (t.filter f) := h.sublist (List.filter_sublist.map _)

/-! ## Memory -/

@[simp] theorem cells_length (a : Nat) (bs : List Byte) : (cells a bs).length = bs.length := by
  induction bs generalizing a with
  | nil => rfl
  | cons b bs ih => simp [cells, ih]

/-- The cells of a block lie at its addresses. -/
theorem mem_cells {a : Nat} {bs : List Byte} {c : Host.Cell} (h : c ∈ cells a bs) : a ≤ c.1 ∧ c.1 < a + bs.length := by
  induction bs generalizing a with
  | nil => simp [cells] at h
  | cons b bs ih =>
    rcases List.mem_cons.mp h with rfl | h
    · simp
    · have := ih h
      simp only [List.length_cons]
      omega

theorem cells_wf (a : Nat) (bs : List Byte) : Memory.wf (cells a bs) := by
  induction bs generalizing a with
  | nil => simp [cells, Memory.wf]
  | cons b bs ih =>
    simp only [Memory.wf, cells, List.map_cons, List.pairwise_cons, List.mem_map]
    refine ⟨?_, ih _⟩
    rintro n ⟨c, hc, rfl⟩
    exact (mem_cells hc).1

theorem lt_of_mem_takeWhile {m : Memory} {off : Nat} {c : Host.Cell}
    (h : c ∈ m.takeWhile (fun c => decide (c.1 < off))) : c.1 < off := by
  induction m with
  | nil => simp at h
  | cons a m ih =>
    rw [List.takeWhile_cons] at h
    split at h
    · rename_i ha
      rcases List.mem_cons.mp h with rfl | h
      · simpa using ha
      · exact ih h
    · simp at h

theorem le_of_mem_dropWhile {m : Memory} (h : m.wf) {off : Nat} {c : Host.Cell}
    (hc : c ∈ m.dropWhile (fun c => decide (c.1 < off))) : off ≤ c.1 := by
  induction m with
  | nil => simp at hc
  | cons a m ih =>
    simp only [Memory.wf, List.map_cons, List.pairwise_cons, List.mem_map] at h
    rw [List.dropWhile_cons] at hc
    split at hc
    · exact ih h.2 hc
    · rename_i hn
      have ha : off ≤ a.1 := by simpa using hn
      rcases List.mem_cons.mp hc with rfl | hc
      · exact ha
      · exact Nat.le_trans ha (Nat.le_of_lt (h.1 _ ⟨c, hc, rfl⟩))

/-- A block write keeps the canonical form. -/
theorem Memory.writeBlock_wf {m : Memory} (h : m.wf) (off : Nat) (v : List Byte) : (m.writeBlock off v).wf := by
  unfold Memory.wf Memory.writeBlock
  simp only [List.map_append, List.pairwise_append]
  refine ⟨h.sublist ((List.takeWhile_sublist _).map _),
    ⟨cells_wf _ _, h.sublist ((List.dropWhile_sublist _).map _), ?_⟩, ?_⟩
  · rintro a ha b hb
    obtain ⟨c, hc, rfl⟩ := List.mem_map.mp ha
    obtain ⟨e, he, rfl⟩ := List.mem_map.mp hb
    exact Nat.lt_of_lt_of_le (mem_cells hc).2 (le_of_mem_dropWhile h he)
  · rintro a ha b hb
    obtain ⟨c, hc, rfl⟩ := List.mem_map.mp ha
    have h1 := lt_of_mem_takeWhile hc
    rcases List.mem_append.mp hb with hb | hb
    · obtain ⟨e, he, rfl⟩ := List.mem_map.mp hb
      exact Nat.lt_of_lt_of_le h1 (mem_cells he).1
    · obtain ⟨e, he, rfl⟩ := List.mem_map.mp hb
      exact Nat.lt_of_lt_of_le h1 (Nat.le_trans (Nat.le_add_right _ _) (le_of_mem_dropWhile h he))

/-- Every cell after a block write was there before, or lies in the block. -/
theorem Memory.mem_writeBlock {m : Memory} {off : Nat} {v : List Byte} {c : Host.Cell}
    (h : c ∈ m.writeBlock off v) : c ∈ m ∨ (off ≤ c.1 ∧ c.1 < off + v.length) := by
  rcases List.mem_append.mp h with h | h
  · exact .inl ((List.takeWhile_sublist _).mem h)
  · rcases List.mem_append.mp h with h | h
    · exact .inr (mem_cells h)
    · exact .inl ((List.dropWhile_sublist _).mem h)

/-- Reading consecutive addresses that were just written gives what was written. -/
theorem readFrom_cells (u : Nat → Byte) (a : Nat) (bs : List Byte) (m : Memory) :
    Memory.readFrom u bs.length a (cells a bs ++ m) = bs := by
  induction bs generalizing a with
  | nil => rfl
  | cons b bs ih => simp [cells, Memory.readFrom, ih]

/-- Read after write, from the start of the buffer: the bytes of the block, whatever the memory held. -/
theorem Memory.readFrom_writeBlock (u : Nat → Byte) (m : Memory) (v : List Byte) :
    (m.writeBlock 0 v).readFrom u v.length 0 = v := by
  have h : m.takeWhile (fun c => decide (c.1 < 0)) = [] := by
    cases m with
    | nil => rfl
    | cons a m => simp
  rw [Memory.writeBlock, h, List.nil_append, readFrom_cells]

theorem Memory.readFrom_length (u : Nat → Byte) (n a : Nat) (m : Memory) : (m.readFrom u n a).length = n := by
  induction n generalizing a m with
  | zero => rfl
  | succ n ih =>
    cases m with
    | nil => simp [Memory.readFrom, ih]
    | cons c m =>
      obtain ⟨b, v⟩ := c
      simp only [Memory.readFrom]
      split <;> simp [ih]

theorem find_cells (a : Nat) (bs : List Byte) (m : Memory) (n : Nat) :
    Table.find n (cells a bs ++ m) = if a ≤ n ∧ n < a + bs.length then bs[n - a]? else Table.find n m := by
  induction bs generalizing a with
  | nil =>
    have : ¬ (a ≤ n ∧ n < a) := by omega
    simp [cells, this]
  | cons b bs ih =>
    simp only [cells, List.cons_append, Table.find, ih, List.length_cons]
    by_cases h : a = n
    · subst h
      simp
    · by_cases h2 : a + 1 ≤ n ∧ n < a + 1 + bs.length
      · have h3 : n - a = (n - (a + 1)) + 1 := by omega
        have h4 : a ≤ n ∧ n < a + (bs.length + 1) := by omega
        simp [h, h2, h4, h3]
      · have h4 : ¬ (a ≤ n ∧ n < a + (bs.length + 1)) := by omega
        rw [if_neg h, if_neg h2, if_neg h4]

theorem find_takeWhile_append {m x : Memory} {off n : Nat} (h : Table.Sorted m) (hn : off ≤ n) :
    Table.find n (m.takeWhile (fun c => decide (c.1 < off)) ++ x) = Table.find n x := by
  induction m with
  | nil => rfl
  | cons a m ih =>
    simp only [Table.Sorted, List.map_cons, List.pairwise_cons] at h
    rw [List.takeWhile_cons]
    split
    · rename_i hc
      have : ¬ a.1 = n := by
        have : a.1 < off := by simpa using hc
        omega
      simp [Table.find, this, ih h.2]
    · rfl

theorem find_takeWhile {m x : Memory} {off n : Nat} (h : Table.Sorted m) (hn : n < off)
    (hx : ∀ c ∈ x, off ≤ c.1) :
    Table.find n (m.takeWhile (fun c => decide (c.1 < off)) ++ x) = Table.find n m := by
  have hnone : ∀ y : Memory, (∀ c ∈ y, off ≤ c.1) → Table.find n y = none := fun y hy => by
    induction y with
    | nil => rfl
    | cons a y ih =>
      have : ¬ a.1 = n := by
        have := hy a List.mem_cons_self
        omega
      simp [Table.find, this, ih fun c hc => hy c (List.mem_cons_of_mem _ hc)]
  induction m with
  | nil => simpa [Table.find] using hnone x hx
  | cons a m ih =>
    simp only [Table.Sorted, List.map_cons, List.pairwise_cons, List.mem_map] at h
    rw [List.takeWhile_cons]
    split
    · simp [Table.find, ih h.2]
    · rename_i hc
      have ha : off ≤ a.1 := by simpa using hc
      rw [List.nil_append, hnone x hx, hnone]
      intro c hm
      rcases List.mem_cons.mp hm with rfl | hm
      · exact ha
      · exact Nat.le_trans ha (Nat.le_of_lt (h.1 _ ⟨c, hm, rfl⟩))

theorem find_dropWhile {m : Memory} {off n : Nat} (hn : off ≤ n) :
    Table.find n (m.dropWhile (fun c => decide (c.1 < off))) = Table.find n m := by
  induction m with
  | nil => rfl
  | cons a m ih =>
    rw [List.dropWhile_cons]
    split
    · rename_i hc
      have : ¬ a.1 = n := by
        have : a.1 < off := by simpa using hc
        omega
      simp [Table.find, this, ih]
    · rfl

/-- `MemWrite` (R32): the block's addresses read as its bytes, every other address as before. -/
theorem Memory.read_writeBlock {m : Memory} (h : m.wf) (off : Nat) (v : List Byte) (n : Nat) :
    (m.writeBlock off v).read n = if off ≤ n ∧ n < off + v.length then v[n - off]? else m.read n := by
  unfold Memory.read Memory.writeBlock
  by_cases hn : off ≤ n
  · rw [find_takeWhile_append h hn, find_cells]
    split
    · rfl
    · rename_i hr
      rw [find_dropWhile (by omega)]
  · have hr : ¬ (off ≤ n ∧ n < off + v.length) := fun h => hn h.1
    rw [if_neg hr]
    refine find_takeWhile h (by omega) fun c hc => ?_
    rcases List.mem_append.mp hc with hc | hc
    · exact (mem_cells hc).1
    · exact Nat.le_trans (Nat.le_add_right _ _) (le_of_mem_dropWhile h hc)

/-! ## The backlight table -/

@[simp] theorem Backlights.set_rest (b : Backlights) (id : BacklightId) (l : Line) : (b.set id l).rest = b.rest := by
  unfold Backlights.set
  split <;> rfl

/-- `BLK[id]` after it is written. -/
@[simp] theorem Backlights.get_set_same (b : Backlights) (id : BacklightId) (l : Line) : (b.set id l).get id = l := by
  unfold Backlights.set Backlights.get
  split
  · rename_i h
    simp [h]
  · simp

/-- Another line is not changed. -/
theorem Backlights.get_set_ne (b : Backlights) {id n : BacklightId} (h : n ≠ id) (l : Line) :
    (b.set id l).get n = b.get n := by
  unfold Backlights.set Backlights.get
  split
  · simp [Table.find_erase_ne h]
  · simp [Table.find_insert_ne h]

/-- Writing a line keeps the canonical form. -/
theorem Backlights.set_wf {b : Backlights} (h : b.wf) (id : BacklightId) (l : Line) : (b.set id l).wf := by
  unfold Backlights.set
  split
  · exact ⟨Table.sorted_filter _ h.1, fun e he => h.2 e (List.mem_filter.mp he).1⟩
  · rename_i hl
    refine ⟨Table.sorted_insert _ _ h.1, fun e he => ?_⟩
    rcases Table.mem_insert he with rfl | he
    · exact hl
    · exact h.2 e he

/-- Turning every line off keeps the canonical form. -/
theorem Backlights.disableAll_wf {b : Backlights} (h : b.wf) : b.disableAll.wf := by
  refine ⟨Table.sorted_filter _ ?_, fun e he => ?_⟩
  · simpa [Table.Sorted, Function.comp_def] using h.1
  · simpa [Backlights.disableAll] using (List.mem_filter.mp he).2

theorem Table.find_none {α : Type} {t : List (Nat × α)} {k : Nat} (h : ∀ e ∈ t, e.1 ≠ k) : Table.find k t = none := by
  induction t with
  | nil => rfl
  | cons e t ih =>
    have he : ¬ e.1 = k := h e List.mem_cons_self
    simp [Table.find, he, ih fun e he => h e (List.mem_cons_of_mem _ he)]

/-- Every line after SHUTDOWN: off, with the references it had (R128). -/
theorem Backlights.get_disableAll {b : Backlights} (h : b.wf) (id : BacklightId) :
    b.disableAll.get id = ⟨false, (b.get id).refs⟩ := by
  obtain ⟨rest, lines⟩ := b
  have hs := h.1
  clear h
  unfold Backlights.disableAll Backlights.get
  simp only at hs ⊢
  induction lines with
  | nil => rfl
  | cons e t ih =>
    obtain ⟨a, on, refs⟩ := e
    simp only [List.map_cons, List.pairwise_cons, List.mem_map] at hs
    by_cases hid : a = id
    · subst hid
      by_cases hz : refs = 0
      · have hn : Table.find a ((t.map fun e => (e.1, { e.2 with on := false })).filter
            (fun e => e.2 != ⟨false, 0⟩)) = none := by
          refine Table.find_none fun e he => ?_
          obtain ⟨c, hc, rfl⟩ := List.mem_map.mp (List.mem_filter.mp he).1
          exact Nat.ne_of_gt (hs.1 _ ⟨c, hc, rfl⟩)
        simp [hz, hn, Table.find]
      · simp [hz, Table.find]
    · by_cases hz : refs = 0 <;> simp [hz, hid, Table.find, ih hs.2]

end Sys2Proof.Machine
end

