-- ==== Sys2Proof/Laws/PerInstr.lean ====
section
/-! SUPPORT. Statements for all instructions, made one constructor at a time. -/

namespace Sys2Proof.Laws.Counts

open Sys2Proof

/-- The parameter count R47 gives a panel command, none where the count is part of `INIT_PARAMS`, and none for a host
request. -/
def paramCount : Instr → Option Nat
  | .dispoff | .slpout | .noron | .dispon | .ramwr => some 0
  | .pgamctrl _ | .ngamctrl _ => some 15
  | .madctl _ | .colmod _ => some 1
  | .caset _ _ | .paset _ _ => some 4
  | .pwctrl1 _ | .pwctrl2 _ | .vcmpctl _ | .ifmode _ | .frmctr1 _ | .invtr _ | .dfunctr _ | .etmod _ | .adjctrl3 _ => none
  | .bind .. | .enable .. | .update .. | .disable | .remove | .shutdown => none

/-- A well-formed command carries as many parameter bytes as R47 gives it, and a reader knows where it ends (R46). -/
def Statement (i : Instr) : Prop := i.wf = true → ∀ n, paramCount i = some n → i.operands.length = n

theorem bind (rot left top : Int) (swap hasDc : Bool) (bl : BacklightId) : Statement (.bind rot left top swap hasDc bl) := fun _ n hn => by cases hn

theorem enable (region : Option Region) (src : SrcDesc) : Statement (.enable region src) := fun _ n hn => by cases hn

theorem update (region : Region) (src : SrcDesc) : Statement (.update region src) := fun _ n hn => by cases hn

theorem disable : Statement .disable := fun _ n hn => by cases hn

theorem remove : Statement .remove := fun _ n hn => by cases hn

theorem shutdown : Statement .shutdown := fun _ n hn => by cases hn

theorem dispoff : Statement .dispoff := fun _ n hn => by cases hn; rfl

theorem pgamctrl (ps : List Byte) : Statement (.pgamctrl ps) := fun h n hn => by
  cases hn
  show ps.length = 15
  simpa [Instr.wf] using h

theorem ngamctrl (ps : List Byte) : Statement (.ngamctrl ps) := fun h n hn => by
  cases hn
  show ps.length = 15
  simpa [Instr.wf] using h

theorem pwctrl1 (ps : List Byte) : Statement (.pwctrl1 ps) := fun _ n hn => by cases hn

theorem pwctrl2 (ps : List Byte) : Statement (.pwctrl2 ps) := fun _ n hn => by cases hn

theorem vcmpctl (ps : List Byte) : Statement (.vcmpctl ps) := fun _ n hn => by cases hn

theorem madctl (b : Byte) : Statement (.madctl b) := fun _ n hn => by cases hn; rfl

theorem colmod (b : Byte) : Statement (.colmod b) := fun _ n hn => by cases hn; rfl

theorem ifmode (ps : List Byte) : Statement (.ifmode ps) := fun _ n hn => by cases hn

theorem frmctr1 (ps : List Byte) : Statement (.frmctr1 ps) := fun _ n hn => by cases hn

theorem invtr (ps : List Byte) : Statement (.invtr ps) := fun _ n hn => by cases hn

theorem dfunctr (ps : List Byte) : Statement (.dfunctr ps) := fun _ n hn => by cases hn

theorem etmod (ps : List Byte) : Statement (.etmod ps) := fun _ n hn => by cases hn

theorem adjctrl3 (ps : List Byte) : Statement (.adjctrl3 ps) := fun _ n hn => by cases hn

theorem slpout : Statement .slpout := fun _ n hn => by cases hn; rfl

theorem noron : Statement .noron := fun _ n hn => by cases hn; rfl

theorem dispon : Statement .dispon := fun _ n hn => by cases hn; rfl

theorem caset (xs xe : Half) : Statement (.caset xs xe) := fun _ n hn => by cases hn; rfl

theorem paset (ys ye : Half) : Statement (.paset ys ye) := fun _ n hn => by cases hn; rfl

theorem ramwr : Statement .ramwr := fun _ n hn => by cases hn; rfl

end Sys2Proof.Laws.Counts
end

