-- ==== Sys2Proof/Laws/Source.lean ====
section
/-! SUPPORT. What the source reads and the converter can do: how many bytes they give, and what they give from mapped
bytes that nobody writes; and what a window coordinate that fits is encoded as. -/

namespace Sys2Proof.Machine

open Sys2Proof

/-! ## Source reads -/

/-- A read gives as many bytes as it is asked for. -/
@[simp] theorem readBytes_length (raced : List (Nat × Byte)) (n off : Nat) (rest : List Byte) (e : Env) :
    (readBytes raced n off rest e).1.length = n := by
  induction n generalizing off rest e with
  | zero => rfl
  | succ n ih => simp [readBytes, ih]

/-- Mapped bytes that nobody writes are read as they are, and nothing is drawn. -/
theorem readBytes_mapped {n : Nat} {rest : List Byte} (h : n ≤ rest.length) (off : Nat) (e : Env) :
    readBytes [] n off rest e = (rest.take n, e) := by
  induction n generalizing off rest with
  | zero => rfl
  | succ n ih =>
    cases rest with
    | nil => simp at h
    | cons b rest => simp [readBytes, readByte, racedAt, ih (Nat.le_of_succ_le_succ h)]

@[simp] theorem memRead_length (S : SrcDesc) (raced : List (Nat × Byte)) (off n : Nat) (e : Env) :
    (memRead S raced off n e).1.length = n := readBytes_length ..

/-- A read of mapped bytes that nobody writes (R27). -/
theorem memRead_mapped {S : SrcDesc} {off n : Nat} (h : n ≤ S.len - off) (e : Env) :
    memRead S [] off n e = ((S.bytes.drop off).take n, e) :=
  readBytes_mapped (by rw [List.length_drop]; exact h) off e

/-- A read draws only source bytes and choices between raced values. -/
theorem readBytes_env (raced : List (Nat × Byte)) (n off : Nat) (rest : List Byte) (e : Env) :
    ∃ byte pick, (readBytes raced n off rest e).2 = { e with byte := byte, pick := pick } := by
  induction n generalizing off rest e with
  | zero => exact ⟨e.byte, e.pick, rfl⟩
  | succ n ih =>
    obtain ⟨b1, p1, h1⟩ : ∃ byte pick, (readByte raced off rest.head? e).2 = { e with byte := byte, pick := pick } := by
      unfold readByte
      split
      · exact ⟨_, e.pick, rfl⟩
      · split
        · exact ⟨e.byte, e.pick, rfl⟩
        · exact ⟨e.byte, _, rfl⟩
    obtain ⟨b2, p2, h2⟩ := ih (off + 1) rest.tail (readByte raced off rest.head? e).2
    exact ⟨b2, p2, by simp only [readBytes]; rw [h2, h1]⟩

/-- What a read gives depends on the draws of source bytes and of choices alone. -/
theorem readBytes_congr (raced : List (Nat × Byte)) (n off : Nat) (rest : List Byte) {e f : Env}
    (hb : e.byte = f.byte) (hp : e.pick = f.pick) :
    (readBytes raced n off rest e).1 = (readBytes raced n off rest f).1 ∧
      (readBytes raced n off rest e).2.byte = (readBytes raced n off rest f).2.byte ∧
        (readBytes raced n off rest e).2.pick = (readBytes raced n off rest f).2.pick := by
  induction n generalizing off rest e f with
  | zero => exact ⟨rfl, hb, hp⟩
  | succ n ih =>
    have h1 : (readByte raced off rest.head? e).1 = (readByte raced off rest.head? f).1 ∧
        (readByte raced off rest.head? e).2.byte = (readByte raced off rest.head? f).2.byte ∧
          (readByte raced off rest.head? e).2.pick = (readByte raced off rest.head? f).2.pick := by
      unfold readByte
      split
      · simp [hb, hp]
      · split <;> simp [hb, hp]
    obtain ⟨h2, h3, h4⟩ := ih (off + 1) rest.tail h1.2.1 h1.2.2
    exact ⟨by simp only [readBytes, h1.1, h2], h3, h4⟩

/-! ## Rows and regions -/

/-- The wire pixel of four XRGB8888 bytes is the third, the second and the first; the top byte is dropped (R29, R67). -/
theorem wire8888_word8888 (b0 b1 b2 b3 : Byte) : wire8888 (word8888 b0 b1 b2 b3) = [b2, b1, b0] := by
  simp only [wire8888, word8888, List.cons.injEq, and_true]
  refine ⟨?_, ?_, ?_⟩ <;> apply BitVec.eq_of_getLsbD_eq <;> intro i hi <;>
    rw [BitVec.getLsbD_extractLsb'] <;> simp only [BitVec.getLsbD_append, hi, decide_true, Bool.true_and]
  · rw [if_pos (by omega), if_neg (by omega)]; congr 1; omega
  · rw [if_pos (by omega), if_pos (by omega), if_neg (by omega)]; congr 1; omega
  · rw [if_pos (by omega), if_pos (by omega), if_pos (by omega)]; congr 1; omega

/-- Two source bytes give three wire bytes (R53, R58). -/
theorem wireRow565_length (x : Expand565) (swap : Bool) (w : Nat) {bs : List Byte} (h : bs.length = w * 2) :
    (wireRow565 x swap bs).length = 3 * w := by
  induction w generalizing bs with
  | zero =>
    obtain rfl : bs = [] := List.eq_nil_of_length_eq_zero (by simpa using h)
    rfl
  | succ w ih =>
    match bs, h with
    | b0 :: b1 :: rest, h =>
      have := ih (bs := rest) (by simp only [List.length_cons] at h; omega)
      simp [wireRow565, wire565, this]
      omega
    | [_], h => simp at h; omega
    | [], h => simp at h

/-- Four source bytes give three wire bytes (R53, R58). -/
theorem wireRow8888_length (w : Nat) {bs : List Byte} (h : bs.length = w * 4) :
    (wireRow8888 bs).length = 3 * w := by
  induction w generalizing bs with
  | zero =>
    obtain rfl : bs = [] := List.eq_nil_of_length_eq_zero (by simpa using h)
    rfl
  | succ w ih =>
    match bs, h with
    | b0 :: b1 :: b2 :: b3 :: rest, h =>
      have := ih (bs := rest) (by simp only [List.length_cons] at h; omega)
      simp [wireRow8888, wire8888, this]
      omega
    | [_, _, _], h => simp at h; omega
    | [_, _], h => simp at h; omega
    | [_], h => simp at h; omega
    | [], h => simp at h

/-- A row of `w` pixels gives `3*w` wire bytes. -/
theorem wireRow_length (x : Expand565) {fmt : PixelFormat} (swap : Bool) {bpp : Nat}
    (hf : bytesPerPixel fmt = some bpp) (w : Nat) {bs : List Byte} (h : bs.length = w * bpp) :
    (wireRow x fmt swap bs).length = 3 * w := by
  cases fmt with
  | rgb565 => cases hf; exact wireRow565_length x swap w h
  | xrgb8888 => cases hf; exact wireRow8888_length w h
  | other k => cases hf

/-- `h` rows of `w` pixels give `3*w*h` wire bytes (R53). -/
theorem convertRows_length (x : Expand565) (S : SrcDesc) (raced : List (Nat × Byte)) (swap : Bool) {bpp : Nat}
    (hf : bytesPerPixel S.fmt = some bpp) (x1 w h y : Nat) (e : Env) :
    (convertRows x S raced swap bpp x1 w h y e).1.length = 3 * (w * h) := by
  induction h generalizing y e with
  | zero => rfl
  | succ h ih =>
    simp only [convertRows, List.length_append, ih]
    rw [wireRow_length x swap hf w (memRead_length ..), Nat.mul_succ]
    omega

/-- A conversion gives the bytes of the region's burst (R53, R57). -/
theorem convertRegion_length {x : Expand565} {S : SrcDesc} {raced : List (Nat × Byte)} {R : Region} {swap : Bool}
    {e env : Env} {bytes : List Byte} (h : convertRegion x S raced R swap e = some (bytes, env)) :
    bytes.length = R.burstLen := by
  unfold convertRegion at h
  cases hf : bytesPerPixel S.fmt with
  | none => simp [hf] at h
  | some bpp =>
    simp only [hf, Option.some.injEq] at h
    rw [← (Prod.mk.inj h).1, convertRows_length x S raced swap hf]
    rfl

/-- A conversion has a result exactly for a supported format (R57, R61). -/
theorem convertRegion_isSome (x : Expand565) (S : SrcDesc) (raced : List (Nat × Byte)) (R : Region) (swap : Bool)
    (e : Env) : (convertRegion x S raced R swap e).isSome = (bytesPerPixel S.fmt).isSome := by
  unfold convertRegion
  cases bytesPerPixel S.fmt <;> rfl

/-- A conversion draws only source bytes and choices between raced values. -/
theorem convertRows_env (x : Expand565) (S : SrcDesc) (raced : List (Nat × Byte)) (swap : Bool)
    (bpp x1 w h y : Nat) (e : Env) :
    ∃ byte pick, (convertRows x S raced swap bpp x1 w h y e).2 = { e with byte := byte, pick := pick } := by
  induction h generalizing y e with
  | zero => exact ⟨e.byte, e.pick, rfl⟩
  | succ h ih =>
    obtain ⟨b1, p1, h1⟩ := readBytes_env raced (w * bpp) (srcOff S bpp x1 y) (S.bytes.drop (srcOff S bpp x1 y)) e
    obtain ⟨b2, p2, h2⟩ := ih (y + 1) (memRead S raced (srcOff S bpp x1 y) (w * bpp) e).2
    refine ⟨b2, p2, ?_⟩
    simp only [convertRows]
    rw [h2]
    unfold memRead
    rw [h1]

/-- What a conversion gives depends on the draws of source bytes and of choices alone. -/
theorem convertRows_congr (x : Expand565) (S : SrcDesc) (raced : List (Nat × Byte)) (swap : Bool)
    (bpp x1 w h y : Nat) {e f : Env} (hb : e.byte = f.byte) (hp : e.pick = f.pick) :
    (convertRows x S raced swap bpp x1 w h y e).1 = (convertRows x S raced swap bpp x1 w h y f).1 := by
  induction h generalizing y e f with
  | zero => rfl
  | succ h ih =>
    obtain ⟨h1, h2, h3⟩ := readBytes_congr raced (w * bpp) (srcOff S bpp x1 y) (S.bytes.drop (srcOff S bpp x1 y)) hb hp
    simp only [convertRows, memRead, h1, ih (y + 1) h2 h3]

/-! ## Window coordinates -/

/-- A coordinate that fits a `u16` is encoded as itself (R71). -/
theorem coordinate_toNat {z : Int} (h : 0 ≤ z) (h' : z < 65536) : ((coordinate z).toNat : Int) = z := by
  rw [coordinate, if_pos ⟨h, h'⟩, BitVec.toNat_ofInt]
  omega

/-! ## Valid regions -/

/-- A valid region's burst fits the wire buffer (R32). -/
theorem burstLen_le_of_valid {p : Params} {left top : Int} {R : Region} (h : R.Valid p left top) :
    R.burstLen ≤ p.wbSize := by
  obtain ⟨⟨hx0, hx1, hx2⟩, ⟨hy0, hy1, hy2⟩, -, -⟩ := h
  unfold Region.burstLen Params.wbSize Region.width Region.height
  rw [Nat.mul_comm]
  exact Nat.mul_le_mul (Nat.mul_le_mul (by omega) (by omega)) (Nat.le_refl _)

end Sys2Proof.Machine
end

