-- ==== Sys2Proof/Laws/Turn.lean ====
section
/-! SUPPORT. What one turn of an engine on a bound, not removed device does, one lemma for each kind of step, and how
turns are put together to runs. -/

namespace Sys2Proof.Machine

open Sys2Proof

/-- After `k` steps from `s` the machine stands at `t`: the record of device `n` became `e`, the inputs are `rest`, and
parameters, backlights and returned codes are those of `s`. -/
structure Ran (k : Nat) (s t : State) (n : Nat) (rest : List Input) (e : Device) : Prop where
  run : runSteps k s = .next t
  devs : t.devs = s.devs.set n e
  inputs : t.inputs = rest
  cfg : t.cfg = s.cfg
  blk : t.blk = s.blk
  returns : t.returns = s.returns

/-- Steps after steps. -/
theorem runSteps_add {k m : Nat} {s t : State} (h : runSteps k s = .next t) : runSteps (k + m) s = runSteps m t := by
  induction k generalizing s with
  | zero => cases h; rw [Nat.zero_add]
  | succ k ih =>
    rw [Nat.succ_add]
    cases hs : step s with
    | next u => simp only [runSteps, hs] at h ⊢; exact ih h
    | fault f => simp [runSteps, hs] at h
    | refused r => simp [runSteps, hs] at h

theorem runSteps_one {s t : State} (h : step s = .next t) : runSteps 1 s = .next t := by
  simp only [runSteps, h]

/-- Runs one after the other. -/
theorem Ran.trans {k m n : Nat} {s t u : State} {r r' : List Input} {e e' : Device} (h : Ran k s t n r e)
    (h' : Ran m t u n r' e') : Ran (k + m) s u n r' e' where
  run := (runSteps_add h.run).trans h'.run
  devs := by rw [h'.devs, h.devs, List.set_set]
  inputs := h'.inputs
  cfg := h'.cfg.trans h.cfg
  blk := h'.blk.trans h.blk
  returns := h'.returns.trans h.returns

/-- A run of no step, on a device that is bound. -/
theorem Ran.refl {n : Nat} {s : State} {d : Device} (hn : s.devs[n]? = some d) : Ran 0 s s n s.inputs d where
  run := rfl
  devs := by
    obtain ⟨hlt, rfl⟩ := List.getElem?_eq_some_iff.mp hn
    simp
  inputs := rfl
  cfg := rfl
  blk := rfl
  returns := rfl

/-- The record is found again after a run. -/
theorem Ran.get {k n : Nat} {s t : State} {r : List Input} {d e : Device} (hn : s.devs[n]? = some d)
    (h : Ran k s t n r e) : t.devs[n]? = some e := by
  obtain ⟨hlt, -⟩ := List.getElem?_eq_some_iff.mp hn
  simp [h.devs, hlt]

/-! ## One turn -/

/-- The state a turn's step runs in: the step is taken off the request. -/
def State.taken (s : State) (n : Nat) (rest : List Input) (d : Device) (j : Job) (more : List Micro) : State :=
  { s with cur := n, inputs := rest, devs := s.devs.set n { d with job := some { j with todo := more } } }

/-- A turn of an engine that runs a request on a device that is not removed takes its next step. -/
theorem turn_takes {s : State} {n : Nat} {rest : List Input} {d : Device} {j : Job} {m : Micro} {more : List Micro}
    (hi : s.inputs = .turn n :: rest) (hn : s.devs[n]? = some d) (hg : d.gone = false) (hj : d.job = some j)
    (ht : j.todo = m :: more) : step s = runMicro m (s.taken n rest d j more) := by
  have hd : State.dev? { s with cur := n, inputs := rest } = some d := hn
  have hm := State.modDev_devs_set hd (·.modJob fun j => { j with todo := more })
  simp only [Device.modJob, hj, Option.map_some] at hm
  simp only [step, move, hi, engineStep, hn, hj, hg, ht, runNext, Bool.false_eq_true, if_false]
  congr 1
  simp only [State.modDev, Device.modJob, State.taken] at hm ⊢
  rw [hm]

/-- The current device of that state. -/
theorem taken_dev {s : State} {n : Nat} {d : Device} (hn : s.devs[n]? = some d) (rest : List Input) (j : Job)
    (more : List Micro) : (s.taken n rest d j more).dev? = some { d with job := some { j with todo := more } } := by
  obtain ⟨hlt, -⟩ := List.getElem?_eq_some_iff.mp hn
  simp [State.dev?, State.taken, hlt]

/-- What a step writes from there is what the turn leaves. -/
theorem ran_of_writes {s t : State} {n : Nat} {rest : List Input} {d : Device} {j : Job} {more : List Micro}
    {e : Device} (hs : step s = .next t) (hw : Writes (s.taken n rest d j more) t e) (hin : t.inputs = rest)
    (hret : t.returns = s.returns) : Ran 1 s t n rest e where
  run := runSteps_one hs
  devs := by rw [hw.devs]; simp [State.taken]
  inputs := hin
  cfg := hw.cfg
  blk := hw.blk
  returns := hret

/-- What a burst reads draws only source bytes and choices between raced values. -/
theorem burst_env (n : Nat) (d : Device) (j : Job) (e : Env) :
    ∃ byte pick, (burst n d j e).2 = { e with byte := byte, pick := pick } := by
  unfold burst
  split
  · exact readBytes_env ..
  · exact ⟨e.byte, e.pick, rfl⟩

section
variable {s : State} {n : Nat} {rest : List Input} {d : Device} {j : Job} {more : List Micro}

/-- A command answered true, at the position of its step. -/
theorem exec_at_step {u : State} {e : Device} (hd : u.dev? = some e) (pos : Option SeqStep) {i : Instr}
    (hc : i.isCommand = true) (hok : u.okDraw = true) :
    ∃ t, exec i (u.atStep pos) = .next t ∧ t.env = { u.env with ok := u.env.ok.next } ∧ t.inputs = u.inputs ∧
      t.returns = u.returns ∧
      Writes u t
        (Device.push
          { e with
            seq := (pos.map SeqPos.at).getD e.seq
            trace := e.trace ++ [Event.cmd (i.lead u.cfg.opc) i.operands true] } (commandAfter i)) := by
  have hp := writes_atStep hd pos
  have hokp : (u.atStep pos).okDraw = true := by cases pos <;> exact hok
  have hcfg : (u.atStep pos).cfg = u.cfg := hp.cfg
  have hb := writes_busCmd (hp.dev? hd) (i.lead u.cfg.opc) i.operands
  have hw := hp.trans (hb.trans (writes_modDev (hb.dev? (hp.dev? hd)) (·.push (commandAfter i))))
  rw [exec_command hc, hcfg]
  simp only [issue, hp.dev? hd, hokp, if_true]
  refine ⟨_, rfl, by cases pos <;> rfl, by cases pos <;> rfl, by cases pos <;> rfl, ?_⟩
  cases pos <;> simpa [Device.log, Device.atStep, Device.setSeq, hokp] using hw

/-- A command answered true. -/
theorem turn_cmd {pos : Option SeqStep} {i : Instr} (hi : s.inputs = .turn n :: rest) (hn : s.devs[n]? = some d)
    (hg : d.gone = false) (hj : d.job = some j) (ht : j.todo = .cmd pos i :: more) (hc : i.isCommand = true)
    (hok : s.okDraw = true) :
    ∃ t, t.env = { s.env with ok := s.env.ok.next } ∧
      Ran 1 s t n rest
        { d with
          seq := (pos.map SeqPos.at).getD d.seq
          trace := d.trace ++ [.cmd (i.lead s.cfg.opc) i.operands true]
          job := some { j with todo := commandAfter i ++ more } } := by
  have hs := turn_takes hi hn hg hj ht
  obtain ⟨t, hx, he, hin, hret, hw⟩ := exec_at_step (taken_dev hn rest j more) pos hc (by exact hok)
  simp only [runMicro, hc, if_true, hx] at hs
  exact ⟨t, he, ran_of_writes hs hw hin hret⟩

/-- A delay. -/
theorem turn_delay {ms : Nat} (hi : s.inputs = .turn n :: rest) (hn : s.devs[n]? = some d) (hg : d.gone = false)
    (hj : d.job = some j) (ht : j.todo = .delay ms :: more) :
    ∃ t, t.env = s.env ∧
      Ran 1 s t n rest { d with trace := d.trace ++ [.delay ms], job := some { j with todo := more } } := by
  have hs := turn_takes hi hn hg hj ht
  have hw := writes_modDev (taken_dev hn rest j more) (·.log (.delay ms))
  exact ⟨(s.taken n rest d j more).delay ms, rfl, ran_of_writes hs hw rfl rfl⟩

/-- Step 1 answered retained. -/
theorem turn_reset_retained {fa : Bool} (hi : s.inputs = .turn n :: rest) (hn : s.devs[n]? = some d)
    (hg : d.gone = false) (hj : d.job = some j) (ht : j.todo = .reset fa :: more) (hr : s.resetDraw = .retained) :
    ∃ t, t.env = { s.env with reset := s.env.reset.next } ∧
      Ran 1 s t n rest { d with trace := d.trace ++ [.reset .retained], job := some { j with todo := more } } := by
  have hs := turn_takes hi hn hg hj ht
  have hrr : (s.taken n rest d j more).resetDraw = .retained := hr
  have hw := resetStep_writes (taken_dev hn rest j more) fa
  simp only [runMicro, resetStep, hrr] at hs hw
  exact ⟨_, by rfl, ran_of_writes hs hw rfl rfl⟩

/-- Step 1 answered needs_init: steps 2 to 8 come next (R93). -/
theorem turn_reset_needsInit {fa : Bool} (hi : s.inputs = .turn n :: rest) (hn : s.devs[n]? = some d)
    (hg : d.gone = false) (hj : d.job = some j) (ht : j.todo = .reset fa :: more) (hr : s.resetDraw = .needsInit) :
    ∃ t, t.env = { s.env with reset := s.env.reset.next } ∧
      Ran 1 s t n rest
        { d with
          st := if fa then .resetOccurred else d.st
          trace := d.trace ++ [.reset .needsInit]
          job := some { j with todo := initTable s.cfg ++ more } } := by
  have hs := turn_takes hi hn hg hj ht
  have hrr : (s.taken n rest d j more).resetDraw = .needsInit := hr
  have hw := resetStep_writes (taken_dev hn rest j more) fa
  simp only [runMicro, resetStep, hrr] at hs hw
  exact ⟨_, by rfl, ran_of_writes hs hw rfl rfl⟩

/-- Step 9 answered true. -/
theorem turn_addrMode (hi : s.inputs = .turn n :: rest) (hn : s.devs[n]? = some d) (hg : d.gone = false)
    (hj : d.job = some j) (ht : j.todo = .addrMode :: more) (hok : s.okDraw = true) :
    ∃ t, t.env = { s.env with ok := s.env.ok.next } ∧
      Ran 1 s t n rest
        { d with
          seq := .at .step9
          trace := d.trace ++ [.cmd s.cfg.opc.madctl [rotByte s.cfg d.rot] true]
          job := some { j with todo := more } } := by
  have hs := turn_takes hi hn hg hj ht
  have hd := taken_dev hn rest j more
  obtain ⟨t, hx, he, hin, hret, hw⟩ :=
    exec_at_step hd (some .step9) (i := .madctl (rotByte s.cfg d.rot)) rfl (by exact hok)
  simp only [runMicro, addrModeStep, hd] at hs
  exact ⟨t, he, ran_of_writes (hs.trans hx) hw hin hret⟩

/-- Step 10 begins on a valid region. -/
theorem turn_paint (hi : s.inputs = .turn n :: rest) (hn : s.devs[n]? = some d) (hg : d.gone = false)
    (hj : d.job = some j) (ht : j.todo = .paint :: more) (hv : j.region.Valid s.cfg d.left d.top) :
    ∃ t, t.env = s.env ∧
      Ran 1 s t n rest
        { d with seq := .at .step10, job := some (d.startFlush s.cfg { j with todo := more }) } := by
  have hs := turn_takes hi hn hg hj ht
  have hd := taken_dev hn rest j more
  have hv' : j.region.Valid (s.taken n rest d j more).cfg d.left d.top := hv
  simp only [runMicro, paintStep, hd, hg, Bool.false_eq_true, if_false] at hs
  rw [if_pos hv'] at hs
  exact ⟨_, by rfl, ran_of_writes hs (writes_modDev hd _) rfl rfl⟩

/-- A conversion of a valid region from a supported format. -/
theorem turn_convert {bytes : List Byte} {env : Env} (hi : s.inputs = .turn n :: rest) (hn : s.devs[n]? = some d)
    (hg : d.gone = false) (hj : d.job = some j) (ht : j.todo = .convert :: more)
    (hv : j.region.Valid s.cfg d.left d.top)
    (hc : convertRegion s.cfg.expand j.src j.raced j.region d.swap s.env = some (bytes, env)) :
    ∃ t, t.env = env ∧
      Ran 1 s t n rest
        { d with
          wb := d.wb.writeBlock 0 bytes
          convCount := d.convCount + 1
          job := some { j with todo := more } } := by
  have hs := turn_takes hi hn hg hj ht
  have hd := taken_dev hn rest j more
  have hlen := Nat.le_trans (Nat.le_of_eq (convertRegion_length hc)) (burstLen_le_of_valid hv)
  have hc' : convertRegion (s.taken n rest d j more).cfg.expand j.src j.raced j.region d.swap
      (s.taken n rest d j more).env = some (bytes, env) := hc
  have hl' : ¬ (s.taken n rest d j more).cfg.wbSize < bytes.length := Nat.not_lt.mpr hlen
  simp only [runMicro, convertStep, hd, hc', hl', if_false] at hs
  exact ⟨_, by rfl, ran_of_writes hs (.of_env env (writes_modDev (s := { s.taken n rest d j more with env := env }) hd _))
    rfl rfl⟩

/-- The burst of an UPDATE, answered true, ends it (R87). -/
theorem turn_data_update (hi : s.inputs = .turn n :: rest) (hn : s.devs[n]? = some d)
    (hg : d.gone = false) (hj : d.job = some j) (ht : j.todo = .data :: more) (hr : j.req = .update)
    (hok : s.okDraw = true) :
    ∃ t, step s = .next t ∧ t.inputs = rest ∧ t.cfg = s.cfg ∧ t.blk = s.blk ∧
      (∃ byte pick, t.env = { s.env with ok := s.env.ok.next, byte := byte, pick := pick }) ∧
      t.returns = s.returns ++ [⟨some n, .ok⟩] ∧
      t.devs = s.devs.set n
        { d with
          seq := .idle
          job := none
          trace := d.trace ++ [.data (burst n d { j with todo := more } s.env).1 true] } := by
  have hs := turn_takes hi hn hg hj ht
  have hd := taken_dev hn rest j more
  obtain ⟨byte, pick, he⟩ := burst_env n d { j with todo := more } s.env
  simp only [runMicro, dataStep, hd] at hs
  generalize hb : burst (s.taken n rest d j more).cur _ _ (s.taken n rest d j more).env = b at hs
  have hb' : b = burst n d { j with todo := more } s.env := by rw [← hb]; rfl
  generalize hu : ({ s.taken n rest d j more with env := b.2 } : State) = u at hs
  have hud : u.dev? = some { d with job := some { j with todo := more } } := by rw [← hu]; exact hd
  have huok : u.okDraw = true := by rw [← hu, hb', State.okDraw, he]; exact hok
  have hbd := (writes_busData hud b.1).dev? hud
  have hsend : u.sendBurst b.1 = (u.busData b.1).endRequest .ok := by
    simp only [State.sendBurst, State.flushEnd, hbd, Option.bind_some, Device.log, hr, huok, if_true]
  rw [hsend] at hs
  have hw := (writes_busData hud b.1).trans (writes_endRequest hbd .ok)
  refine ⟨_, hs, ?_, ?_, ?_, ?_, ?_, ?_⟩
  · rw [← hu]; rfl
  · rw [← hu]; rfl
  · rw [← hu]; rfl
  · refine ⟨byte, pick, ?_⟩
    rw [← hu, hb']
    simp [he]
  · rw [← hu]; rfl
  · rw [hw.devs, huok, ← hb', ← hu]
    simp [Device.ended, Device.log, State.taken]

/-- The burst of ENABLE's paint, answered true: the backlight comes next (R118). -/
theorem turn_data_enable (hi : s.inputs = .turn n :: rest) (hn : s.devs[n]? = some d)
    (hg : d.gone = false) (hj : d.job = some j) (ht : j.todo = .data :: more) (hr : j.req = .enable)
    (hok : s.okDraw = true) :
    ∃ t, (∃ byte pick, t.env = { s.env with ok := s.env.ok.next, byte := byte, pick := pick }) ∧
      Ran 1 s t n rest
        { d with
          trace := d.trace ++ [.data (burst n d { j with todo := more } s.env).1 true]
          job := some { j with flushing := false, raced := [], todo := [.blOn, .finish] } } := by
  have hs := turn_takes hi hn hg hj ht
  have hd := taken_dev hn rest j more
  obtain ⟨byte, pick, he⟩ := burst_env n d { j with todo := more } s.env
  simp only [runMicro, dataStep, hd] at hs
  generalize hb : burst (s.taken n rest d j more).cur _ _ (s.taken n rest d j more).env = b at hs
  have hb' : b = burst n d { j with todo := more } s.env := by rw [← hb]; rfl
  have hud : State.dev? { s.taken n rest d j more with env := b.2 } =
      some { d with job := some { j with todo := more } } := hd
  have huok : State.okDraw { s.taken n rest d j more with env := b.2 } = true := by
    rw [hb', State.okDraw, he]; exact hok
  have hbd := (writes_busData hud b.1).dev? hud
  have hw := writes_sendBurst hud b.1
  rw [State.sendBurst, State.flushEnd, hbd] at hs
  simp only [Option.bind_some, Device.log, hr] at hs
  refine ⟨_, ⟨byte, pick, ?_⟩, ran_of_writes (j := j) (d := d) (more := more) hs (.of_env b.2 ?_) rfl rfl⟩
  · rw [hb']; simp [he]
  · rw [State.sendBurst, State.flushEnd, hbd] at hw
    rw [← hb']
    simpa only [Option.bind_some, Device.log, hr, huok, Device.flushEnded] using hw

/-- The backlight step: the line is on, and its event is appended (R118, R146). -/
theorem turn_blOn (hi : s.inputs = .turn n :: rest) (hn : s.devs[n]? = some d) (hg : d.gone = false)
    (hj : d.job = some j) (ht : j.todo = .blOn :: more) :
    ∃ t, step s = .next t ∧ t.inputs = rest ∧ t.cfg = s.cfg ∧ t.blk = s.blk.enable d.bl ∧ t.env = s.env ∧
      t.returns = s.returns ∧
      t.devs = s.devs.set n { d with trace := d.trace ++ [.blOn d.bl], job := some { j with todo := more } } := by
  have hs := turn_takes hi hn hg hj ht
  have hd := taken_dev hn rest j more
  simp only [runMicro, State.blEnable, hd] at hs
  refine ⟨_, hs, rfl, rfl, rfl, rfl, rfl, ?_⟩
  have hm := State.modDev_devs_set (s := { s.taken n rest d j more with blk := s.blk.enable d.bl }) hd
    (·.log (.blOn d.bl))
  refine hm.trans ?_
  simp [State.taken, Device.log]

/-- ENABLE completes: Active, Idle, OK (R120). -/
theorem turn_finish (hi : s.inputs = .turn n :: rest) (hn : s.devs[n]? = some d) (hg : d.gone = false)
    (hj : d.job = some j) (ht : j.todo = .finish :: more) :
    ∃ t, step s = .next t ∧ t.inputs = rest ∧ t.cfg = s.cfg ∧ t.blk = s.blk ∧ t.env = s.env ∧
      t.returns = s.returns ++ [⟨some n, .ok⟩] ∧
      t.devs = s.devs.set n { d with st := .active, seq := .idle, job := none } := by
  have hs := turn_takes hi hn hg hj ht
  have hd := taken_dev hn rest j more
  have h1 := writes_modDev hd fun d => { d with st := .active }
  have hw := h1.trans (writes_endRequest (h1.dev? hd) .ok)
  refine ⟨_, hs, rfl, rfl, rfl, rfl, rfl, ?_⟩
  rw [finishStep, hw.devs]
  simp [State.taken, Device.ended]

/-- A turn of an engine that runs nothing changes nothing but the inputs. -/
theorem turn_idle (hi : s.inputs = .turn n :: rest) (hn : s.devs[n]? = some d) (hj : d.job = none) :
    step s = .next { s with inputs := rest } := by
  simp only [step, move, hi, engineStep, hn, hj]

end

end Sys2Proof.Machine
end

