-- ==== Sys2Proof/Tests/Slice0.lean ====
section
/-! SUPPORT. Tests of single steps and of the encodings against the worked examples and vectors of 95_test_vectors.md and
words written out from 30_encoding.md, and for each obligation with hypotheses a witness that meets them. -/

namespace Sys2Proof.Tests

open Sys2Proof Sys2Proof.Machine

/-! ## Small states -/

/-- Parameter bytes to tell the commands apart; the spec leaves their values open (D14). -/
def params0 : InitParams where
  pgam := ⟨#[1, 2, 3, 4, 5, 6, 7, 8, 9, 10, 11, 12, 13, 14, 15], rfl⟩
  ngam := ⟨#[21, 22, 23, 24, 25, 26, 27, 28, 29, 30, 31, 32, 33, 34, 35], rfl⟩
  pwctrl1 := [0x17, 0x15]
  pwctrl2 := [0x41]
  vcmpctl := [0x00, 0x12, 0x80]
  madctl0 := 0x48
  colmod := 0x66
  ifmode := [0x80]
  frmctr1 := [0xA0]
  invtr := [0x02]
  dfunctr := [0x02, 0x02]
  etmod := [0xC6]
  adjctrl3 := [0xA9, 0x51, 0x2C, 0x02]

/-- The default parameters with these bytes. -/
def cfg0 : Params := { Config.params with init := params0 }

/-- A frame of 4 by 4 pixels. -/
def cfgSmall : Params := { cfg0 with panelW := 4, panelH := 4, fw := 4, fh := 4 }

/-- A device as BIND with rotation 0 and a data/command line leaves it. -/
def dev0 : Device := freshDevice .r0 0 0 false true 5

/-- The running request of a device before `todo`. -/
def jobOf (req : ReqKind) (flushing : Bool) (todo : List Micro) : Job :=
  ⟨req, ⟨0, 0, 2, 2⟩, ⟨.rgb565, 4, [0x00, 0xF8, 0xE0, 0x07, 0x1F, 0x00, 0x34, 0x12]⟩, flushing, [], .copy, todo⟩

/-- A device whose engine runs a request. -/
def running (seq : SeqPos) (j : Job) : Device := { dev0 with seq := seq, job := some j }

/-- One device, inputs, the transport's answers and the answers of resets. -/
def one (cfg : Params) (d : Device) (inputs : List Input) (oks : List Bool) (resets : List ResetResult) : State :=
  { State.reset with
    cfg := cfg
    devs := [d]
    blk := ⟨false, [(5, ⟨false, 1⟩)]⟩
    inputs := inputs
    env := { Env.fresh with ok := ⟨oks, 0⟩, reset := ⟨resets, 0⟩ } }

/-- The same, with this device the current one. -/
abbrev at0 (d : Device) (oks : List Bool) : State := one cfg0 d [] oks []

/-- The empty platform with given answers of the allocation. -/
def empty (allocs : List Bool) : State :=
  { State.reset with cfg := cfg0, env := { Env.fresh with alloc := ⟨allocs, 0⟩ } }

/-- A look at the next state, none where there is none. -/
def look {α : Type} (o : Host.Outcome State Fault Refusal) (f : State → α) : Option α :=
  match o with
  | .next t => some (f t)
  | .fault _ => none
  | .refused _ => none

/-- The transcript of device 0. -/
def trace0 (t : State) : List Event := (t.devs[0]?.map Device.trace).getD []

/-- What a look at a device shows: state, position, count, and whether a request runs. -/
structure Summary where
  st : DevState
  seq : SeqPos
  count : Nat
  busy : Bool
  deriving DecidableEq, Repr

/-- The summary of device 0, and the returned codes. -/
def summary (t : State) : Option Summary × List ResultCode :=
  (t.devs[0]?.map fun d => ⟨d.st, d.seq, d.convCount, d.job.isSome⟩, t.returns.map Return.code)

/-- What an instruction leaves in the transcript of device 0. -/
def traceAfter (i : Instr) (s : State) : Option (List Event) := look (exec i s) trace0

/-- The pixels of V-C4. -/
def src4 : SrcDesc := ⟨.rgb565, 4, [0x00, 0xF8, 0xE0, 0x07, 0x1F, 0x00, 0x34, 0x12]⟩

/-- The 64 bytes of V-C5. -/
def src5 : SrcDesc := ⟨.xrgb8888, 16,
  [0x40, 0x80, 0x00, 0xAB, 0x40, 0x81, 0x01, 0xAB, 0x40, 0x82, 0x02, 0xAB, 0x40, 0x83, 0x03, 0xAB,
   0x41, 0x80, 0x10, 0xAB, 0x41, 0x81, 0x11, 0xAB, 0x41, 0x82, 0x12, 0xAB, 0x41, 0x83, 0x13, 0xAB,
   0x42, 0x80, 0x20, 0xAB, 0x42, 0x81, 0x21, 0xAB, 0x42, 0x82, 0x22, 0xAB, 0x42, 0x83, 0x23, 0xAB,
   0x43, 0x80, 0x30, 0xAB, 0x43, 0x81, 0x31, 0xAB, 0x43, 0x82, 0x32, 0xAB, 0x43, 0x83, 0x33, 0xAB]⟩

/-! ## Well-formedness -/

/-- R99: a positive gamma table of another length than 15 is ill-formed. -/
theorem test_wf_pgamctrl : (Instr.pgamctrl (List.replicate 14 0)).wf = false ∧
    (Instr.pgamctrl (List.replicate 16 0)).wf = false ∧ (Instr.pgamctrl (List.replicate 15 0)).wf = true := by decide

/-- R100: the same for the negative gamma table. -/
theorem test_wf_ngamctrl : (Instr.ngamctrl []).wf = false ∧ (Instr.ngamctrl (List.replicate 15 0)).wf = true := by decide

/-- R47: the default opcodes tell the twenty commands apart. -/
theorem test_wf_opcodes : Config.opcodes.wf := by decide

/-- An opcode table with one byte twice, and one with a byte of a request's tag, are ill-formed. -/
theorem test_wf_opcodes_refused :
    ¬ ({ Config.opcodes with noron := 0x11 } : Opcodes).wf ∧ ¬ ({ Config.opcodes with noron := 0x06 } : Opcodes).wf := by
  decide

/-! ## Decoding, one word for each constructor -/

/-- What the decoder makes of bytes, with the default opcodes. -/
abbrev dec (bs : List Byte) : Option Instr := (decode Config.opcodes bs).toOption

/-- R42: tag 1; 270 is 540 and -5 is 9 in the layout of log 6, and 540 is 0x9C 0x04. -/
theorem test_decode_bind : dec [0x01, 0x9C, 0x04, 0x09, 0x28, 0x01, 0x00, 0x03] = some (.bind 270 (-5) 20 true false 3) := by
  decide

/-- R42, R56: tag 2 with the default region, XRGB8888, pitch 1280 (0x80 0x0A), four mapped bytes. -/
theorem test_decode_enable : dec [0x02, 0x00, 0x01, 0x80, 0x0A, 0x04, 0x40, 0x80, 0xFF, 0x00] =
    some (.enable none ⟨.xrgb8888, 1280, [0x40, 0x80, 0xFF, 0x00]⟩) := by decide

/-- R42: tag 3, region [1,2,3,3], last column 2 and last row 2. -/
theorem test_decode_update : dec [0x03, 0x02, 0x04, 0x04, 0x04, 0x09, 0x00, 0x00] =
    some (.update ⟨1, 2, 3, 3⟩ ⟨.other 7, 0, []⟩) := by decide

/-- R42: tags 4, 5 and 6. -/
theorem test_decode_disable : dec [0x04] = some .disable := by decide
theorem test_decode_remove : dec [0x05] = some .remove := by decide
theorem test_decode_shutdown : dec [0x06] = some .shutdown := by decide

/-- R47: opcode bytes and parameter counts. -/
theorem test_decode_dispoff : dec [0x28] = some .dispoff := by decide
theorem test_decode_pgamctrl : dec [0xE0, 0, 1, 2, 3, 4, 5, 6, 7, 8, 9, 10, 11, 12, 13, 14] =
    some (.pgamctrl [0, 1, 2, 3, 4, 5, 6, 7, 8, 9, 10, 11, 12, 13, 14]) := by decide
theorem test_decode_ngamctrl : dec [0xE1, 15, 14, 13, 12, 11, 10, 9, 8, 7, 6, 5, 4, 3, 2, 1] =
    some (.ngamctrl [15, 14, 13, 12, 11, 10, 9, 8, 7, 6, 5, 4, 3, 2, 1]) := by decide
theorem test_decode_pwctrl1 : dec [0xC0, 0x17, 0x15] = some (.pwctrl1 [0x17, 0x15]) := by decide
theorem test_decode_pwctrl2 : dec [0xC1, 0x41] = some (.pwctrl2 [0x41]) := by decide
theorem test_decode_vcmpctl : dec [0xC5, 0x00, 0x12] = some (.vcmpctl [0x00, 0x12]) := by decide
theorem test_decode_madctl : dec [0x36, 0xE0] = some (.madctl 0xE0) := by decide
theorem test_decode_colmod : dec [0x3A, 0x66] = some (.colmod 0x66) := by decide
theorem test_decode_ifmode : dec [0xB0, 0x80] = some (.ifmode [0x80]) := by decide
theorem test_decode_frmctr1 : dec [0xB1, 0xA0, 0x11] = some (.frmctr1 [0xA0, 0x11]) := by decide
theorem test_decode_invtr : dec [0xB4, 0x02] = some (.invtr [0x02]) := by decide
theorem test_decode_dfunctr : dec [0xB6, 0x02, 0x03] = some (.dfunctr [0x02, 0x03]) := by decide
theorem test_decode_etmod : dec [0xB7, 0xC6] = some (.etmod [0xC6]) := by decide
theorem test_decode_adjctrl3 : dec [0xF7, 0xA9, 0x51] = some (.adjctrl3 [0xA9, 0x51]) := by decide
theorem test_decode_slpout : dec [0x11] = some .slpout := by decide
theorem test_decode_noron : dec [0x13] = some .noron := by decide
theorem test_decode_dispon : dec [0x29] = some .dispon := by decide

/-- R48, V-A1: columns 0 to 319. -/
theorem test_decode_caset : dec [0x2A, 0x00, 0x00, 0x01, 0x3F] = some (.caset 0 319) := by decide

/-- R48, V-A7: pages 256 to 257. -/
theorem test_decode_paset : dec [0x2B, 0x01, 0x00, 0x01, 0x01] = some (.paset 256 257) := by decide
theorem test_decode_ramwr : dec [0x2C] = some .ramwr := by decide

/-- R54: the reserved tags, by name; R55: a wrong number of parameters, by name. -/
theorem test_decode_rejects :
    decode Config.opcodes [0x00] = .error (.reservedTag 0x0) ∧ decode Config.opcodes [0x07] = .error (.reservedTag 0x7) ∧
    decode Config.opcodes [0x0F, 0x01] = .error (.reservedTag 0xF) ∧ decode Config.opcodes [] = .error .empty ∧
    decode Config.opcodes [0x36] = .error (.paramCount "MADCTL") ∧
    decode Config.opcodes [0x2A, 0x00] = .error (.paramCount "CASET") ∧
    decode Config.opcodes [0xE0, 0x00] = .error (.paramCount "PGAMCTRL") ∧
    decode Config.opcodes [0x04, 0x00] = .error .trailing ∧
    decode Config.opcodes [0x77] = .error (.unknownOpcode 0x77) := ⟨rfl, rfl, rfl, rfl, rfl, rfl, rfl, rfl, rfl⟩

/-- R71: the least and the greatest coordinate that fit a `u16`, and the first that takes two bytes. -/
theorem test_coordinate_bounds : coordinate 0 = 0 ∧ coordinate 256 = 0x0100 ∧ coordinate 65535 = 0xFFFF := by decide

/-- R42, R47, R48: words of the encoder, written out by hand. -/
theorem test_encode_words : encode Config.opcodes (windowCols ⟨0, 0, 320, 480⟩ 0) = [0x2A, 0x00, 0x00, 0x01, 0x3F] ∧
    encode Config.opcodes (.madctl 0x40) = [0x36, 0x40] ∧ encode Config.opcodes .ramwr = [0x2C] ∧
    encode Config.opcodes (.bind 90 10 20 false true 0) = [0x01, 0xB4, 0x01, 0x14, 0x28, 0x00, 0x01, 0x00] := by decide

/-- A word of the opcode table is decoded with zero operands (opcode_table.json gives a request its tag alone). -/
theorem test_table_words : decodeTableWord 8 0x01 = some (.bind 0 0 0 false false 0) ∧
    decodeTableWord 8 0x05 = some .remove ∧ decodeTableWord 8 0x2A = some (.caset 0 0) ∧
    decodeTableWord 16 0xE036 = some (.madctl 0xE0) := by decide

/-! ## The converter -/

/-- V-C1, ZeroFill without a swap. -/
theorem test_vc1_zeroFill : wireRow565 .zeroFill false
    [0x00, 0x00, 0xFF, 0xFF, 0x00, 0xF8, 0xE0, 0x07, 0x1F, 0x00, 0x34, 0x12, 0x08, 0x00, 0x21, 0x08, 0x00, 0x80, 0x01, 0x00] =
    [0x00, 0x00, 0x00, 0xF8, 0xFC, 0xF8, 0xF8, 0x00, 0x00, 0x00, 0xFC, 0x00, 0x00, 0x00, 0xF8, 0x10, 0x44, 0xA0,
     0x00, 0x00, 0x40, 0x08, 0x04, 0x08, 0x80, 0x00, 0x00, 0x00, 0x00, 0x08] := by decide

/-- V-C1, Replicate without a swap. -/
theorem test_vc1_replicate : wireRow565 .replicate false
    [0x00, 0x00, 0xFF, 0xFF, 0x00, 0xF8, 0xE0, 0x07, 0x1F, 0x00, 0x34, 0x12, 0x08, 0x00, 0x21, 0x08, 0x00, 0x80, 0x01, 0x00] =
    [0x00, 0x00, 0x00, 0xFF, 0xFF, 0xFF, 0xFF, 0x00, 0x00, 0x00, 0xFF, 0x00, 0x00, 0x00, 0xFF, 0x10, 0x45, 0xA5,
     0x00, 0x00, 0x42, 0x08, 0x04, 0x08, 0x84, 0x00, 0x00, 0x00, 0x00, 0x08] := by decide

/-- V-C1, ZeroFill with a swap. -/
theorem test_vc1_swap_zeroFill : wireRow565 .zeroFill true
    [0x00, 0x00, 0xFF, 0xFF, 0x00, 0xF8, 0xE0, 0x07, 0x1F, 0x00, 0x34, 0x12, 0x08, 0x00, 0x21, 0x08, 0x00, 0x80, 0x01, 0x00] =
    [0x00, 0x00, 0x00, 0xF8, 0xFC, 0xF8, 0x00, 0x1C, 0xC0, 0xE0, 0x00, 0x38, 0x18, 0xE0, 0x00, 0x30, 0x80, 0x90,
     0x08, 0x00, 0x00, 0x20, 0x20, 0x40, 0x00, 0x10, 0x00, 0x00, 0x20, 0x00] := by decide

/-- V-C1, Replicate with a swap. -/
theorem test_vc1_swap_replicate : wireRow565 .replicate true
    [0x00, 0x00, 0xFF, 0xFF, 0x00, 0xF8, 0xE0, 0x07, 0x1F, 0x00, 0x34, 0x12, 0x08, 0x00, 0x21, 0x08, 0x00, 0x80, 0x01, 0x00] =
    [0x00, 0x00, 0x00, 0xFF, 0xFF, 0xFF, 0x00, 0x1C, 0xC6, 0xE7, 0x00, 0x39, 0x18, 0xE3, 0x00, 0x31, 0x82, 0x94,
     0x08, 0x00, 0x00, 0x21, 0x20, 0x42, 0x00, 0x10, 0x00, 0x00, 0x20, 0x00] := by decide

/-- V-C2: the top byte is dropped, and a swap has no effect. -/
theorem test_vc2 : wireRow .zeroFill .xrgb8888 true
    [0x40, 0x80, 0xFF, 0x00, 0x40, 0x80, 0xFF, 0xAB, 0x00, 0x00, 0x00, 0xFF, 0x01, 0x02, 0x03, 0x04, 0xFF, 0xFF, 0xFF, 0xFF] =
    [0xFF, 0x80, 0x40, 0xFF, 0x80, 0x40, 0x00, 0x00, 0x00, 0x03, 0x02, 0x01, 0xFF, 0xFF, 0xFF] := by decide

/-- E2: a solid colour over a 4 by 4 region gives 48 bytes. -/
theorem test_e2 : (convertRegion .zeroFill ⟨.xrgb8888, 16, (List.replicate 16 [0x40, 0x80, 0xFF, 0x00]).flatten⟩ []
    ⟨0, 0, 4, 4⟩ true Env.fresh).map Prod.fst = some (List.replicate 16 [0xFF, 0x80, 0x40]).flatten := by decide

/-- V-C4 without a swap. -/
theorem test_vc4 : (convertRegion .zeroFill src4 [] ⟨0, 0, 2, 2⟩ false Env.fresh).map Prod.fst =
    some [0xF8, 0x00, 0x00, 0x00, 0xFC, 0x00, 0x00, 0x00, 0xF8, 0x10, 0x44, 0xA0] := by decide

/-- V-C4 with a swap. -/
theorem test_vc4_swap : (convertRegion .zeroFill src4 [] ⟨0, 0, 2, 2⟩ true Env.fresh).map Prod.fst =
    some [0x00, 0x1C, 0xC0, 0xE0, 0x00, 0x38, 0x18, 0xE0, 0x00, 0x30, 0x80, 0x90] := by decide

/-- V-C5: a sub-region. -/
theorem test_vc5 : (convertRegion .zeroFill src5 [] ⟨1, 2, 3, 3⟩ false Env.fresh).map Prod.fst =
    some [0x21, 0x81, 0x42, 0x22, 0x82, 0x42] := by decide

/-- V-C3: an unsupported format has no conversion. -/
theorem test_vc3 : convertRegion .zeroFill ⟨.other 7, 0, []⟩ [] ⟨0, 0, 1, 1⟩ false Env.fresh = none := by decide

/-- R27: a byte past the mapped memory is a draw of its own. -/
theorem test_read_past_end : (memRead ⟨.rgb565, 0, [0x11]⟩ [] 0 3
    { Env.fresh with byte := ⟨[0xAA, 0xBB], 0⟩ }).1 = [0x11, 0xAA, 0xBB] := by decide

/-- R31: a byte the host writes during a flush reads as the old or the new value. -/
theorem test_raced_read : (memRead ⟨.rgb565, 0, [0x11, 0x22]⟩ [(1, 0x99)] 0 2
    { Env.fresh with pick := ⟨[0], 0⟩ }).1 = [0x11, 0x22] ∧
    (memRead ⟨.rgb565, 0, [0x11, 0x22]⟩ [(1, 0x99)] 0 2 { Env.fresh with pick := ⟨[1], 0⟩ }).1 = [0x11, 0x99] := by decide

/-! ## Windows, regions and paths -/

/-- V-A1 to V-A10: the column parameters. -/
theorem test_va_columns :
    [((⟨0, 0, 320, 480⟩ : Region), (0 : Int)), (⟨10, 20, 12, 22⟩, 0), (⟨0, 0, 1, 1⟩, 0), (⟨319, 479, 320, 480⟩, 0),
      (⟨5, 7, 100, 200⟩, 0), (⟨0, 0, 256, 300⟩, 0), (⟨255, 256, 257, 258⟩, 0), (⟨0, 0, 160, 240⟩, 10),
      (⟨1, 2, 3, 3⟩, 10), (⟨5, 0, 10, 1⟩, -5)].map (fun r => (windowCols r.1 r.2).operands) =
    [[0x00, 0x00, 0x01, 0x3F], [0x00, 0x0A, 0x00, 0x0B], [0x00, 0x00, 0x00, 0x00], [0x01, 0x3F, 0x01, 0x3F],
      [0x00, 0x05, 0x00, 0x63], [0x00, 0x00, 0x00, 0xFF], [0x00, 0xFF, 0x01, 0x00], [0x00, 0x0A, 0x00, 0xA9],
      [0x00, 0x0B, 0x00, 0x0C], [0x00, 0x00, 0x00, 0x04]] := by decide

/-- V-A1 to V-A10: the page parameters. -/
theorem test_va_pages :
    [((⟨0, 0, 320, 480⟩ : Region), (0 : Int)), (⟨10, 20, 12, 22⟩, 0), (⟨0, 0, 1, 1⟩, 0), (⟨319, 479, 320, 480⟩, 0),
      (⟨5, 7, 100, 200⟩, 0), (⟨0, 0, 256, 300⟩, 0), (⟨255, 256, 257, 258⟩, 0), (⟨0, 0, 160, 240⟩, 20),
      (⟨1, 2, 3, 3⟩, 20), (⟨5, 0, 10, 1⟩, 0)].map (fun r => (windowPages r.1 r.2).operands) =
    [[0x00, 0x00, 0x01, 0xDF], [0x00, 0x14, 0x00, 0x15], [0x00, 0x00, 0x00, 0x00], [0x01, 0xDF, 0x01, 0xDF],
      [0x00, 0x07, 0x00, 0xC7], [0x00, 0x00, 0x01, 0x2B], [0x01, 0x00, 0x01, 0x01], [0x00, 0x14, 0x01, 0x03],
      [0x00, 0x16, 0x00, 0x16], [0x00, 0x00, 0x00, 0x00]] := by decide

/-- V-A: the burst lengths. -/
theorem test_va_bursts :
    [(⟨0, 0, 320, 480⟩ : Region), ⟨10, 20, 12, 22⟩, ⟨0, 0, 1, 1⟩, ⟨5, 7, 100, 200⟩, ⟨0, 0, 256, 300⟩, ⟨5, 0, 10, 1⟩].map
      Region.burstLen = [460800, 12, 3, 55005, 230400, 15] := by decide

/-- V-V: which regions are valid. -/
theorem test_vv :
    [((⟨0, 0, 320, 480⟩ : Region), (0 : Int), (0 : Int)), (⟨0, 0, 0, 1⟩, 0, 0), (⟨3, 0, 2, 1⟩, 0, 0), (⟨0, 0, 321, 1⟩, 0, 0),
      (⟨0, 0, 1, 481⟩, 0, 0), (⟨-1, 0, 1, 1⟩, 0, 0), (⟨0, 0, 310, 1⟩, 10, 0), (⟨0, 0, 311, 1⟩, 10, 0),
      (⟨0, 0, 1, 1⟩, -5, 0), (⟨5, 0, 10, 1⟩, -5, 0), (⟨0, 460, 1, 461⟩, 0, 20)].map
      (fun r => decide (r.1.Valid cfg0 r.2.1 r.2.2)) =
    [true, false, false, false, false, false, true, false, false, true, false] := by decide

/-- V-D1: the path of each row. -/
theorem test_vd1 :
    [decidePath true .rgb565 false true, decidePath true .xrgb8888 false true, decidePath true .rgb565 true true,
      decidePath true .rgb565 false false, decidePath false .rgb565 false true, decidePath true (.other 7) false true,
      decidePath false (.other 7) true false, decidePath true .xrgb8888 true false, decidePath false .xrgb8888 false true,
      decidePath false .rgb565 true false] =
    [.fast, .copy, .copy, .copy, .copy, .copy, .copy, .copy, .copy, .copy] := by decide

/-- V-R1: the addressing-mode byte of each rotation, without and with other bits. -/
theorem test_vr1 : [Rotation.r0, .r90, .r180, .r270].map (rotByte cfg0) = [0x40, 0x20, 0x80, 0xE0] ∧
    [Rotation.r0, .r90, .r180, .r270].map (rotByte { cfg0 with madctlExtra := 0x08 }) = [0x48, 0x28, 0x88, 0xE8] := by
  decide

/-- R130: the numbers of the result codes. -/
theorem test_result_codes : [ResultCode.ok, .busFailure, .unsupportedFormat, .hwInitFailure, .configError,
    .allocFailure].map ResultCode.number = [0, 1, 2, 3, 4, 5] := by decide

/-! ## Host requests, one step each -/

/-- V-R2: a bind on the empty platform. -/
theorem test_bind : look (exec (.bind 0 0 0 false true 0) (empty [true])) (fun t =>
    (summary t, t.blk.get 0, trace0 t)) =
      some ((some ⟨.uninitialized, .idle, 0, false⟩, [.ok]), ⟨false, 1⟩, []) := by decide

/-- V-R1, V-R2: 45, 360 and -90 are refused with an allocation, and a failed allocation comes first (R139). -/
theorem test_bind_errors :
    [look (exec (.bind 45 0 0 false true 0) (empty [true])) summary, look (exec (.bind 360 0 0 false true 0) (empty [true])) summary,
      look (exec (.bind (-90) 0 0 false true 0) (empty [true])) summary,
      look (exec (.bind 45 0 0 false true 0) (empty [false])) summary] =
    [some (none, [.configError]), some (none, [.configError]), some (none, [.configError]), some (none, [.allocFailure])] := by
  decide

/-- R91: ENABLE from Uninitialized, and from Active. -/
theorem test_enable :
    look (exec (.enable none src4) (at0 dev0 [])) summary = some (some ⟨.poweringOn, .at .step1, 0, true⟩, []) ∧
    look (exec (.enable none src4) (at0 { dev0 with st := .active } [])) summary =
      some (some ⟨.active, .at .step1, 0, true⟩, []) := by decide

/-- S13: ENABLE on a removed device. -/
theorem test_enable_gone : look (exec (.enable none src4) (at0 { dev0 with gone := true, st := .disabled } [])) summary =
    some (some ⟨.disabled, .idle, 0, false⟩, [.ok]) := by decide

/-- V-U6 and V-U8: an invalid region faults, whatever the format. -/
theorem test_update_faults : exec (.update ⟨0, 0, 0, 5⟩ src4) (at0 dev0 []) = .fault (.badRegion ⟨0, 0, 0, 5⟩) ∧
    exec (.update ⟨0, 0, 0, 1⟩ ⟨.other 1, 0, []⟩) (at0 dev0 []) = .fault (.badRegion ⟨0, 0, 0, 1⟩) := ⟨rfl, rfl⟩

/-- V-U7: UPDATE on a removed device answers OK; on a bound one it starts with the conversion (R81). -/
theorem test_update : look (exec (.update ⟨0, 0, 1, 1⟩ src4) (at0 { dev0 with gone := true } [])) summary =
      some (some ⟨.uninitialized, .idle, 0, false⟩, [.ok]) ∧
    look (exec (.update ⟨0, 0, 2, 2⟩ src4) (at0 dev0 [])) (fun t => t.devs[0]?.bind fun d => d.job.map fun j => j.todo.head?) =
      some (some (some .convert)) := by decide

/-- L-1: DISABLE on an Active device leaves the backlight. -/
theorem test_disable : look (exec .disable (at0 { dev0 with st := .active } [])) (fun t => (summary t, t.blk.get 5)) =
    some ((some ⟨.disabled, .idle, 0, false⟩, [.ok]), ⟨false, 1⟩) := by decide

/-- L-5: DISABLE on a removed device changes nothing. -/
theorem test_disable_gone : look (exec .disable (at0 { dev0 with gone := true, st := .active } [])) summary =
    some (some ⟨.active, .idle, 0, false⟩, [.ok]) := by decide

/-- L-2: REMOVE drops the reference and leaves the line on. -/
theorem test_remove : look (exec .remove { at0 { dev0 with st := .active } [] with blk := ⟨false, [(5, ⟨true, 1⟩)]⟩ })
    (fun t => (summary t, t.devs[0]?.map Device.gone, t.blk.get 5)) =
      some ((some ⟨.disabled, .idle, 0, false⟩, [.ok]), some true, ⟨true, 0⟩) := by decide

/-- L-3: a second REMOVE changes nothing. -/
theorem test_remove_again : look (exec .remove { at0 { dev0 with gone := true } [] with blk := ⟨false, [(5, ⟨true, 0⟩)]⟩ })
    (fun t => t.blk.get 5) = some ⟨true, 0⟩ := by decide

/-- L-6: SHUTDOWN turns both lines off and keeps their references. -/
theorem test_shutdown : look (exec .shutdown { at0 dev0 [] with blk := ⟨false, [(0, ⟨true, 2⟩), (1, ⟨true, 1⟩)]⟩ })
    (fun t => (t.blk.get 0, t.blk.get 1, t.devs)) = some (⟨false, 2⟩, ⟨false, 1⟩, [dev0]) := by decide

/-- R128: with lines on at reset, SHUTDOWN turns the lines off that no device was ever bound to. -/
theorem test_shutdown_rest : look (exec .shutdown { at0 dev0 [] with blk := ⟨true, [(3, ⟨false, 0⟩)]⟩ })
    (fun t => (t.blk.get 9, t.blk.get 3)) = some (⟨false, 0⟩, ⟨false, 0⟩) := by decide

/-! ## Panel commands, one step each -/

/-- Steps 2 to 6: each command is one event with its default opcode (R98 to R111). -/
theorem test_dispoff : traceAfter .dispoff (at0 dev0 [true]) = some [.cmd 0x28 [] true] := by decide
theorem test_pgamctrl : traceAfter (.pgamctrl (List.replicate 15 7)) (at0 dev0 [true]) =
    some [.cmd 0xE0 (List.replicate 15 7) true] := by decide
theorem test_ngamctrl : traceAfter (.ngamctrl (List.replicate 15 8)) (at0 dev0 [true]) =
    some [.cmd 0xE1 (List.replicate 15 8) true] := by decide
theorem test_pwctrl1 : traceAfter (.pwctrl1 [1, 2]) (at0 dev0 [true]) = some [.cmd 0xC0 [1, 2] true] := by decide
theorem test_pwctrl2 : traceAfter (.pwctrl2 [3]) (at0 dev0 [true]) = some [.cmd 0xC1 [3] true] := by decide
theorem test_vcmpctl : traceAfter (.vcmpctl [4]) (at0 dev0 [true]) = some [.cmd 0xC5 [4] true] := by decide
theorem test_madctl : traceAfter (.madctl 0x48) (at0 dev0 [true]) = some [.cmd 0x36 [0x48] true] := by decide
theorem test_colmod : traceAfter (.colmod 0x66) (at0 dev0 [true]) = some [.cmd 0x3A [0x66] true] := by decide
theorem test_ifmode : traceAfter (.ifmode [5]) (at0 dev0 [true]) = some [.cmd 0xB0 [5] true] := by decide
theorem test_frmctr1 : traceAfter (.frmctr1 [6]) (at0 dev0 [true]) = some [.cmd 0xB1 [6] true] := by decide
theorem test_invtr : traceAfter (.invtr [7]) (at0 dev0 [true]) = some [.cmd 0xB4 [7] true] := by decide
theorem test_dfunctr : traceAfter (.dfunctr [8]) (at0 dev0 [true]) = some [.cmd 0xB6 [8] true] := by decide
theorem test_etmod : traceAfter (.etmod [9]) (at0 dev0 [true]) = some [.cmd 0xB7 [9] true] := by decide
theorem test_adjctrl3 : traceAfter (.adjctrl3 [10]) (at0 dev0 [true]) = some [.cmd 0xF7 [10] true] := by decide
theorem test_noron : traceAfter .noron (at0 dev0 [true]) = some [.cmd 0x13 [] true] := by decide

/-- What stands before the engine of device 0. -/
def todo0 (t : State) : Option (List Micro) := t.devs[0]?.bind fun d => d.job.map Job.todo

/-- R112: SLPOUT, then the delay of 120 ms. -/
theorem test_slpout : look (exec .slpout (at0 (running (.at .step7) (jobOf .enable false [.finish])) [true]))
    (fun t => (trace0 t, todo0 t)) = some ([.cmd 0x11 [] true], some [.delay 120, .finish]) := by decide

/-- S5: SLPOUT answered false ends the enable without a delay. -/
theorem test_slpout_fails : look (exec .slpout (at0 (running (.at .step7) (jobOf .enable false [.finish])) [false]))
    (fun t => (trace0 t, summary t)) =
      some ([.cmd 0x11 [] false], some ⟨.disabled, .idle, 0, false⟩, [.busFailure]) := by decide

/-- R114: DISPON, then the delay of 100 ms. -/
theorem test_dispon : look (exec .dispon (at0 (running (.at (.step8 2)) (jobOf .enable false [.finish])) [true]))
    (fun t => (trace0 t, todo0 t)) = some ([.cmd 0x29 [] true], some [.delay 100, .finish]) := by decide

/-- S4: a command of steps 2 to 8 answered false. -/
theorem test_pgamctrl_fails :
    look (exec (.pgamctrl (List.replicate 15 1)) (at0 (running (.at .step3) (jobOf .enable false [.finish])) [false])) summary =
      some (some ⟨.disabled, .idle, 0, false⟩, [.busFailure]) := by decide

/-- S7: MADCTL of step 9 answered false does not end the enable (R119). -/
theorem test_madctl_fails_at_step9 :
    look (exec (.madctl 0x40) (at0 (running (.at .step9) (jobOf .enable false [.paint])) [false]))
      (fun t => (trace0 t, todo0 t, t.returns)) = some ([.cmd 0x36 [0x40] false], some [.paint], []) := by decide

/-- V-A2: CASET. -/
theorem test_caset : traceAfter (.caset 10 11) (at0 dev0 [true]) = some [.cmd 0x2A [0x00, 0x0A, 0x00, 0x0B] true] := by decide

/-- V-U2: CASET answered false ends the UPDATE with BUS_FAILURE. -/
theorem test_caset_fails : look (exec (.caset 0 1) (at0 (running .idle (jobOf .update true [.cmd none .ramwr])) [false]))
    (fun t => (trace0 t, summary t)) =
      some ([.cmd 0x2A [0, 0, 0, 1] false], some ⟨.uninitialized, .idle, 0, false⟩, [.busFailure]) := by decide

/-- V-A7: PASET. -/
theorem test_paset : traceAfter (.paset 256 257) (at0 dev0 [true]) = some [.cmd 0x2B [0x01, 0x00, 0x01, 0x01] true] := by decide

/-- R46, R83: RAMWR, and the burst comes next. -/
theorem test_ramwr : look (exec .ramwr (at0 (running .idle (jobOf .update true [])) [true]))
    (fun t => (trace0 t, todo0 t)) = some ([.cmd 0x2C [] true], some [.data]) := by decide

/-- S8: RAMWR answered false in ENABLE's paint; the backlight comes next (R119). -/
theorem test_ramwr_fails : look (exec .ramwr (at0 (running (.at .step10) (jobOf .enable true [.blOn, .finish])) [false]))
    (fun t => (trace0 t, todo0 t)) = some ([.cmd 0x2C [] false], some [.blOn, .finish]) := by decide

/-! ## Engine steps -/

/-- One turn of the engine of device 0. -/
abbrev turn0 (d : Device) (oks : List Bool) (resets : List ResetResult) : Host.Outcome State Fault Refusal :=
  step (one cfg0 d [.turn 0] oks resets)

/-- S1, S2, S3, S9: step 1 by the answer of the reset. -/
theorem test_step1 :
    look (turn0 (running (.at .step1) (jobOf .enable false [.reset false, .addrMode])) [] [.failed]) (fun t => (trace0 t, summary t)) =
      some ([.reset .failed], some ⟨.disabled, .idle, 0, false⟩, [.hwInitFailure]) ∧
    look (turn0 (running (.at .step1) (jobOf .enable false [.reset false, .addrMode])) [] [.retained]) (fun t => (trace0 t, todo0 t)) =
      some ([.reset .retained], some [.addrMode]) ∧
    look (turn0 (running (.at .step1) (jobOf .enable false [.reset true, .addrMode])) [] [.needsInit]) (fun t =>
      (trace0 t, t.devs[0]?.map Device.st, (todo0 t).map List.length)) =
      some ([.reset .needsInit], some .resetOccurred, some 18) := by decide

/-- R116, V-R1: step 9 on a device of rotation 270. -/
theorem test_step9 : look (turn0 { running (.at .step1) (jobOf .enable false [.addrMode]) with rot := .r270 } [true] [])
    (fun t => (trace0 t, t.devs[0]?.map Device.seq)) = some ([.cmd 0x36 [0xE0] true], some (.at .step9)) := by decide

/-- R117: with an offset the default paint region is not valid, and step 10 faults. -/
theorem test_step10_faults :
    turn0 { running (.at .step9) { jobOf .enable false [.paint] with region := fullFrame cfg0 } with left := 10 } [] [] =
      .fault (.badRegion ⟨0, 0, 320, 480⟩) := rfl

/-- V-U4: an unsupported format ends the UPDATE and counts. -/
theorem test_unsupported :
    look (turn0 (running .idle { jobOf .update true [.convert] with src := ⟨.other 3, 0, []⟩ }) [] []) (fun t => (trace0 t, summary t)) =
      some ([], some ⟨.uninitialized, .idle, 1, false⟩, [.unsupportedFormat]) := by decide

/-- V-U1: the conversion fills the buffer, and the burst sends it. -/
theorem test_convert : look (turn0 (running .idle (jobOf .update true [.convert])) [] [])
    (fun t => t.devs[0]?.map fun d => d.wb.map Prod.snd) =
      some (some [0xF8, 0x00, 0x00, 0x00, 0xFC, 0x00, 0x00, 0x00, 0xF8, 0x10, 0x44, 0xA0]) := by decide
theorem test_burst : look (turn0 { running .idle (jobOf .update true [.data]) with wb := cells 0 (List.replicate 12 0xAA) } [true] [])
    (fun t => (trace0 t, summary t)) =
      some ([.data (List.replicate 12 0xAA) true], some ⟨.uninitialized, .idle, 0, false⟩, [.ok]) := by decide

/-- R118, R120: the backlight step, and the completion. -/
theorem test_backlight : look (turn0 (running (.at .step10) (jobOf .enable false [.blOn, .finish])) [] [])
    (fun t => (trace0 t, t.blk.get 5)) = some ([.blOn 5], ⟨true, 1⟩) := by decide
theorem test_finish : look (turn0 (running (.at .step10) (jobOf .enable false [.finish])) [] []) summary =
    some (some ⟨.active, .idle, 0, false⟩, [.ok]) := by decide

/-- L-8: after a removal the request stops, or takes its next step, as drawn. -/
theorem test_removed_midway :
    look (step { one cfg0 { running (.at .step2) (jobOf .enable false [.cmd (some .step3) .dispoff]) with gone := true } [.turn 0] [true] []
      with env := { Env.fresh with goOn := ⟨[false], 0⟩ } }) (fun t => (trace0 t, t.returns)) = some ([], [⟨some 0, .ok⟩]) ∧
    look (step { one cfg0 { running (.at .step2) (jobOf .enable false [.cmd (some .step3) .dispoff]) with gone := true } [.turn 0] [true] []
      with env := { Env.fresh with goOn := ⟨[true], 0⟩, ok := ⟨[true], 0⟩ } }) (fun t => (trace0 t, t.returns)) =
        some ([.cmd 0x28 [] true], []) := by decide

/-- R31: a host write during a flush makes the byte a draw; before the flush it changes the byte. -/
theorem test_host_write :
    look (step (one cfg0 (running .idle (jobOf .update true [.convert])) [.hostWrite 0 1 0x77] [] [])) (fun t =>
      t.devs[0]?.bind fun d => d.job.map Job.raced) = some (some [(1, 0x77)]) ∧
    look (step (one cfg0 (running (.at .step1) (jobOf .enable false [.paint])) [.hostWrite 0 1 0x77] [] [])) (fun t =>
      t.devs[0]?.bind fun d => d.job.map fun j => j.raced.map Prod.snd ++ j.src.bytes.take 2) = some (some [0x00, 0x77]) := by decide

/-! ## The host's questions: a word of the opcode table is the next step's instruction -/

/-- The first and the last kind of row: a request without a device, one with a device, a command. -/
theorem test_fetch_words :
    (look (step (State.reset.withFetchWord 8 0x06)) fun t => t.returns.map Return.code) = some [.ok] ∧
    (look (step (State.reset.withFetchWord 8 0x04)) fun t => t.devs.map Device.st) = some [.disabled] ∧
    (look (step ({ State.reset with cfg := cfg0, env := (at0 dev0 [true]).env }.withFetchWord 8 0x2C)) trace0) =
      some [.cmd 0x2C [] true] := by decide

/-! ## Witnesses: for each obligation with hypotheses, a state and operands that meet them -/

/-- `n` answers true. -/
abbrev trues (n : Nat) : List Bool := List.replicate n true

/-- One device of the small frame, its inputs and answers. -/
abbrev small (d : Device) (inputs : List Input) (oks : List Bool) (resets : List ResetResult) : State :=
  one cfgSmall d inputs oks resets

/-- The bytes of UPDATE of the upper left 2 by 2 pixels from V-C4, and of the whole small frame from `S`. -/
def updateBytes : List Byte := [0x03, 0x00, 0x00, 0x02, 0x02, 0x00, 0x04, 0x08, 0x00, 0xF8, 0xE0, 0x07, 0x1F, 0x00, 0x34, 0x12]

/-- The bytes of ENABLE with the default region from V-C5. -/
def enableBytes : List Byte := [0x02, 0x00, 0x01, 0x10, 0x40] ++ src5.bytes

/-- A source with enough bytes for a burst on the fast path of the small frame. -/
def srcFast : SrcDesc := ⟨.rgb565, 8, List.replicate 48 0x5A⟩

/-- The bytes of UPDATE of the whole small frame from it. -/
def fastBytes : List Byte := [0x03, 0x00, 0x00, 0x06, 0x06, 0x00, 0x08, 0x30] ++ List.replicate 48 0x5A

/-- A transport with given answers lets `n` of them be true. -/
theorem small_allOk (d : Device) (inputs : List Input) (resets : List ResetResult) (n : Nat) :
    (small d inputs (trues n) resets).AllOk n := by
  intro k hk
  simp [one, Oracle.peekAt, hk]

theorem witness_DecodeEncodeRoundTrip : Config.opcodes.wf ∧ (Instr.pgamctrl (List.replicate 15 0)).wf = true ∧
    (Instr.update ⟨1, 2, 3, 3⟩ src4).isCommand = false := by decide

theorem witness_DecodedIsWellFormed :
    decode Config.opcodes (0xE1 :: List.replicate 15 9) = .ok (.ngamctrl (List.replicate 15 9)) := rfl

theorem witness_StepRunsDecodedRequest : decodeRequest [0x04] = .ok .disable ∧
    (one cfg0 dev0 [.request 0 [0x04]] [] []).inputs = .request 0 [0x04] :: [] ∧
    (requestWaits .disable && (one cfg0 dev0 [.request 0 [0x04]] [] []).busy 0) = false ∧
    (one cfg0 (running .idle (jobOf .update true [.data])) [.request 0 [0x04]] [] []).inputs = .request 0 [0x04] :: [] ∧
    (requestWaits .disable && (one cfg0 (running .idle (jobOf .update true [.data])) [.request 0 [0x04]] [] []).busy 0) = true :=
  ⟨rfl, rfl, rfl, rfl, rfl⟩

/-- A device whose engine's next step is DISPOFF of step 2. -/
abbrev atDispoff : Device := running (.at .step1) (jobOf .enable false [.cmd (some .step2) .dispoff, .finish])

theorem witness_EngineRunsItsNextCommand : (one cfg0 atDispoff [.turn 0] [] []).inputs = .turn 0 :: [] ∧
    (one cfg0 atDispoff [.turn 0] [] []).devs[0]? = some atDispoff ∧ atDispoff.gone = false ∧
    atDispoff.job = some (jobOf .enable false [.cmd (some .step2) .dispoff, .finish]) ∧
    (jobOf .enable false [.cmd (some .step2) .dispoff, .finish]).todo = .cmd (some .step2) .dispoff :: [.finish] ∧
    Instr.dispoff.isCommand = true := ⟨rfl, rfl, rfl, rfl, rfl, rfl⟩

theorem witness_RemovalAndShutdownDoNotWait :
    (one cfg0 (running .idle (jobOf .update true [.data])) [.removal 0] [] []).inputs = .removal 0 :: [] ∧
    (one cfg0 (running .idle (jobOf .update true [.data])) [.request 0 [0x06]] [] []).inputs = .request 0 [0x06] :: [] :=
  ⟨rfl, rfl⟩

theorem witness_ReservedAndUnboundAreRefused :
    ((0x00 : Byte).toNat = 0 ∨ (7 ≤ (0x00 : Byte).toNat ∧ (0x00 : Byte).toNat ≤ 15)) ∧
    ((0x07 : Byte).toNat = 0 ∨ (7 ≤ (0x07 : Byte).toNat ∧ (0x07 : Byte).toNat ≤ 15)) ∧
    ((0x0F : Byte).toNat = 0 ∨ (7 ≤ (0x0F : Byte).toNat ∧ (0x0F : Byte).toNat ≤ 15)) ∧
    (one cfg0 dev0 [.request 0 [0x07]] [] []).inputs = .request 0 (0x07 :: []) :: [] ∧
    decodeRequest [0x04] = .ok .disable ∧ requestWaits .disable = true ∧
    (one cfg0 dev0 [.request 1 [0x04]] [] []).inputs = .request 1 [0x04] :: [] ∧
    (one cfg0 dev0 [.request 1 [0x04]] [] []).devs[1]? = none ∧
    (one cfg0 { dev0 with gone := true } [.request 0 [0x04]] [] []).inputs = .request 0 [0x04] :: [] ∧
    (one cfg0 { dev0 with gone := true } [.request 0 [0x04]] [] []).devs[0]? = some { dev0 with gone := true } ∧
    dev0.job = none := ⟨by decide, by decide, by decide, rfl, rfl, rfl, rfl, rfl, rfl, rfl, rfl⟩

theorem witness_BindLoadsTheResetRecord : (empty [true]).allocDraw = true ∧ ((270 : Int) = 270 ∧ Rotation.r270 = .r270) ∧
    ((0 : Int) = 0 ∧ Rotation.r0 = .r0) := by decide

theorem witness_BindRefusesOtherRotations : (empty [true]).allocDraw = true ∧ (360 : Int) ≠ 0 ∧ (360 : Int) ≠ 90 ∧
    (360 : Int) ≠ 180 ∧ (360 : Int) ≠ 270 := by decide

theorem witness_BindAllocationFailsFirst : (empty [false]).allocDraw = false := rfl

theorem witness_DisableWritesOnlyTheState : (at0 { dev0 with st := .active } []).dev? = some { dev0 with st := .active } ∧
    dev0.gone = false ∧ dev0.job = none ∧ (at0 { dev0 with gone := true } []).dev? = some { dev0 with gone := true } :=
  ⟨rfl, rfl, rfl, rfl⟩

theorem witness_RemoveReleasesTheLine : (at0 (running .idle (jobOf .update true [.data])) []).dev? =
      some (running .idle (jobOf .update true [.data])) ∧ (running .idle (jobOf .update true [.data])).gone = false ∧
    (at0 { dev0 with gone := true } []).dev? = some { dev0 with gone := true } := ⟨rfl, rfl, rfl⟩

theorem witness_ShutdownTurnsEveryLineOff : Backlights.wf ⟨false, [(0, ⟨true, 2⟩), (1, ⟨true, 1⟩)]⟩ ∧
    Backlights.wf ⟨true, [(3, ⟨false, 0⟩)]⟩ := by decide

theorem witness_RemovedDeviceAnswersOk : (at0 { dev0 with gone := true } []).dev? = some { dev0 with gone := true } ∧
    requestWaits (.enable none src4) = true ∧ requestWaits (.update ⟨0, 0, 1, 1⟩ src4) = true ∧
    requestWaits .disable = true ∧ requestWaits .remove = true := by decide

theorem witness_EnableStartsTheSequence : (at0 dev0 []).dev? = some dev0 ∧
    (at0 { dev0 with st := .active } []).dev? = some { dev0 with st := .active } ∧ dev0.gone = false ∧ dev0.job = none :=
  ⟨rfl, rfl, rfl, rfl⟩

/-- A device at step 1 of an ENABLE that began in Active. -/
abbrev atReset : Device := running (.at .step1) (jobOf .enable false (enableSteps true))

theorem witness_StepOneActsOnTheAnswer : (one cfg0 atReset [.turn 0] [] [.failed]).inputs = .turn 0 :: [] ∧
    (one cfg0 atReset [.turn 0] [] [.failed]).devs[0]? = some atReset ∧ atReset.gone = false ∧
    atReset.job = some (jobOf .enable false (.reset true :: [.addrMode, .paint, .blOn, .finish])) ∧
    (one cfg0 atReset [.turn 0] [] [.failed]).resetDraw = .failed ∧
    (one cfg0 atReset [.turn 0] [] [.retained]).resetDraw = .retained ∧
    (one cfg0 atReset [.turn 0] [] [.needsInit]).resetDraw = .needsInit := by decide

theorem witness_EarlyCommandFailureIsFatal : Instr.dispoff.isCommand = true ∧ (at0 atDispoff [false]).dev? = some atDispoff ∧
    atDispoff.job = some (jobOf .enable false [.cmd (some .step2) .dispoff, .finish]) ∧
    (jobOf .enable false [.cmd (some .step2) .dispoff, .finish]).flushing = false ∧ atDispoff.seq ≠ .at .step9 ∧
    (at0 atDispoff [false]).okDraw = false := by decide

theorem witness_LateFailuresAreNotFatal : (Instr.madctl 0x40).isCommand = true ∧
    (at0 (running (.at .step9) (jobOf .enable false [.paint])) [false]).dev? =
      some (running (.at .step9) (jobOf .enable false [.paint])) ∧
    (running (.at .step9) (jobOf .enable false [.paint])).job = some (jobOf .enable false [.paint]) ∧
    (jobOf .enable false [.paint]).flushing = false ∧
    (running (.at .step9) (jobOf .enable false [.paint])).seq = .at .step9 ∧
    (at0 (running (.at .step9) (jobOf .enable false [.paint])) [false]).okDraw = false ∧
    Instr.ramwr.isCommand = true ∧
    (at0 (running (.at .step10) (jobOf .enable true [.blOn, .finish])) [false]).dev? =
      some (running (.at .step10) (jobOf .enable true [.blOn, .finish])) ∧
    (running (.at .step10) (jobOf .enable true [.blOn, .finish])).job = some (jobOf .enable true [.blOn, .finish]) ∧
    (jobOf .enable true [.blOn, .finish]).req = .enable ∧ (jobOf .enable true [.blOn, .finish]).flushing = true ∧
    (at0 (running (.at .step10) (jobOf .enable true [.blOn, .finish])) [false]).okDraw = false := by decide

/-- A device before the burst of ENABLE's paint. -/
abbrev atPaintData : Device := running (.at .step10) (jobOf .enable true [.data, .blOn, .finish])

/-- The same clauses for a burst answered false. -/
theorem witness_LateFailuresAreNotFatal_burst : (one cfg0 atPaintData [.turn 0] [false] []).inputs = .turn 0 :: [] ∧
    (one cfg0 atPaintData [.turn 0] [false] []).devs[0]? = some atPaintData ∧ atPaintData.gone = false ∧
    atPaintData.job = some (jobOf .enable true (.data :: [.blOn, .finish])) ∧
    (jobOf .enable true (.data :: [.blOn, .finish])).req = .enable ∧
    (one cfg0 atPaintData [.turn 0] [false] []).okDraw = false := by decide

/-- The request of a paint from a format that is not supported, before its conversion. -/
abbrev otherJob : Job :=
  { jobOf .enable true (.convert :: [.blOn, .finish]) with src := ⟨.other 3, 4, [0x00, 0x00]⟩ }

/-- The same clauses for an unsupported format. -/
theorem witness_LateFailuresAreNotFatal_format :
    (one cfg0 (running (.at .step10) otherJob) [.turn 0] [] []).inputs = .turn 0 :: [] ∧
    (one cfg0 (running (.at .step10) otherJob) [.turn 0] [] []).devs[0]? = some (running (.at .step10) otherJob) ∧
    (running (.at .step10) otherJob).gone = false ∧ (running (.at .step10) otherJob).job = some otherJob ∧
    otherJob.req = .enable ∧ otherJob.todo = .convert :: [.blOn, .finish] ∧ otherJob.src.fmt = .other 3 := by decide

/-- A device before step 9, of each rotation. -/
abbrev before9 (r : Rotation) : Device := { running (.at .step1) (jobOf .enable false [.addrMode, .finish]) with rot := r }

theorem witness_AddressingModeFollowsRotation : ∀ r ∈ [Rotation.r0, .r90, .r180, .r270],
    (one cfg0 (before9 r) [.turn 0] [] []).inputs = .turn 0 :: [] ∧
    (one cfg0 (before9 r) [.turn 0] [] []).devs[0]? = some (before9 r) ∧ (before9 r).gone = false ∧
    (before9 r).job = some (jobOf .enable false (.addrMode :: [.finish])) ∧
    (jobOf .enable false (.addrMode :: [.finish])).flushing = false ∧ (before9 r).rot = r := by decide

/-- A device before SLPOUT, and before DISPON. -/
abbrev beforeSettle (i : Instr) : Device := running (.at (.step6 8)) (jobOf .enable false [.cmd (some .step7) i, .finish])

theorem witness_SettleDelaysFollowTheirCommands : ∀ i ∈ [Instr.slpout, .dispon],
    (one cfg0 (beforeSettle i) [.turn 0, .turn 0] [true] []).inputs = .turn 0 :: .turn 0 :: [] ∧
    (one cfg0 (beforeSettle i) [.turn 0, .turn 0] [true] []).devs[0]? = some (beforeSettle i) ∧
    (beforeSettle i).gone = false ∧
    (beforeSettle i).job = some (jobOf .enable false (.cmd (some .step7) i :: [.finish])) ∧
    (one cfg0 (beforeSettle i) [.turn 0, .turn 0] [true] []).okDraw = true := by decide

theorem witness_BacklightThenActive :
    (one cfg0 (running (.at .step10) (jobOf .enable false [.blOn, .finish])) [.turn 0, .turn 0] [] []).inputs =
      .turn 0 :: .turn 0 :: [] ∧
    (one cfg0 (running (.at .step10) (jobOf .enable false [.blOn, .finish])) [.turn 0, .turn 0] [] []).devs[0]? =
      some (running (.at .step10) (jobOf .enable false [.blOn, .finish])) ∧
    (running (.at .step10) (jobOf .enable false [.blOn, .finish])).gone = false ∧
    (running (.at .step10) (jobOf .enable false [.blOn, .finish])).job = some (jobOf .enable false [.blOn, .finish]) ∧
    (jobOf .enable false [.blOn, .finish]).todo = [.blOn, .finish] := ⟨rfl, rfl, rfl, rfl, rfl⟩

/-- The state of the whole ENABLE of the small frame. -/
abbrev enabling (oks : List Bool) (resets : List ResetResult) (n : Nat) : State :=
  small dev0 (.request 0 enableBytes :: turns 0 n []) oks resets

theorem witness_EnableRunInitializesPaintsAndLights : decodeRequest enableBytes = .ok (.enable none src5) ∧
    (enabling (trues 22) [.needsInit] 29).inputs = .request 0 enableBytes :: turns 0 (26 + cfgSmall.pwrSeq.length) [] ∧
    (enabling (trues 22) [.needsInit] 29).devs[0]? = some dev0 ∧ dev0.gone = false ∧ dev0.job = none ∧
    (⟨0, 0, 4, 4⟩ : Region) = (none : Option Region).getD (fullFrame cfgSmall) ∧
    (⟨0, 0, 4, 4⟩ : Region).Valid cfgSmall dev0.left dev0.top ∧ (∀ k, src5.fmt ≠ .other k) ∧
    (enabling (trues 22) [.needsInit] 29).resetDraw = .needsInit ∧
    (enabling (trues 22) [.needsInit] 29).AllOk (19 + cfgSmall.pwrSeq.length) :=
  ⟨rfl, rfl, rfl, rfl, rfl, rfl, by decide, nofun, rfl, small_allOk _ _ _ 22⟩

theorem witness_EnableRunSkipsWhenRetained : decodeRequest enableBytes = .ok (.enable none src5) ∧
    (enabling (trues 5) [.retained] 10).inputs = .request 0 enableBytes :: turns 0 10 [] ∧
    (enabling (trues 5) [.retained] 10).devs[0]? = some dev0 ∧ dev0.gone = false ∧ dev0.job = none ∧
    (⟨0, 0, 4, 4⟩ : Region) = (none : Option Region).getD (fullFrame cfgSmall) ∧
    (⟨0, 0, 4, 4⟩ : Region).Valid cfgSmall dev0.left dev0.top ∧ (∀ k, src5.fmt ≠ .other k) ∧
    (enabling (trues 5) [.retained] 10).resetDraw = .retained ∧ (enabling (trues 5) [.retained] 10).AllOk 5 :=
  ⟨rfl, rfl, rfl, rfl, rfl, rfl, by decide, nofun, rfl, small_allOk _ _ _ 5⟩

theorem witness_EnableAlwaysReturns : decodeRequest enableBytes = .ok (.enable none src5) ∧
    (enabling [true, false] [.needsInit] 29).inputs = .request 0 enableBytes :: turns 0 (26 + cfgSmall.pwrSeq.length) [] ∧
    (enabling [true, false] [.needsInit] 29).devs[0]? = some dev0 ∧ dev0.gone = false ∧ dev0.job = none ∧
    ((none : Option Region).getD (fullFrame cfgSmall)).Valid cfgSmall dev0.left dev0.top :=
  ⟨rfl, rfl, rfl, rfl, rfl, by decide⟩

theorem witness_UpdateStartsTheFlush : (small dev0 [] [] []).dev? = some dev0 ∧ dev0.gone = false ∧ dev0.job = none ∧
    (⟨0, 0, 4, 4⟩ : Region).Valid cfgSmall dev0.left dev0.top ∧ (⟨3, 3, 4, 4⟩ : Region).Valid cfgSmall dev0.left dev0.top :=
  ⟨rfl, rfl, rfl, by decide, by decide⟩

theorem witness_BadRegionFaults : (small dev0 [] [] []).dev? = some dev0 ∧ dev0.gone = false ∧ dev0.job = none ∧
    ¬ (⟨0, 0, 5, 4⟩ : Region).Valid cfgSmall dev0.left dev0.top ∧ ¬ (⟨0, 0, 0, 4⟩ : Region).Valid cfgSmall dev0.left dev0.top ∧
    (small { running (.at .step9) (jobOf .enable false [.paint, .blOn]) with left := 3 } [.turn 0] [] []).inputs = .turn 0 :: [] ∧
    (small { running (.at .step9) (jobOf .enable false [.paint, .blOn]) with left := 3 } [.turn 0] [] []).devs[0]? =
      some { running (.at .step9) (jobOf .enable false [.paint, .blOn]) with left := 3 } ∧
    (running (.at .step9) (jobOf .enable false [.paint, .blOn])).gone = false ∧
    (running (.at .step9) (jobOf .enable false [.paint, .blOn])).job = some (jobOf .enable false [.paint, .blOn]) ∧
    (jobOf .enable false [.paint, .blOn]).todo = .paint :: [.blOn] ∧
    ¬ (jobOf .enable false [.paint, .blOn]).region.Valid cfgSmall 3 0 :=
  ⟨rfl, rfl, rfl, by decide, by decide, rfl, rfl, rfl, rfl, rfl, by decide⟩

/-- The state of a whole UPDATE. -/
abbrev updating (d : Device) (bytes : List Byte) (oks : List Bool) (n : Nat) : State :=
  small d (.request 0 bytes :: turns 0 n []) oks []

theorem witness_UpdateRunSendsWindowAndBurst : decodeRequest updateBytes = .ok (.update ⟨0, 0, 2, 2⟩ src4) ∧
    (updating dev0 updateBytes (trues 4) 5).inputs = .request 0 updateBytes :: turns 0 5 [] ∧
    (updating dev0 updateBytes (trues 4) 5).devs[0]? = some dev0 ∧ dev0.gone = false ∧ dev0.job = none ∧
    (⟨0, 0, 2, 2⟩ : Region).Valid cfgSmall dev0.left dev0.top ∧ (∀ k, src4.fmt ≠ .other k) ∧
    (updating dev0 updateBytes (trues 4) 5).AllOk 4 := ⟨rfl, rfl, rfl, rfl, rfl, by decide, nofun, small_allOk _ _ _ 4⟩

/-- The first and the last of the four bus calls answered false. -/
theorem witness_UpdateStopsAtTheFirstFailure : decodeRequest updateBytes = .ok (.update ⟨0, 0, 2, 2⟩ src4) ∧
    (updating dev0 updateBytes [false] 5).inputs = .request 0 updateBytes :: turns 0 5 [] ∧
    (updating dev0 updateBytes [false] 5).devs[0]? = some dev0 ∧ dev0.gone = false ∧ dev0.job = none ∧
    (⟨0, 0, 2, 2⟩ : Region).Valid cfgSmall dev0.left dev0.top ∧ (∀ k, src4.fmt ≠ .other k) ∧
    (updating dev0 updateBytes [false] 5).AllOk 0 ∧
    (updating dev0 updateBytes [false] 5).env.ok.peekAt Config.freeOk 0 = false ∧
    (flushEvents cfgSmall dev0 ⟨0, 0, 2, 2⟩ src4 (updating dev0 updateBytes [false] 5).env)[0]? =
      some (.cmd 0x2A [0, 0, 0, 1] true) ∧
    (updating dev0 updateBytes [true, true, true, false] 5).AllOk 3 ∧
    (updating dev0 updateBytes [true, true, true, false] 5).env.ok.peekAt Config.freeOk 3 = false ∧
    (flushEvents cfgSmall dev0 ⟨0, 0, 2, 2⟩ src4 (updating dev0 updateBytes [true, true, true, false] 5).env)[3]? =
      some (.data [0xF8, 0x00, 0x00, 0x00, 0xFC, 0x00, 0x00, 0x00, 0xF8, 0x10, 0x44, 0xA0] true) :=
  ⟨rfl, rfl, rfl, rfl, rfl, by decide, nofun, nofun, rfl, rfl, by unfold State.AllOk; decide, rfl, rfl⟩

theorem witness_UnsupportedFormatSendsNothing :
    decodeRequest [0x03, 0x00, 0x00, 0x00, 0x00, 0x09, 0x00, 0x00] = .ok (.update ⟨0, 0, 1, 1⟩ ⟨.other 7, 0, []⟩) ∧
    (updating dev0 [0x03, 0x00, 0x00, 0x00, 0x00, 0x09, 0x00, 0x00] [] 1).inputs =
      .request 0 [0x03, 0x00, 0x00, 0x00, 0x00, 0x09, 0x00, 0x00] :: turns 0 1 [] ∧
    (updating dev0 [0x03, 0x00, 0x00, 0x00, 0x00, 0x09, 0x00, 0x00] [] 1).devs[0]? = some dev0 ∧ dev0.gone = false ∧
    dev0.job = none ∧ (⟨0, 0, 1, 1⟩ : Region).Valid cfgSmall dev0.left dev0.top ∧
    (⟨.other 7, 0, []⟩ : SrcDesc).fmt = .other 7 := ⟨rfl, rfl, rfl, rfl, rfl, by decide, rfl⟩

theorem witness_PathChoiceShowsInTheCount : decodeRequest fastBytes = .ok (.update ⟨0, 0, 4, 4⟩ srcFast) ∧
    (updating dev0 fastBytes [] 5).inputs = .request 0 fastBytes :: turns 0 5 [] ∧
    (updating dev0 fastBytes [] 5).devs[0]? = some dev0 ∧ dev0.gone = false ∧ dev0.job = none ∧
    (⟨0, 0, 4, 4⟩ : Region) = fullFrame cfgSmall ∧ (⟨0, 0, 4, 4⟩ : Region).Valid cfgSmall dev0.left dev0.top ∧
    srcFast.fmt = .rgb565 ∧ dev0.swap = false ∧ dev0.hasDc = true ∧
    decodeRequest ([0x03, 0x00, 0x00, 0x06, 0x06, 0x01, 0x10, 0x40] ++ src5.bytes) = .ok (.update ⟨0, 0, 4, 4⟩ src5) ∧
    src5.fmt = .xrgb8888 := ⟨rfl, rfl, rfl, rfl, rfl, rfl, by decide, rfl, rfl, rfl, rfl, rfl⟩

/-- On the fast path, and on the copy path. -/
theorem witness_RepeatedUpdateRepeatsItsEvents : decodeRequest fastBytes = .ok (.update ⟨0, 0, 4, 4⟩ srcFast) ∧
    decodeRequest updateBytes = .ok (.update ⟨0, 0, 2, 2⟩ src4) ∧
    (small dev0 (.request 0 fastBytes :: turns 0 5 (.request 0 fastBytes :: turns 0 5 [])) (trues 8) []).devs[0]? = some dev0 ∧
    dev0.gone = false ∧ dev0.job = none ∧ (⟨0, 0, 4, 4⟩ : Region).Valid cfgSmall dev0.left dev0.top ∧
    (⟨0, 0, 2, 2⟩ : Region).Valid cfgSmall dev0.left dev0.top ∧ (∀ k, srcFast.fmt ≠ .other k) ∧ (∀ k, src4.fmt ≠ .other k) ∧
    FlushMapped cfgSmall dev0 ⟨0, 0, 4, 4⟩ srcFast ∧ FlushMapped cfgSmall dev0 ⟨0, 0, 2, 2⟩ src4 ∧
    (small dev0 (.request 0 fastBytes :: turns 0 5 (.request 0 fastBytes :: turns 0 5 [])) (trues 8) []).AllOk 8 := by
  refine ⟨rfl, rfl, rfl, rfl, rfl, by decide, by decide, nofun, nofun, ?_, ?_, small_allOk _ _ _ 8⟩
  · show 48 ≤ 48
    decide
  · intro bpp h y hy
    cases h
    revert y
    decide

theorem witness_ConversionPlacesEveryPixel : bytesPerPixel src4.fmt = some 2 ∧ bytesPerPixel src5.fmt = some 4 ∧
    ((0 : Int) ≤ 0 ∧ (0 : Int) < 2) ∧ ((0 : Int) ≤ 3 ∧ (3 : Int) < 4) ∧
    (∀ y, y < (2 : Int).toNat → srcOff src4 2 (2 : Int).toNat y ≤ src4.len) ∧
    (∀ y, y < (4 : Int).toNat → srcOff src5 4 (4 : Int).toNat y ≤ src5.len) ∧ 1 < (⟨0, 0, 2, 2⟩ : Region).width ∧
    0 < (⟨3, 3, 4, 4⟩ : Region).height ∧ src4.fmt = .rgb565 ∧ src5.fmt = .xrgb8888 := by decide

theorem witness_ConversionWritesOnlyItsBytes :
    (small (running .idle (jobOf .update true [.convert, .data])) [.turn 0] [] []).inputs = .turn 0 :: [] ∧
    (small (running .idle (jobOf .update true [.convert, .data])) [.turn 0] [] []).devs[0]? =
      some (running .idle (jobOf .update true [.convert, .data])) ∧
    (running .idle (jobOf .update true [.convert, .data])).gone = false ∧
    (running .idle (jobOf .update true [.convert, .data])).job = some (jobOf .update true (.convert :: [.data])) ∧
    (running .idle (jobOf .update true [.convert, .data])).wb.wf ∧
    (jobOf .update true [.convert, .data]).region.Valid cfgSmall 0 0 ∧
    convertRegion cfgSmall.expand src4 [] ⟨0, 0, 2, 2⟩ false Env.fresh =
      some ([0xF8, 0x00, 0x00, 0x00, 0xFC, 0x00, 0x00, 0x00, 0xF8, 0x10, 0x44, 0xA0], Env.fresh) :=
  ⟨rfl, rfl, rfl, rfl, by decide, by decide, rfl⟩

theorem witness_ReadsGiveTheMappedBytes : 8 ≤ src4.len - 0 ∧ src4.len - 6 ≤ 3 ∧ src4.len - 9 ≤ 0 := by decide

theorem witness_RacedByteIsOldOrWritten : (1, (0x99 : Byte)) ∈ [(1, (0x99 : Byte)), (0, 0x11)] := by decide

/-- Of the eight mapped bytes the last is written, and offset 8 is the first past them: in a flush, before one, and without
a running request. -/
theorem witness_HostWriteReachesTheRunningRequest : (one cfg0 atPaintData [.hostWrite 0 7 0x99] [] []).inputs =
      .hostWrite 0 7 0x99 :: [] ∧
    (one cfg0 atPaintData [.hostWrite 0 7 0x99] [] []).devs[0]? = some atPaintData ∧
    atPaintData.job = some (jobOf .enable true [.data, .blOn, .finish]) ∧
    7 < (jobOf .enable true [.data, .blOn, .finish]).src.len ∧
    (jobOf .enable true [.data, .blOn, .finish]).flushing = true ∧
    (jobOf .enable true [.data, .blOn, .finish]).src.len ≤ 8 ∧
    (one cfg0 (before9 .r0) [.hostWrite 0 7 0x99] [] []).devs[0]? = some (before9 .r0) ∧
    (before9 .r0).job = some (jobOf .enable false [.addrMode, .finish]) ∧
    7 < (jobOf .enable false [.addrMode, .finish]).src.len ∧
    (jobOf .enable false [.addrMode, .finish]).flushing = false ∧
    (one cfg0 dev0 [.hostWrite 0 7 0x99] [] []).devs[0]? = some dev0 ∧ dev0.job = none := by decide

/-- The whole frame, its last pixel, and a negative offset. -/
theorem witness_WindowCoordinatesAreExact : (⟨0, 0, 320, 480⟩ : Region).Valid cfg0 0 0 ∧
    (⟨319, 479, 320, 480⟩ : Region).Valid cfg0 0 0 ∧ (⟨5, 0, 10, 1⟩ : Region).Valid cfg0 (-5) 0 ∧ cfg0.panelW ≤ 65536 ∧
    cfg0.panelH ≤ 65536 := by decide

theorem witness_CommandIsOneTransaction : (at0 atDispoff [true]).dev? = some atDispoff ∧
    (at0 atDispoff [true]).okDraw = true ∧ Instr.ramwr.isCommand = true := by decide

theorem witness_CommandFrame : Instr.dispoff.isCommand = true ∧
    (look (exec .dispoff (at0 atDispoff [false])) fun _ => ()) = some () := by decide

/-- A removed device whose engine still runs a request, both draws. -/
theorem witness_RemovedRequestStopsOrGoesOn :
    (one cfg0 { atDispoff with gone := true } [.turn 0] [] []).inputs = .turn 0 :: [] ∧
    (one cfg0 { atDispoff with gone := true } [.turn 0] [] []).devs[0]? = some { atDispoff with gone := true } ∧
    atDispoff.job = some (jobOf .enable false [.cmd (some .step2) .dispoff, .finish]) ∧
    State.goOnDraw { at0 { atDispoff with gone := true } [] with env := { Env.fresh with goOn := ⟨[false], 0⟩ } } = false ∧
    State.goOnDraw { at0 { atDispoff with gone := true } [] with env := { Env.fresh with goOn := ⟨[true], 0⟩ } } = true := by
  decide

/-- A state that meets every invariant and takes a step: one device, bound, about to be enabled. -/
abbrev settled : State := one cfg0 dev0 [.request 0 [0x02, 0x00, 0x00, 0x00, 0x00]] [] []

theorem witness_StepKeepsCanonicalForm : settled.Canonical ∧ (look (step settled) fun _ => ()) = some () := by decide

theorem witness_StepKeepsReferencesCounted : settled.Canonical ∧ settled.RefsCounted := by
  refine ⟨by decide, fun id => ?_⟩
  by_cases h : id = 5
  · subst h
    rfl
  · simp [one, Backlights.get, Table.find, dev0, freshDevice, Ne.symm h]

theorem witness_StepKeepsWireBufferBounds : (one cfgSmall { dev0 with wb := [(0, 1), (47, 2)] } [] [] []).WireBounded ∧
    (look (step settled) fun _ => ()) = some () := by decide

theorem witness_StepKeepsSequencerTracked : settled.Tracked ∧ atReset.Tracked ∧
    (running .idle (jobOf .update true [.convert, .data])).Tracked := by
  refine ⟨?_, ?_, ?_⟩
  · intro d hd
    obtain rfl : d = dev0 := by simpa [one] using hd
    exact ⟨rfl, fun _ => rfl⟩
  · exact ⟨by decide, rfl⟩
  · exact ⟨rfl, fun _ => rfl, by decide⟩

/-- A device that sent a burst before, and one whose engine is about to send one. -/
theorem witness_StepKeepsBurstsOpened : settled.Opened ∧
    Device.Opened cfg0
      { running .idle (jobOf .update true [.data]) with
        trace := [.cmd 0x2A [0, 0, 0, 1] true, .cmd 0x2B [0, 0, 0, 1] true, .cmd 0x2C [] true] } := by
  refine ⟨?_, ?_, ?_⟩
  · intro d hd
    obtain rfl : d = dev0 := by simpa [one] using hd
    refine ⟨?_, by simp [dev0, freshDevice]⟩
    intro before bytes ok after h
    simp [dev0, freshDevice] at h
  · intro before bytes ok after h
    have hm : Event.data bytes ok ∈
        [Event.cmd 0x2A [0, 0, 0, 1] true, .cmd 0x2B [0, 0, 0, 1] true, .cmd 0x2C [] true] := by
      have h' : [Event.cmd 0x2A [0, 0, 0, 1] true, .cmd 0x2B [0, 0, 0, 1] true, .cmd 0x2C [] true] =
        before ++ .data bytes ok :: after := h
      rw [h']
      simp
    simp at hm
  · intro j hj
    obtain rfl : jobOf .update true [.data] = j := Option.some.inj hj
    exact ⟨[], nofun, .inr (.inr (.inr (.inr ⟨rfl, [], [0, 0, 0, 1], [0, 0, 0, 1], rfl, rfl, rfl⟩)))⟩

theorem witness_StepKeepsBindTimeValues : (look (step settled) fun _ => ()) = some () ∧ settled.devs[0]? = some dev0 := by
  decide

theorem witness_StepAppendsAtMostOneEvent : (look (step (one cfg0 atDispoff [.turn 0] [true] [])) fun _ => ()) = some () ∧
    (one cfg0 atDispoff [.turn 0] [true] []).devs[0]? = some atDispoff := by decide

theorem witness_TurnTouchesOneDevice : (one cfg0 atDispoff [.turn 0] [true] []).inputs = .turn 0 :: [] ∧
    (look (step (one cfg0 atDispoff [.turn 0] [true] [])) fun _ => ()) = some () ∧ atDispoff.bl ≠ 6 := by decide

theorem witness_OnlyShutdownTurnsALineOff :
    (Backlights.get ⟨false, [(5, ⟨true, 1⟩)]⟩ 5).on = true ∧
    (look (step { one cfg0 dev0 [.request 0 [0x06]] [] [] with blk := ⟨false, [(5, ⟨true, 1⟩)]⟩ }) fun t => (t.blk.get 5).on) =
      some false := by decide

theorem witness_OnlyEnableTurnsALineOn :
    (running (.at .step10) (jobOf .enable false [.blOn, .finish])).Tracked ∧
    (one cfg0 (running (.at .step10) (jobOf .enable false [.blOn, .finish])) [.turn 0] [] []).devs =
      [running (.at .step10) (jobOf .enable false [.blOn, .finish])] ∧
    ((one cfg0 (running (.at .step10) (jobOf .enable false [.blOn, .finish])) [.turn 0] [] []).blk.get 5).on = false ∧
    (look (step (one cfg0 (running (.at .step10) (jobOf .enable false [.blOn, .finish])) [.turn 0] [] [])) fun t =>
      (t.blk.get 5).on) = some true := ⟨⟨by decide, rfl⟩, rfl, by decide, by decide⟩

theorem witness_UpdateNeverChangesDeviceState :
    (one cfg0 (running .idle (jobOf .update true [.data])) [.turn 0] [false] []).inputs = .turn 0 :: [] ∧
    (look (step (one cfg0 (running .idle (jobOf .update true [.data])) [.turn 0] [false] [])) fun _ => ()) = some () ∧
    (one cfg0 (running .idle (jobOf .update true [.data])) [.turn 0] [false] []).devs[0]? =
      some (running .idle (jobOf .update true [.data])) ∧
    (running .idle (jobOf .update true [.data])).Tracked ∧
    (running .idle (jobOf .update true [.data])).job = some (jobOf .update true [.data]) ∧
    (jobOf .update true [.data]).req = .update ∧ (jobOf .update true [.data]).flushing = true :=
  ⟨rfl, by decide, rfl, ⟨rfl, fun _ => rfl, by decide⟩, rfl, rfl, rfl⟩

end Sys2Proof.Tests
end

section
/-! PROOFS. What a read of source memory gives when nobody writes the source (R27): byte by byte, and how many draws it
takes. -/

namespace Sys2Proof.Machine

open Sys2Proof

/-! ## Draws -/

/-- The draw after no others is the next one. -/
theorem Oracle.peekAt_zero {α : Type} (free : Nat → α) (o : Oracle α) : o.peekAt free 0 = o.peek free := by
  simp [Oracle.peekAt, Oracle.peek, List.head?_eq_getElem?]

/-- Taking one draw moves the numbering of the later ones by one. -/
theorem Oracle.next_peekAt {α : Type} (free : Nat → α) (o : Oracle α) (k : Nat) :
    o.next.peekAt free k = o.peekAt free (k + 1) := by
  simp [Oracle.peekAt, Oracle.next, Nat.add_assoc, Nat.add_comm 1 k]

/-! ## Reads of a source nobody writes -/

/-- The first byte of a read is mapped: it is read as it is, and the draws are left to the bytes after it. -/
theorem readBytes_succ_cons (n off : Nat) (b : Byte) (rest : List Byte) (e : Env) :
    readBytes [] (n + 1) off (b :: rest) e =
      (b :: (readBytes [] n (off + 1) rest e).1, (readBytes [] n (off + 1) rest e).2) := rfl

/-- The first byte of a read is past the mapped memory: it is the next draw, whoever writes the source. -/
theorem readBytes_succ_nil (raced : List (Nat × Byte)) (n off : Nat) (e : Env) :
    readBytes raced (n + 1) off [] e =
      (e.byte.peek Config.freeByte :: (readBytes raced n (off + 1) [] { e with byte := e.byte.next }).1,
        (readBytes raced n (off + 1) [] { e with byte := e.byte.next }).2) := rfl

/-- A byte of a read is the mapped byte at its place, and past the mapped bytes the draw numbered from their end. -/
theorem readBytes_getElem? {n k : Nat} (hk : k < n) (off : Nat) (rest : List Byte) (e : Env) :
    (readBytes [] n off rest e).1[k]? =
      if k < rest.length then rest[k]? else some (e.byte.peekAt Config.freeByte (k - rest.length)) := by
  induction n generalizing k off rest e with
  | zero => exact absurd hk (Nat.not_lt_zero k)
  | succ n ih =>
    cases rest with
    | nil =>
      rw [readBytes_succ_nil]
      cases k with
      | zero => simp [Oracle.peekAt_zero]
      | succ k => simp [ih (Nat.lt_of_succ_lt_succ hk), Oracle.next_peekAt]
    | cons b rest =>
      rw [readBytes_succ_cons]
      cases k with
      | zero => simp
      | succ k => simp [ih (Nat.lt_of_succ_lt_succ hk)]

/-- A read draws one source byte for each byte past the mapped ones. -/
theorem readBytes_drawn (n off : Nat) (rest : List Byte) (e : Env) :
    (readBytes [] n off rest e).2.byte.drawn = e.byte.drawn + (n - rest.length) := by
  induction n generalizing off rest e with
  | zero => simp [readBytes]
  | succ n ih =>
    cases rest with
    | nil =>
      rw [readBytes_succ_nil, ih]
      simp [Oracle.next, Nat.add_assoc, Nat.add_comm 1 n]
    | cons b rest =>
      rw [readBytes_succ_cons, ih]
      simp

/-- Byte `k` of a `MemRead`, by whether its offset is mapped. -/
theorem memRead_getElem? {n k : Nat} (hk : k < n) (S : SrcDesc) (off : Nat) (e : Env) :
    (memRead S [] off n e).1[k]? =
      if off + k < S.len then S.bytes[off + k]?
      else some (e.byte.peekAt Config.freeByte (k - (S.len - off))) := by
  have hmapped : k < S.bytes.length - off ↔ off + k < S.len := by
    rw [SrcDesc.len]
    omega
  rw [memRead, readBytes_getElem? hk, List.length_drop, List.getElem?_drop]
  by_cases h : off + k < S.len
  · rw [if_pos h, if_pos (hmapped.mpr h)]
  · rw [if_neg h, if_neg (fun hm => h (hmapped.mp hm)), SrcDesc.len]

/-- A `MemRead` draws one source byte for each offset past the mapped memory. -/
theorem memRead_drawn (S : SrcDesc) (off n : Nat) (e : Env) :
    (memRead S [] off n e).2.byte.drawn = e.byte.drawn + (n - (S.len - off)) := by
  rw [memRead, readBytes_drawn, List.length_drop, SrcDesc.len]

/-- Settles O37: by induction on the number of bytes read, along the mapped bytes that are left. -/
theorem readsGiveTheMappedBytes : Obligations.ReadsGiveTheMappedBytes := by
  intro S off n e
  refine ⟨memRead_length S [] off n e, fun k hk => memRead_getElem? hk S off e, fun h => ?_, fun _ => ?_⟩
  · rw [memRead_mapped h]
  · exact memRead_drawn S off n e

end Sys2Proof.Machine
end

section
/-! PROOFS. The end of an ENABLE: the backlight step and the completion after it (R118, R120). -/

namespace Sys2Proof.Machine

open Sys2Proof

/-! ## The backlight table under `BlEnable` (R146) -/

/-- The enabled line is on, with the references it had. -/
@[simp] theorem Backlights.get_enable_same (b : Backlights) (id : BacklightId) :
    (b.enable id).get id = ⟨true, (b.get id).refs⟩ :=
  b.get_set_same id _

/-- Another line is not changed. -/
theorem Backlights.get_enable_ne (b : Backlights) {id n : BacklightId} (h : n ≠ id) :
    (b.enable id).get n = b.get n :=
  b.get_set_ne h _

/-! ## The last two turns of an ENABLE -/

/-- The backlight turn and the completion, one after the other. -/
theorem runSteps_blOn_finish {s : State} {n : Nat} {rest : List Input} {d : Device} {j : Job}
    (hi : s.inputs = .turn n :: .turn n :: rest) (hn : s.devs[n]? = some d) (hg : d.gone = false)
    (hj : d.job = some j) (ht : j.todo = [.blOn, .finish]) :
    ∃ t, runSteps 2 s = .next t ∧
      t.devs = s.devs.set n
        { d with st := .active, seq := .idle, job := none, trace := d.trace ++ [.blOn d.bl] } ∧
      t.blk = s.blk.enable d.bl ∧ t.returns = s.returns ++ [⟨some n, .ok⟩] := by
  obtain ⟨u, hsu, hui, -, hublk, -, huret, hudevs⟩ := turn_blOn hi hn hg hj ht
  have hun : u.devs[n]? =
      some { d with trace := d.trace ++ [.blOn d.bl], job := some { j with todo := [.finish] } } := by
    obtain ⟨hlt, -⟩ := List.getElem?_eq_some_iff.mp hn
    simp [hudevs, hlt]
  obtain ⟨t, hst, -, -, htblk, -, htret, htdevs⟩ := turn_finish hui hun hg rfl rfl
  refine ⟨t, ?_, ?_, htblk.trans hublk, ?_⟩
  · exact (runSteps_add (runSteps_one hsu)).trans (runSteps_one hst)
  · rw [htdevs, hudevs, List.set_set]
  · rw [htret, huret]

/-- Settles O22: the two turns write the backlight table only by `BlEnable` of the device's own line. -/
theorem backlightThenActive : Obligations.BacklightThenActive := by
  intro s n rest d j hi hn hg hj ht
  obtain ⟨t, hrun, hdevs, hblk, hret⟩ := runSteps_blOn_finish hi hn hg hj ht
  refine ⟨t, hrun, hdevs, ?_, fun id hid => ?_, hret⟩
  · rw [hblk, Backlights.get_enable_same]
  · rw [hblk, Backlights.get_enable_ne _ hid]

end Sys2Proof.Machine
end

section
/-! PROOFS. The lifecycle requests: a BIND that creates nothing (R123, R124), DISABLE (R126) and REMOVE (R127). -/

namespace Sys2Proof.Machine

open Sys2Proof

/-! ## A request to a bound device (R139) -/

/-- A removed device answers OK, whatever the request. -/
theorem onDevice_gone {s : State} {d : Device} (hd : s.dev? = some d) (hg : d.gone = true)
    (k : Device → Host.Outcome State Fault Refusal) : onDevice s k = .next (s.answer .ok) := by
  simp only [onDevice, hd, hg, if_true]

/-- An idle device that is not removed does what the request says. -/
theorem onDevice_idle {s : State} {d : Device} (hd : s.dev? = some d) (hg : d.gone = false) (hj : d.job = none)
    (k : Device → Host.Outcome State Fault Refusal) : onDevice s k = k d := by
  simp [onDevice, hd, hg, hj]

/-! ## BIND without a device -/

/-- No rotation but the four legal ones has a record value (R123). -/
theorem rotationOf_eq_none {rot : Int} (h0 : rot ≠ 0) (h90 : rot ≠ 90) (h180 : rot ≠ 180) (h270 : rot ≠ 270) :
    rotationOf rot = none := by
  rw [rotationOf, if_neg h0, if_neg h90, if_neg h180, if_neg h270]

/-- A failed allocation ends BIND before the rotation is looked at (R122, R124). -/
theorem exec_bind_allocFailure {s : State} (h : s.allocDraw = false) (rot left top : Int) (swap hasDc : Bool)
    (bl : BacklightId) :
    exec (.bind rot left top swap hasDc bl) s =
      .next ({ s with env := { s.env with alloc := s.env.alloc.next } }.answerPlatform .allocFailure) := by
  simp [exec, execBind, h]

/-- A rotation that is not legal ends BIND after the allocation (R122, R123). -/
theorem exec_bind_configError {s : State} (h : s.allocDraw = true) {rot : Int} (hr : rotationOf rot = none)
    (left top : Int) (swap hasDc : Bool) (bl : BacklightId) :
    exec (.bind rot left top swap hasDc bl) s =
      .next ({ s with env := { s.env with alloc := s.env.alloc.next } }.answerPlatform .configError) := by
  simp [exec, execBind, h, hr]

/-- Settles O9: the rotation is refused before the record is added and the line attached. -/
theorem bindRefusesOtherRotations : Obligations.BindRefusesOtherRotations := by
  intro s rot left top swap hasDc bl ha h0 h90 h180 h270
  have hr := rotationOf_eq_none h0 h90 h180 h270
  exact ⟨_, exec_bind_configError ha hr left top swap hasDc bl, rfl, rfl, rfl, rfl, rfl, rfl⟩

/-- Settles O10: the allocation comes before every use of the operands. -/
theorem bindAllocationFailsFirst : Obligations.BindAllocationFailsFirst := by
  intro s rot left top swap hasDc bl ha
  exact ⟨_, exec_bind_allocFailure ha rot left top swap hasDc bl, rfl, rfl, rfl, rfl, rfl, rfl⟩

/-! ## DISABLE -/

/-- Settles O11: the one write is of the current device's record. -/
theorem disableWritesOnlyTheState : Obligations.DisableWritesOnlyTheState := by
  refine ⟨fun s d hd hg hj => ?_, fun s d hd hg => onDevice_gone hd hg _⟩
  have hdevs := State.modDev_devs_set hd fun d => { d with st := .disabled }
  exact ⟨_, onDevice_idle hd hg hj _, hdevs, rfl, rfl, rfl, rfl, rfl, rfl⟩

/-! ## REMOVE -/

/-- The released line has one reference less and is on or off as before (R127). -/
@[simp] theorem Backlights.get_release_same (b : Backlights) (id : BacklightId) :
    (b.release id).get id = ⟨(b.get id).on, (b.get id).refs - 1⟩ :=
  b.get_set_same id _

/-- Another line is not changed. -/
theorem Backlights.get_release_ne (b : Backlights) {id n : BacklightId} (h : n ≠ id) :
    (b.release id).get n = b.get n :=
  b.get_set_ne h _

/-- A second removal only answers OK. -/
theorem exec_remove_gone {s : State} {d : Device} (hd : s.dev? = some d) (hg : d.gone = true) :
    exec .remove s = .next (s.answer .ok) := by
  simp only [exec, execRemove, hd, hg, if_true]

/-- A first removal releases the line and marks the device, whatever its engine does (R143). -/
theorem exec_remove_bound {s : State} {d : Device} (hd : s.dev? = some d) (hg : d.gone = false) :
    exec .remove s =
      .next (({ s with blk := s.blk.release d.bl }.modDev fun d =>
        { d with gone := true, st := .disabled }).answer .ok) := by
  simp [exec, execRemove, hd, hg]

/-- Settles O12: the release writes the one line and keeps its `on`, and the record is written at its place. -/
theorem removeReleasesTheLine : Obligations.RemoveReleasesTheLine := by
  refine ⟨fun s d hd hg => ?_, fun s d hd hg => exec_remove_gone hd hg⟩
  have hdevs := State.modDev_devs_set (s := { s with blk := s.blk.release d.bl }) hd fun d =>
    { d with gone := true, st := .disabled }
  exact ⟨_, exec_remove_bound hd hg, hdevs, s.blk.get_release_same d.bl, fun id hid => s.blk.get_release_ne hid,
    rfl, rfl, rfl, rfl, rfl⟩

end Sys2Proof.Machine
end

section
/-! PROOFS. Stops and the answer of a removed device: reserved tags and unbound devices (R138), a request that finds its
device removed (R134), and a flush whose region is not valid (R137). -/

namespace Sys2Proof.Machine

open Sys2Proof

/-! ## A request to a device that is removed or was never bound -/

/-- Every request to a device answers OK when the device is removed, whatever its engine does. -/
theorem exec_gone {s : State} {d : Device} {i : Instr} (hd : s.dev? = some d) (hg : d.gone = true)
    (hw : requestWaits i = true) : exec i s = .next (s.answer .ok) := by
  cases i with
  | enable | update | disable => exact onDevice_gone hd hg _
  | remove => exact exec_remove_gone hd hg
  | _ => cases hw

/-- Settles O14: the guard of each of the four requests comes before everything else they do. -/
theorem removedDeviceAnswersOk : Obligations.RemovedDeviceAnswersOk :=
  fun _ _ _ hd hg hw => exec_gone hd hg hw

/-- A request to a device needs the device to be bound. -/
theorem onDevice_unbound {s : State} (hd : s.dev? = none) (k : Device → Host.Outcome State Fault Refusal) :
    onDevice s k = .refused (.unboundDevice s.cur) := by
  simp only [onDevice, hd]

/-- Every request to a device is refused when the device was never bound. -/
theorem exec_unbound {s : State} {i : Instr} (hd : s.dev? = none) (hw : requestWaits i = true) :
    exec i s = .refused (.unboundDevice s.cur) := by
  cases i with
  | enable | update | disable => exact onDevice_unbound hd _
  | remove => simp only [exec, execRemove, hd]
  | _ => cases hw

/-! ## The request at the head of the inputs -/

/-- A refusal ends every run that begins with it. -/
theorem runSteps_refused {s : State} {r : Refusal} (h : step s = .refused r) (k : Nat) :
    runSteps (k + 1) s = .refused r := by
  simp only [runSteps, h]

/-- The tags 0x0 and 0x7 to 0xF are reserved, whatever follows them (R54). -/
theorem decodeRequest_reserved {tag : Byte} (h : tag.toNat = 0 ∨ (7 ≤ tag.toNat ∧ tag.toNat ≤ 15))
    (ops : List Byte) : decodeRequest (tag :: ops) = .error (.reservedTag (tag.setWidth 4)) := by
  simp only [decodeRequest, decodeRequestAt]
  split
  case h_7 => exact if_pos (by omega)
  all_goals omega

/-- Bytes that spell no request are refused. -/
theorem step_request_error {s : State} {d : Nat} {bytes : List Byte} {rest : List Input} {e : DecodeError}
    (hi : s.inputs = .request d bytes :: rest) (hb : decodeRequest bytes = .error e) :
    step s = .refused (refusalOf e) := by
  simp only [step, move, hi, takeRequest, hb]

/-- A request that does not have to wait is run on the device it is addressed to. -/
theorem step_request_ok {s : State} {d : Nat} {bytes : List Byte} {rest : List Input} {i : Instr}
    (hi : s.inputs = .request d bytes :: rest) (hb : decodeRequest bytes = .ok i) (hbusy : s.busy d = false) :
    step s = exec i { s with cur := d, inputs := rest } := by
  simp only [step, move, hi, takeRequest, hb, hbusy, Bool.and_false, Bool.false_eq_true, if_false]

/-- A device that was never bound runs no request. -/
theorem State.busy_unbound {s : State} {n : Nat} (hn : s.devs[n]? = none) : s.busy n = false := by
  simp only [State.busy, hn, Option.bind_none, Option.isSome_none]

/-- A device without a request runs none. -/
theorem State.busy_idle {s : State} {n : Nat} {d : Device} (hn : s.devs[n]? = some d) (hj : d.job = none) :
    s.busy n = false := by
  simp only [State.busy, hn, Option.bind_some, hj, Option.isSome_none]

/-- Settles O7: the two refusals are the first step's outcome, and a removed idle device only answers. -/
theorem reservedAndUnboundAreRefused : Obligations.ReservedAndUnboundAreRefused := by
  refine ⟨?reserved, ?unbound, ?removed⟩
  case reserved =>
    intro s d tag ops rest k hi htag
    exact runSteps_refused (step_request_error hi (decodeRequest_reserved htag ops)) k
  case unbound =>
    intro s d bytes rest i k hi hb hw hn
    have hs := step_request_ok hi hb (State.busy_unbound hn)
    exact runSteps_refused (hs.trans (exec_unbound (s := { s with cur := d, inputs := rest }) hn hw)) k
  case removed =>
    intro s d bytes rest i D hi hb hw hn hg hj
    have hs := step_request_ok hi hb (State.busy_idle hn hj)
    exact ⟨_, hs.trans (exec_gone (s := { s with cur := d, inputs := rest }) hn hg hw), rfl, rfl, rfl, rfl, rfl, rfl⟩

/-! ## A flush whose region is not valid -/

/-- UPDATE on an idle device checks the region before it looks at the source (R87). -/
theorem exec_update_badRegion {s : State} {d : Device} {R : Region} (hd : s.dev? = some d) (hg : d.gone = false)
    (hj : d.job = none) (hv : ¬ R.Valid s.cfg d.left d.top) (S : SrcDesc) :
    exec (.update R S) s = .fault (.badRegion R) :=
  (onDevice_idle hd hg hj _).trans (if_neg hv)

/-- Step 10 of an ENABLE on a device that is not removed checks the region of the request (R117). -/
theorem paintStep_badRegion {s : State} {d : Device} {j : Job} (hd : s.dev? = some d) (hg : d.gone = false)
    (hj : d.job = some j) (hv : ¬ j.region.Valid s.cfg d.left d.top) :
    paintStep s = .fault (.badRegion j.region) := by
  simp only [paintStep, hd, hj, hg, Bool.false_eq_true, if_false, if_neg hv]

/-- Settles O27: the region check of each of the two places where a flush starts. -/
theorem badRegionFaults : Obligations.BadRegionFaults := by
  refine ⟨fun s d R S hd hg hj hv => exec_update_badRegion hd hg hj hv S, ?_⟩
  intro s n rest d j more hi hn hg hj ht hv
  have hpaint := paintStep_badRegion (taken_dev hn rest j more) hg rfl hv
  exact (turn_takes hi hn hg hj ht).trans hpaint

end Sys2Proof.Machine
end

section
/-! PROOFS. Platform reset (R150): no device record, and the backlight table lists no line. -/

namespace Sys2Proof.Machine

open Sys2Proof

/-- A line the table does not list has the record of an unlisted line, with no reference. -/
theorem Backlights.get_unlisted {b : Backlights} {id : BacklightId} (h : ∀ e ∈ b.lines, e.1 ≠ id) :
    b.get id = ⟨b.rest, 0⟩ := by
  rw [Backlights.get, Table.find_none h, Option.getD_none]

/-- No device is bound at platform reset. -/
@[simp] theorem State.reset_devs : State.reset.devs = [] := rfl

/-- Every line is at `BL_INITIAL`, and none is listed. -/
@[simp] theorem State.reset_blk : State.reset.blk = ⟨Config.params.blInitial, []⟩ := rfl

/-- `BL_INITIAL` is decided `false` (D30). -/
@[simp] theorem Config.params_blInitial : Config.params.blInitial = false := rfl

/-- Settles O15: no line is listed at reset, so each has the record of an unlisted line, and `BL_INITIAL` is off. -/
theorem resetHasNoDeviceAndDarkLines : Obligations.ResetHasNoDeviceAndDarkLines := by
  refine ⟨State.reset_devs, fun id => ?_⟩
  have hnone : ∀ e ∈ State.reset.blk.lines, e.1 ≠ id := by simp
  calc State.reset.blk.get id = ⟨State.reset.blk.rest, 0⟩ := Backlights.get_unlisted hnone
    _ = ⟨false, 0⟩ := by rw [State.reset_blk, Config.params_blInitial]

end Sys2Proof.Machine
end

section
/-! PROOFS. Decoder and encoder (30_encoding.md sections 1, 2 and 4): decode undoes encode, and what the decoder accepts
is well-formed and begins with its own tag or opcode. -/

namespace Sys2Proof

/-! ## Decode undoes encode -/

/-- A natural number that ends its operand record is read back. -/
theorem takeNat_encodeNat_end (name : String) (n : Nat) : takeNat name (encodeNat n) = .ok (n, []) := by
  simpa using takeNat_encodeNat name n []

/-- A source descriptor that ends its operand record is read back. -/
theorem takeSrc_encodeSrc_end (S : SrcDesc) : takeSrc (encodeSrc S) = .ok (S, []) := by
  simpa using takeSrc_encodeSrc S []

/-- A host request is found again from its tag and its operand record (R42), whatever the opcode table is. -/
theorem decodeRequestAt_lead_operands (opc : Opcodes) {i : Instr} (h : i.isCommand = false) :
    decodeRequestAt (i.lead opc) i.operands = .ok i := by
  cases i with
  | bind rot left top swap hasDc bl =>
    simp only [Instr.lead, Instr.operands, decodeRequestAt, takeInt_encodeInt, takeBool_encodeBool,
      takeNat_encodeNat_end, bind, Except.bind]
    rfl
  | enable region src =>
    simp only [Instr.lead, Instr.operands, decodeRequestAt, takeOptRegion_encodeOptRegion, takeSrc_encodeSrc_end, bind,
      Except.bind]
    rfl
  | update region src =>
    simp only [Instr.lead, Instr.operands, decodeRequestAt, takeRegion_encodeRegion, takeSrc_encodeSrc_end, bind,
      Except.bind]
    rfl
  | disable | remove | shutdown => rfl
  | _ => cases h

/-- The tag of a host request stands below every opcode (log 7). -/
theorem lead_toNat_lt (opc : Opcodes) {i : Instr} (h : i.isCommand = false) : (i.lead opc).toNat < 16 := by
  cases i with
  | bind | enable | update | disable | remove | shutdown => simp [Instr.lead]
  | _ => cases h

/-- The opcode of a panel command is one of the table's. -/
theorem lead_mem_toList (opc : Opcodes) {i : Instr} (h : i.isCommand = true) : i.lead opc ∈ opc.toList := by
  cases i with
  | bind | enable | update | disable | remove | shutdown => cases h
  | _ => simp [Instr.lead, Opcodes.toList]

/-- A panel command is found again from its opcode and its parameter bytes: no earlier opcode of the table is the same
(R46, R47). -/
theorem decodeCommandAt_lead_operands {opc : Opcodes} (ho : opc.toList.Nodup) {i : Instr} (h : i.isCommand = true)
    (hw : i.wf = true) : decodeCommandAt opc (i.lead opc) i.operands = .ok i := by
  have hn : opc.toList.reverse.Nodup := List.pairwise_reverse.mpr (ho.imp Ne.symm)
  simp only [Opcodes.toList, List.reverse_cons, List.reverse_nil, List.nil_append, List.cons_append, List.nodup_cons,
    List.mem_cons, List.not_mem_nil, not_or] at hn
  cases i with
  | pgamctrl ps | ngamctrl ps =>
    have hl : ps.length = 15 := by simpa [Instr.wf] using hw
    simp [Instr.lead, Instr.operands, decodeCommandAt, withGamma, hn, hl]
  | caset s e | paset s e =>
    simp [Instr.lead, Instr.operands, decodeCommandAt, withWindow, windowParams, cat8_hi8_lo8, hn]
  | bind | enable | update | disable | remove | shutdown => cases h
  | _ => simp [Instr.lead, Instr.operands, decodeCommandAt, withNone, withOne, hn]

/-- Settles O1: the tag or the opcode tells the instruction, and each operand is read back from its own bytes. -/
theorem decodeEncodeRoundTrip : Obligations.DecodeEncodeRoundTrip := by
  refine ⟨fun opc i ⟨hnodup, hlow⟩ hw => ?_, fun opc i hc => decodeRequestAt_lead_operands opc hc⟩
  rw [encode, decode]
  cases hc : i.isCommand with
  | true =>
    have h16 := hlow _ (lead_mem_toList opc hc)
    rw [if_neg (Nat.not_lt.mpr h16), decodeCommandAt_lead_operands hnodup hc hw]
  | false => rw [if_pos (lead_toNat_lt opc hc), decodeRequestAt_lead_operands opc hc]

/-! ## What the decoder accepts -/

/-- A reader that is followed by others gave a result they went on from. -/
theorem reader_bind_ok {α β : Type} {x : Except DecodeError α} {f : α → Except DecodeError β} {r : β}
    (h : (x >>= f) = .ok r) : ∃ a, x = .ok a ∧ f a = .ok r := by
  cases x with
  | error e => cases h
  | ok a => exact ⟨a, rfl, h⟩

/-- An operand record that ends where it should gives its own instruction. -/
theorem finishAt_ok {i j : Instr} {bs : List Byte} (h : finishAt j bs = .ok i) : i = j := by
  cases bs with
  | nil => exact (Except.ok.inj h).symm
  | cons => cases h

/-- A request the decoder accepts has the tag the bytes begin with (R42). -/
theorem decodeRequestAt_ok (opc : Opcodes) {tag : Byte} {bs : List Byte} {i : Instr}
    (h : decodeRequestAt tag bs = .ok i) : tag = i.lead opc ∧ i.isCommand = false := by
  unfold decodeRequestAt at h
  split at h
  case h_1 htag =>
    obtain ⟨rot, -, h⟩ := reader_bind_ok h
    obtain ⟨left, -, h⟩ := reader_bind_ok h
    obtain ⟨top, -, h⟩ := reader_bind_ok h
    obtain ⟨swap, -, h⟩ := reader_bind_ok h
    obtain ⟨hasDc, -, h⟩ := reader_bind_ok h
    obtain ⟨bl, -, h⟩ := reader_bind_ok h
    obtain rfl := finishAt_ok h
    exact ⟨BitVec.eq_of_toNat_eq htag, rfl⟩
  case h_2 htag | h_3 htag =>
    obtain ⟨region, -, h⟩ := reader_bind_ok h
    obtain ⟨src, -, h⟩ := reader_bind_ok h
    obtain rfl := finishAt_ok h
    exact ⟨BitVec.eq_of_toNat_eq htag, rfl⟩
  case h_4 htag | h_5 htag | h_6 htag =>
    obtain rfl := finishAt_ok h
    exact ⟨BitVec.eq_of_toNat_eq htag, rfl⟩
  case h_7 => split at h <;> cases h

/-- Every host request is well-formed. -/
theorem wf_of_request {i : Instr} (h : i.isCommand = false) : i.wf = true := by
  cases i with
  | pgamctrl | ngamctrl => cases h
  | _ => rfl

/-- Whatever instruction a reader of parameters gives is well-formed and has the opcode `op`. -/
def Accepts (opc : Opcodes) (op : Byte) (r : Except DecodeError Instr) : Prop :=
  ∀ i, r = .ok i → i.wf = true ∧ op = i.lead opc

section
variable {opc : Opcodes} {op : Byte} {ps : List Byte} {name : String}

theorem Accepts.error (e : DecodeError) : Accepts opc op (.error e) := fun _ h => by cases h

theorem Accepts.ok {i : Instr} (hw : i.wf = true) (ho : op = i.lead opc) : Accepts opc op (.ok i) := fun _ h => by
  cases h
  exact ⟨hw, ho⟩

theorem Accepts.none {i : Instr} (hw : i.wf = true) (ho : op = i.lead opc) : Accepts opc op (withNone name i ps) := by
  cases ps with
  | nil => exact .ok hw ho
  | cons => exact .error _

theorem Accepts.one {mk : Byte → Instr} (hw : ∀ b, (mk b).wf = true) (ho : ∀ b, op = (mk b).lead opc) :
    Accepts opc op (withOne name mk ps) := by
  unfold withOne
  split
  · exact .ok (hw _) (ho _)
  · exact .error _

theorem Accepts.gamma {mk : List Byte → Instr} (hw : ps.length = 15 → (mk ps).wf = true) (ho : op = (mk ps).lead opc) :
    Accepts opc op (withGamma name mk ps) := by
  unfold withGamma
  split
  · exact .ok (hw ‹_›) ho
  · exact .error _

theorem Accepts.window {mk : Half → Half → Instr} (hw : ∀ s e, (mk s e).wf = true)
    (ho : ∀ s e, op = (mk s e).lead opc) : Accepts opc op (withWindow name mk ps) := by
  unfold withWindow
  split
  · exact .ok (hw _ _) (ho _ _)
  · exact .error _

/-- One opcode of the table, and the opcodes after it. -/
theorem Accepts.ite {o : Byte} {x y : Except DecodeError Instr} (hx : op = o → Accepts opc op x)
    (hy : Accepts opc op y) : Accepts opc op (if op = o then x else y) := by
  split
  · exact hx ‹_›
  · exact hy

end

/-- A command the decoder accepts is well-formed and has the opcode the bytes begin with: each of the twenty readers
(R46, R47) is reached by its own opcode alone. -/
theorem decodeCommandAt_accepts (opc : Opcodes) (op : Byte) (ps : List Byte) :
    Accepts opc op (decodeCommandAt opc op ps) :=
  .ite (fun h => .none rfl h) <|
  .ite (fun h => .gamma beq_iff_eq.mpr h) <|
  .ite (fun h => .gamma beq_iff_eq.mpr h) <|
  .ite (fun h => .ok rfl h) <|
  .ite (fun h => .ok rfl h) <|
  .ite (fun h => .ok rfl h) <|
  .ite (fun h => .one (fun _ => rfl) fun _ => h) <|
  .ite (fun h => .one (fun _ => rfl) fun _ => h) <|
  .ite (fun h => .ok rfl h) <|
  .ite (fun h => .ok rfl h) <|
  .ite (fun h => .ok rfl h) <|
  .ite (fun h => .ok rfl h) <|
  .ite (fun h => .ok rfl h) <|
  .ite (fun h => .ok rfl h) <|
  .ite (fun h => .none rfl h) <|
  .ite (fun h => .none rfl h) <|
  .ite (fun h => .none rfl h) <|
  .ite (fun h => .window (fun _ _ => rfl) fun _ _ => h) <|
  .ite (fun h => .window (fun _ _ => rfl) fun _ _ => h) <|
  .ite (fun h => .none rfl h) <|
  .error (.unknownOpcode op)

/-- Settles O2: by the branch of the decoder that accepted the bytes. -/
theorem decodedIsWellFormed : Obligations.DecodedIsWellFormed := by
  intro opc bs i h
  cases bs with
  | nil => cases h
  | cons b bs =>
    rw [decode] at h
    split at h
    · obtain ⟨rfl, hc⟩ := decodeRequestAt_ok opc h
      exact ⟨wf_of_request hc, rfl⟩
    · obtain ⟨hw, rfl⟩ := decodeCommandAt_accepts opc b bs i h
      exact ⟨hw, rfl⟩

/-- Settles O3: each of the words is short. -/
theorem writtenWordsDecode : Obligations.WrittenWordsDecode := by
  unfold Obligations.WrittenWordsDecode
  decide

end Sys2Proof
end

section
/-! PROOFS. What a move keeps of a device's record and does to the backlight table, lifted to every step of the machine:
canonical form, reference counts, buffer bounds, bind-time values and transcripts. -/

namespace Sys2Proof.Machine

open Sys2Proof

/-! ## What every move keeps of a record -/

/-- What holds of a device's record before and after any move: the values fixed at bind stay, a removal stays, the
transcript gains one event at most, and the wire buffer is written only by a conversion that fits it. -/
structure Device.Kept (p : Params) (d e : Device) : Prop where
  binding : d.SameBinding e
  gone : d.gone = true → e.gone = true
  trace : e.trace = d.trace ∨ ∃ ev, e.trace = d.trace ++ [ev]
  wb : e.wb = d.wb ∨ ∃ bytes, bytes.length ≤ p.wbSize ∧ e.wb = d.wb.writeBlock 0 bytes

theorem Device.SameBinding.refl (d : Device) : d.SameBinding d := ⟨rfl, rfl, rfl, rfl, rfl, rfl, rfl, rfl⟩

/-- A position is a write of `D.seq`. -/
theorem Device.atStep_eq (d : Device) (pos : Option SeqStep) :
    d.atStep pos = { d with seq := (pos.map SeqPos.at).getD d.seq } := by cases pos <;> rfl

/-- State, request, position and count may be written before a move. -/
theorem Device.Kept.of_write {p : Params} {d e : Device} {st : DevState} {job : Option Job} {seq : SeqPos} {n : Nat}
    (h : Device.Kept p { d with st := st, job := job, seq := seq, convCount := n } e) : d.Kept p e :=
  ⟨h.binding, h.gone, h.trace, h.wb⟩

/-- Writes of state, request, position and count keep the rest. -/
theorem Device.kept_write (p : Params) (d : Device) (st : DevState) (job : Option Job) (seq : SeqPos) (n : Nat) :
    d.Kept p { d with st := st, job := job, seq := seq, convCount := n } :=
  ⟨.refl d, id, .inl rfl, .inl rfl⟩

/-- One more event. -/
theorem Device.kept_log (p : Params) (d : Device) (ev : Event) (st : DevState) (job : Option Job) (seq : SeqPos) :
    d.Kept p { d.log ev with st := st, job := job, seq := seq } :=
  ⟨.refl d, id, .inr ⟨ev, rfl⟩, .inl rfl⟩

theorem Device.kept_commanded (p : Params) (i : Instr) (ok : Bool) (d : Device) : d.Kept p (d.commanded p i ok) :=
  have ⟨hb, hg, hw, _, ht⟩ := d.commanded_frame p i ok
  ⟨hb, hg.trans, .inr ⟨_, ht⟩, .inl hw⟩

theorem Device.kept_flushEnded (p : Params) (d : Device) : d.Kept p d.flushEnded :=
  have ⟨hb, hg, _, hw, _, ht⟩ := d.flushEnded_frame
  ⟨hb, hg.trans, .inl ht, .inl hw⟩

/-- A burst is one event, and the end of its flush adds none. -/
theorem Device.kept_log_flushEnded (p : Params) (d : Device) (ev : Event) : d.Kept p (d.log ev).flushEnded :=
  have ⟨hb, hg, _, hw, _, ht⟩ := (d.log ev).flushEnded_frame
  ⟨hb, hg.trans, .inr ⟨ev, ht⟩, .inl hw⟩

theorem Device.kept_wasReset (p : Params) (fa : Bool) (r : ResetResult) (d : Device) : d.Kept p (d.wasReset p fa r) := by
  cases r with
  | failed | retained | needsInit => exact d.kept_log p _ _ _ _

theorem Moves.kept {p : Params} {d e : Device} {b c : Backlights} (h : Moves p d b e c) : d.Kept p e := by
  cases h with
  | removed hg => exact ⟨.refl d, fun _ => rfl, .inl rfl, .inl rfl⟩
  | command j pos i ok rest hj ht hi =>
    rw [Device.atStep_eq]
    exact (Device.kept_commanded p i ok _).of_write
  | addrMode j ok rest hj ht => exact (Device.kept_commanded p _ ok _).of_write
  | reset j fa r rest hj ht => exact (Device.kept_wasReset p fa r _).of_write
  | delay j ms rest hj ht => exact d.kept_log p _ _ _ _
  | blOn j rest hj ht => exact d.kept_log p _ _ _ _
  | paintGone j rest hj ht hg => exact (Device.kept_flushEnded p _).of_write
  | unsupported j rest hj ht hf => exact (Device.kept_flushEnded p _).of_write
  | data j rest bytes ok hj ht => exact (Device.kept_log_flushEnded p _ _).of_write
  | converted j rest bytes hj ht hl => exact ⟨.refl d, id, .inl rfl, .inr ⟨bytes, hl, rfl⟩⟩
  | _ => exact d.kept_write p _ _ _ _

/-- What a move does to the backlight table: nothing, the release of the device's line by a first removal, or the
enabling of it by the backlight step, which logs it. -/
theorem Moves.blk {p : Params} {d e : Device} {b c : Backlights} (h : Moves p d b e c) :
    (c = b ∧ e.gone = d.gone) ∨ (d.gone = false ∧ e.gone = true ∧ c = b.release d.bl) ∨
      (c = b.enable d.bl ∧ e.gone = d.gone ∧ e.trace = d.trace ++ [.blOn d.bl] ∧
        ∃ j rest, d.job = some j ∧ j.todo = .blOn :: rest) := by
  cases h with
  | removed hg => exact .inr (.inl ⟨hg, rfl, rfl⟩)
  | blOn j rest hj ht => exact .inr (.inr ⟨rfl, rfl, rfl, j, rest, hj, ht⟩)
  | command j pos i ok rest hj ht hi =>
    rw [Device.atStep_eq]
    exact .inl ⟨rfl, (Device.commanded_frame p i ok _).2.1⟩
  | addrMode j ok rest hj ht => exact .inl ⟨rfl, (Device.commanded_frame p _ ok _).2.1⟩
  | reset j fa r rest hj ht => exact .inl ⟨rfl, by cases r <;> rfl⟩
  | paintGone | unsupported | data => exact .inl ⟨rfl, (Device.flushEnded_frame _).2.1⟩
  | _ => exact .inl ⟨rfl, rfl⟩

/-! ## From moves to steps -/

theorem StepMoves.cfg {s t : State} (h : StepMoves s t) : t.cfg = s.cfg := by cases h <;> assumption

/-- After a step each bound device has its record, or one that a move made of it. -/
theorem StepMoves.get {s t : State} (h : StepMoves s t) {n : Nat} {d : Device} (hn : s.devs[n]? = some d) :
    ∃ e, t.devs[n]? = some e ∧ (e = d ∨ Moves s.cfg d s.blk e t.blk) := by
  have hlt := (List.getElem?_eq_some_iff.mp hn).1
  cases h with
  | device m d' e hm hmoves ht hc =>
    by_cases h : m = n
    · subst h
      obtain rfl : d' = d := Option.some.inj (hm.symm.trans hn)
      exact ⟨e, by simp [ht, hlt], .inr hmoves⟩
    · exact ⟨d, by simp [ht, h, hn], .inl rfl⟩
  | shutdown hb ht hc | platform hb ht hc => exact ⟨d, by rw [ht, hn], .inl rfl⟩
  | bound r left top swap hasDc bl ht hb hc =>
    exact ⟨d, by rw [ht, List.getElem?_append_left hlt, hn], .inl rfl⟩

/-- A property of device records that every move keeps and every bind establishes is kept by every step. -/
theorem StepMoves.all_devs {s t : State} {P : Device → Prop} (h : StepMoves s t)
    (hmove : ∀ d b e c, Moves s.cfg d b e c → P d → P e)
    (hfresh : ∀ r left top swap hasDc bl, P (freshDevice r left top swap hasDc bl)) (hs : ∀ d ∈ s.devs, P d) :
    ∀ d ∈ t.devs, P d := by
  cases h with
  | device n d e hn hm ht hc =>
    rw [ht]
    intro x hx
    rcases List.mem_or_eq_of_mem_set hx with hx | rfl
    · exact hs x hx
    · exact hmove d _ _ _ hm (hs d (List.mem_of_getElem? hn))
  | shutdown hb ht hc | platform hb ht hc => rwa [ht]
  | bound r left top swap hasDc bl ht hb hc =>
    rw [ht]
    intro x hx
    rcases List.mem_append.mp hx with hx | hx
    · exact hs x hx
    · obtain rfl := List.mem_singleton.mp hx
      exact hfresh r left top swap hasDc bl

/-! ## The invariants -/

/-- Settles O43: a memory is written by a block, a line by `BLK[id] <- line`, and SHUTDOWN keeps the order of the table. -/
theorem stepKeepsCanonicalForm : Obligations.StepKeepsCanonicalForm := by
  rintro s t ⟨hwb, hblk⟩ hstep
  have hm := step_moves hstep
  constructor
  case left =>
    refine hm.all_devs (fun d b e c hmove hd => ?_) (fun r left top swap hasDc bl => .nil) hwb
    rcases hmove.kept.wb with h | ⟨bytes, -, h⟩
    · rwa [h]
    · rw [h]
      exact Memory.writeBlock_wf hd 0 bytes
  case right =>
    cases hm with
    | device n d e hn hmove ht hc =>
      rcases hmove.blk with ⟨h, -⟩ | ⟨-, -, h⟩ | ⟨h, -⟩
      · rwa [h]
      · rw [h]
        exact Backlights.set_wf hblk _ _
      · rw [h]
        exact Backlights.set_wf hblk _ _
    | shutdown hb ht hc =>
      rw [hb]
      exact Backlights.disableAll_wf hblk
    | platform hb ht hc => rwa [hb]
    | bound r left top swap hasDc bl ht hb hc =>
      rw [hb]
      exact Backlights.set_wf hblk _ _

/-- Settles O45: a conversion that does not fit the buffer faults, so every block written ends inside it. -/
theorem stepKeepsWireBufferBounds : Obligations.StepKeepsWireBufferBounds := by
  intro s t hs hstep
  have hm := step_moves hstep
  rw [State.WireBounded, hm.cfg]
  refine hm.all_devs (fun d b e c hmove hd cell hcell => ?_) (fun r left top swap hasDc bl _ h => nomatch h) hs
  rcases hmove.kept.wb with h | ⟨bytes, hl, h⟩
  · exact hd cell (h ▸ hcell)
  · rcases Memory.mem_writeBlock (h ▸ hcell) with hold | ⟨-, hnew⟩
    · exact hd cell hold
    · omega

/-- Settles O49: every move keeps the binding of the record it writes. -/
theorem stepKeepsBindTimeValues : Obligations.StepKeepsBindTimeValues := by
  intro s t hstep
  have hm := step_moves hstep
  refine ⟨hm.cfg, fun n d hn => ?_⟩
  obtain ⟨e, he, rfl | hmove⟩ := hm.get hn
  · exact ⟨e, he, .refl e, id⟩
  · exact ⟨e, he, hmove.kept.binding, hmove.kept.gone⟩

/-- Settles O50: every move leaves the transcript or appends one event. -/
theorem stepAppendsAtMostOneEvent : Obligations.StepAppendsAtMostOneEvent := by
  intro s t n d hstep hn
  obtain ⟨e, he, rfl | hmove⟩ := (step_moves hstep).get hn
  · exact ⟨e, he, .inl rfl⟩
  · exact ⟨e, he, hmove.kept.trace⟩

/-! ## Reference counts (R23) -/

/-- How many records meet `f`, after one record is replaced. -/
theorem countP_set_add {α : Type} (f : α → Bool) {l : List α} {n : Nat} {a : α} (b : α) (hn : l[n]? = some a) :
    (l.set n b).countP f + (f a).toNat = l.countP f + (f b).toNat := by
  induction l generalizing n with
  | nil => cases hn
  | cons x l ih =>
    cases n with
    | zero =>
      obtain rfl : x = a := by simpa using hn
      simp only [List.set_cons_zero, List.countP_cons]
      cases f x <;> cases f b <;> simp
    | succ n =>
      have := ih (n := n) (by simpa using hn)
      simp only [List.set_cons_succ, List.countP_cons]
      omega

/-- Enabling a line changes no reference count. -/
theorem Backlights.refs_enable (b : Backlights) (line id : BacklightId) :
    ((b.enable line).get id).refs = (b.get id).refs := by
  by_cases h : id = line
  · rw [h, Backlights.get_enable_same]
  · rw [Backlights.get_enable_ne b h]

/-- A release takes one reference from its line alone (R127). -/
theorem Backlights.refs_release (b : Backlights) (line id : BacklightId) :
    ((b.release line).get id).refs = (b.get id).refs - (line == id).toNat := by
  by_cases h : id = line
  · simp [h]
  · rw [Backlights.get_release_ne b h, beq_false_of_ne (Ne.symm h), Bool.toNat_false, Nat.sub_zero]

/-- An attachment adds one reference to its line alone (R125). -/
theorem Backlights.refs_attach (b : Backlights) (line id : BacklightId) :
    ((b.attach line).get id).refs = (b.get id).refs + (line == id).toNat := by
  by_cases h : id = line
  · simp [Backlights.attach, h]
  · rw [Backlights.attach, Backlights.get_set_ne b h, beq_false_of_ne (Ne.symm h), Bool.toNat_false, Nat.add_zero]

/-- Settles O44: a first removal takes its device out of the count of the one line it releases, a bind adds one to the line
it attaches, and no other move touches either. -/
theorem stepKeepsReferencesCounted : Obligations.StepKeepsReferencesCounted := by
  intro s t ⟨_, hblk⟩ hs hstep id
  have hid := hs id
  cases step_moves hstep with
  | device n d e hn hmove ht hc =>
    have hcount := countP_set_add (fun d : Device => !d.gone && d.bl == id) e hn
    obtain ⟨-, -, -, -, -, hbl, -⟩ := hmove.kept.binding
    simp only [hbl] at hcount
    rw [ht]
    rcases hmove.blk with ⟨h, hg⟩ | ⟨hd, he, h⟩ | ⟨h, hg, -⟩
    · rw [hg] at hcount
      rw [h]
      omega
    · simp only [hd, he, Bool.not_true, Bool.not_false, Bool.false_and, Bool.true_and, Bool.toNat_false] at hcount
      rw [h, Backlights.refs_release]
      omega
    · rw [hg] at hcount
      rw [h, Backlights.refs_enable]
      omega
  | shutdown hb ht hc => rw [hb, ht, Backlights.get_disableAll hblk, hid]
  | platform hb ht hc => rw [hb, ht, hid]
  | bound r left top swap hasDc bl ht hb hc =>
    rw [hb, ht, Backlights.refs_attach, List.countP_append, hid]
    cases hline : bl == id <;> simp [freshDevice, hline]

end Sys2Proof.Machine
end

section
/-! PROOFS. Request, sequencer position and device state go together after every move (R20, R121). -/

namespace Sys2Proof.Machine

open Sys2Proof

/-! ## The parts of `Device.Tracked` -/

/-- A device whose request ended is tracked when its state needs no request. -/
theorem Device.tracked_ended {d : Device} (h : d.gone = false → d.st.passing = false) : d.ended.Tracked := ⟨rfl, h⟩

theorem Device.tracked_none {d : Device} (hj : d.job = none) :
    d.Tracked ↔ d.seq = .idle ∧ (d.gone = false → d.st.passing = false) := by
  simp only [Device.Tracked, hj]

theorem Device.tracked_update {d : Device} {j : Job} (hj : d.job = some j) (hr : j.req = .update) :
    d.Tracked ↔ d.seq = .idle ∧ (d.gone = false → d.st.passing = false) ∧ ∀ m ∈ j.todo, m.inUpdate = true := by
  simp only [Device.Tracked, hj, hr]

theorem Device.tracked_enable {d : Device} {j : Job} (hj : d.job = some j) (hr : j.req = .enable) :
    d.Tracked ↔ d.seq ≠ .idle ∧ j.todo.getLast? = some .finish := by
  simp only [Device.Tracked, hj, hr]

/-- A device that runs no request. -/
theorem Device.Tracked.of_none {d : Device} (hj : d.job = none) (hs : d.seq = .idle)
    (hp : d.gone = false → d.st.passing = false) : d.Tracked := (Device.tracked_none hj).mpr ⟨hs, hp⟩

/-- A device that runs an UPDATE. -/
theorem Device.Tracked.of_update {d : Device} {j : Job} (hj : d.job = some j) (hr : j.req = .update)
    (hs : d.seq = .idle) (hp : d.gone = false → d.st.passing = false) (hu : ∀ m ∈ j.todo, m.inUpdate = true) :
    d.Tracked := (Device.tracked_update hj hr).mpr ⟨hs, hp, hu⟩

/-- A device that runs an ENABLE. -/
theorem Device.Tracked.of_enable {d : Device} {j : Job} (hj : d.job = some j) (hr : j.req = .enable)
    (hs : d.seq ≠ .idle) (hl : j.todo.getLast? = some .finish) : d.Tracked :=
  (Device.tracked_enable hj hr).mpr ⟨hs, hl⟩

/-- A host write changes the source of the running request, or the writes it remembers, and nothing else. -/
theorem Job.hostWrite_frame (j : Job) (off : Nat) (v : Byte) :
    (j.hostWrite off v).req = j.req ∧ (j.hostWrite off v).todo = j.todo ∧
      (j.hostWrite off v).flushing = j.flushing := by
  unfold Job.hostWrite
  split
  · split <;> exact ⟨rfl, rfl, rfl⟩
  · exact ⟨rfl, rfl, rfl⟩

/-- The step a running request takes next: one of an UPDATE's, or one of an ENABLE's, which has its completion before it
unless it is the completion. -/
theorem Device.Tracked.next {d : Device} {j : Job} {m : Micro} {rest : List Micro} (h : d.Tracked)
    (hj : d.job = some j) (ht : j.todo = m :: rest) :
    (j.req = .update ∧ d.seq = .idle ∧ (d.gone = false → d.st.passing = false) ∧ m.inUpdate = true ∧
        ∀ m ∈ rest, m.inUpdate = true) ∨
      (j.req = .enable ∧ d.seq ≠ .idle ∧ (m ≠ .finish → rest.getLast? = some .finish)) := by
  cases hr : j.req with
  | update =>
    obtain ⟨hs, hp, hm⟩ := (Device.tracked_update hj hr).mp h
    rw [ht, List.forall_mem_cons] at hm
    exact .inl ⟨rfl, hs, hp, hm⟩
  | enable =>
    obtain ⟨hs, hl⟩ := (Device.tracked_enable hj hr).mp h
    refine .inr ⟨rfl, hs, fun hne => ?_⟩
    rw [ht] at hl
    cases rest with
    | nil => exact absurd (Option.some.inj hl) hne
    | cons m' rest => rwa [List.getLast?_cons_cons] at hl

/-- The completion is still last behind steps put first. -/
theorem getLast?_append_finish {ms rest : List Micro} (h : rest.getLast? = some .finish) :
    (ms ++ rest).getLast? = some .finish := by rw [List.getLast?_append, h, Option.some_or]

/-- The end of a flush keeps the request, its position and the state together. -/
theorem Device.Tracked.flushEnded {d : Device} (h : d.Tracked) : d.flushEnded.Tracked := by
  cases hj : d.job with
  | none => rwa [Device.flushEnded, hj]
  | some j =>
    cases hr : j.req with
    | update =>
      rw [Device.flushEnded_update hj hr]
      exact Device.tracked_ended ((Device.tracked_update hj hr).mp h).2.1
    | enable =>
      rw [Device.flushEnded_enable hj hr]
      have hs := ((Device.tracked_enable hj hr).mp h).1
      exact .of_enable rfl hr hs rfl

/-- The failure of a command keeps them together. -/
theorem Device.Tracked.cmdFailed {d : Device} (h : d.Tracked) : d.cmdFailed.Tracked := by
  unfold Device.cmdFailed
  split
  · exact h
  · split
    · exact h.flushEnded
    · split
      · exact h
      · exact Device.tracked_ended fun _ => rfl

/-- The step after a command is one an UPDATE can have. -/
theorem inUpdate_commandAfter (i : Instr) : ∀ m ∈ commandAfter i, m.inUpdate = true := by
  cases i <;> simp [commandAfter, Micro.inUpdate]

/-- Steps of any request may be put first if an UPDATE can have them. -/
theorem Device.Tracked.push {d : Device} {ms : List Micro} (h : d.Tracked) (hms : ∀ m ∈ ms, m.inUpdate = true) :
    (d.push ms).Tracked := by
  cases hj : d.job with
  | none => simpa [Device.Tracked, hj] using h
  | some j =>
    cases hr : j.req with
    | update =>
      obtain ⟨hs, hp, hm⟩ := (Device.tracked_update hj hr).mp h
      exact .of_update (j := { j with todo := ms ++ j.todo }) (by simp [hj]) hr hs hp
        (List.forall_mem_append.mpr ⟨hms, hm⟩)
    | enable =>
      obtain ⟨hs, hl⟩ := (Device.tracked_enable hj hr).mp h
      exact .of_enable (j := { j with todo := ms ++ j.todo }) (by simp [hj]) hr hs (getLast?_append_finish hl)

/-- A command keeps them together, whatever its answer. -/
theorem Device.Tracked.commanded {d : Device} (h : d.Tracked) (p : Params) (i : Instr) (ok : Bool) :
    (d.commanded p i ok).Tracked := by
  have hlog : (d.log (.cmd (i.lead p.opc) i.operands ok)).Tracked := h
  unfold Device.commanded
  split
  · exact hlog.push (inUpdate_commandAfter i)
  · exact hlog.cmdFailed

/-- A step taken off the request, with the position an ENABLE's step gives, keeps them together. -/
theorem Device.Tracked.taken {d : Device} {j : Job} {m : Micro} {rest : List Micro} (h : d.Tracked)
    (hj : d.job = some j) (ht : j.todo = m :: rest) (hm : m ≠ .finish) {pos : SeqPos}
    (hpos : pos = d.seq ∨ (m.inUpdate = false ∧ pos ≠ .idle)) :
    Device.Tracked { d with seq := pos, job := some { j with todo := rest } } := by
  rcases h.next hj ht with ⟨hr, hs, hp, hu, hrest⟩ | ⟨hr, hs, hl⟩
  · obtain rfl | ⟨hnu, -⟩ := hpos
    · exact .of_update rfl hr hs hp hrest
    · simp [hu] at hnu
  · refine .of_enable rfl hr ?_ (hl hm)
    obtain rfl | ⟨-, hne⟩ := hpos
    · exact hs
    · exact hne

/-- A step no UPDATE has is one of an ENABLE. -/
theorem Device.Tracked.enable_next {d : Device} {j : Job} {m : Micro} {rest : List Micro} (h : d.Tracked)
    (hj : d.job = some j) (ht : j.todo = m :: rest) (hm : m.inUpdate = false) :
    j.req = .enable ∧ d.seq ≠ .idle ∧ (m ≠ .finish → rest.getLast? = some .finish) := by
  rcases h.next hj ht with ⟨-, -, -, hu, -⟩ | h
  · simp [hm] at hu
  · exact h

/-- The position of a command: an UPDATE's command gives none. -/
theorem getD_pos (pos : Option SeqStep) (i : Instr) (q : SeqPos) :
    (pos.map SeqPos.at).getD q = q ∨ ((Micro.cmd pos i).inUpdate = false ∧ (pos.map SeqPos.at).getD q ≠ .idle) := by
  cases pos <;> simp [Micro.inUpdate]

theorem flushSteps_inUpdate (path : Path) (R : Region) (left top : Int) :
    ∀ m ∈ flushSteps path R left top, m.inUpdate = true := by
  cases path <;> simp [flushSteps, Micro.inUpdate]

/-- A removal leaves nothing to be said of the state. -/
theorem Device.Tracked.removed {d : Device} (h : d.Tracked) :
    Device.Tracked { d with gone := true, st := .disabled } := by
  cases hj : d.job with
  | none =>
    have hs := ((Device.tracked_none hj).mp h).1
    exact .of_none rfl hs fun hg => nomatch hg
  | some j =>
    cases hr : j.req with
    | update =>
      obtain ⟨hs, -, hu⟩ := (Device.tracked_update hj hr).mp h
      exact .of_update rfl hr hs (fun hg => nomatch hg) hu
    | enable =>
      obtain ⟨hs, hl⟩ := (Device.tracked_enable hj hr).mp h
      exact .of_enable rfl hr hs hl

/-- A host write leaves request and steps. -/
theorem Device.Tracked.hostWrote {d : Device} (h : d.Tracked) (off : Nat) (v : Byte) :
    (d.modJob (·.hostWrite off v)).Tracked := by
  cases hj : d.job with
  | none => simpa [Device.Tracked, hj] using h
  | some j =>
    obtain ⟨hreq, htodo, -⟩ := j.hostWrite_frame off v
    simpa [Device.Tracked, hj, hreq, htodo] using h

/-- Every move keeps request, position and state together. -/
theorem Moves.tracked {p : Params} {d e : Device} {b c : Backlights} (hm : Moves p d b e c) (h : d.Tracked) :
    e.Tracked := by
  cases hm with
  | stays => exact h
  | disabled hg hj =>
    have hs := ((Device.tracked_none hj).mp h).1
    exact .of_none hj hs fun _ => rfl
  | removed hg => exact h.removed
  | enabled R S hg hj => exact .of_enable rfl rfl nofun rfl
  | updated R S hg hj hv =>
    obtain ⟨hs, hp⟩ := (Device.tracked_none hj).mp h
    refine .of_update rfl rfl hs hp ?_
    simpa only [Device.startFlush, List.append_nil] using flushSteps_inUpdate _ R d.left d.top
  | hostWrote off v => exact h.hostWrote off v
  | stopped j hj hg => exact Device.tracked_ended fun hng => absurd (hg.symm.trans hng) nofun
  | dropped j pos i rest hj ht hi => exact h.taken hj ht nofun (.inl rfl)
  | reset j fa r rest hj ht =>
    have htaken := h.taken hj ht nofun (.inl rfl)
    obtain ⟨hr, hs, hl⟩ := h.enable_next hj ht rfl
    cases r with
    | failed => exact Device.tracked_ended fun _ => rfl
    | retained => exact htaken
    | needsInit => exact .of_enable rfl hr hs (getLast?_append_finish (hl nofun))
  | command j pos i ok rest hj ht hi =>
    rw [Device.atStep_eq]
    exact (h.taken hj ht nofun (getD_pos pos i d.seq)).commanded p i ok
  | delay j ms rest hj ht => exact h.taken hj ht nofun (.inl rfl)
  | addrMode j ok rest hj ht =>
    have htaken := h.taken hj ht nofun (pos := .at .step9) (.inr ⟨rfl, nofun⟩)
    exact htaken.commanded p _ ok
  | paintGone j rest hj ht hg =>
    have htaken := h.taken hj ht nofun (pos := .at .step10) (.inr ⟨rfl, nofun⟩)
    exact htaken.flushEnded
  | paint j rest hj ht hg hv =>
    obtain ⟨hr, -, hl⟩ := h.enable_next hj ht rfl
    exact .of_enable rfl hr nofun (getLast?_append_finish (hl nofun))
  | unsupported j rest hj ht hf =>
    have htaken : (Device.countConversion { d with job := some { j with todo := rest } }).Tracked :=
      h.taken hj ht nofun (.inl rfl)
    exact htaken.flushEnded
  | converted j rest bytes hj ht hl => exact h.taken hj ht nofun (.inl rfl)
  | data j rest bytes ok hj ht =>
    have htaken : (Device.log { d with job := some { j with todo := rest } } (.data bytes ok)).Tracked :=
      h.taken hj ht nofun (.inl rfl)
    exact htaken.flushEnded
  | blOn j rest hj ht => exact h.taken hj ht nofun (.inl rfl)
  | finish j rest hj ht => exact Device.tracked_ended fun _ => rfl
  -- `over`
  | _ j hj ht =>
    cases hr : j.req with
    | update => exact Device.tracked_ended ((Device.tracked_update hj hr).mp h).2.1
    | enable =>
      have hl := ((Device.tracked_enable hj hr).mp h).2
      rw [ht] at hl
      cases hl

/-- Settles O46: by the moves of a step. -/
theorem stepKeepsSequencerTracked : Obligations.StepKeepsSequencerTracked := by
  intro s t hs hstep
  exact (step_moves hstep).all_devs (fun d b e c hm => hm.tracked) (fun r left top swap hasDc bl => ⟨rfl, fun _ => rfl⟩) hs

end Sys2Proof.Machine
end

section
/-! PROOFS. Every data burst stands right behind CASET, PASET and RAMWR answered true, and every running flush where its
burst will too (R46, R74, R154). -/

namespace Sys2Proof.Machine

open Sys2Proof

/-! ## Transcripts -/

/-- One more event opens every burst if it is none, or stands behind an open window. -/
theorem BurstsOpened.append {p : Params} {T : List Event} (h : BurstsOpened p T) {ev : Event}
    (hev : ∀ bytes ok, ev = .data bytes ok → EndsOpen p T) : BurstsOpened p (T ++ [ev]) := by
  intro before bytes ok after heq
  rcases List.eq_nil_or_concat after with rfl | ⟨after, last, rfl⟩
  · obtain ⟨rfl, hlast⟩ := List.append_inj' heq rfl
    exact hev bytes ok (List.singleton_inj.mp hlast)
  · rw [List.concat_eq_append, ← List.cons_append, ← List.append_assoc] at heq
    exact h before bytes ok after (List.append_inj' heq rfl).1

/-- An event that is no burst. -/
def Event.isData : Event → Bool
  | .data _ _ => true
  | _ => false

theorem BurstsOpened.append_quiet {p : Params} {T : List Event} (h : BurstsOpened p T) {ev : Event}
    (hev : ev.isData = false) : BurstsOpened p (T ++ [ev]) :=
  h.append fun bytes ok he => by
    rw [he] at hev
    cases hev

/-! ## The parts of `Device.Opened` -/

/-- A device that runs no request. -/
theorem Device.Opened.of_none {p : Params} {d : Device} (hj : d.job = none) (h : BurstsOpened p d.trace) :
    d.Opened p := ⟨h, fun j hj' => by rw [hj] at hj'; cases hj'⟩

/-- A device whose request is in a flush. -/
theorem Device.Opened.of_flush {p : Params} {d : Device} {j : Job} (hj : d.job = some j) (hf : j.flushing = true)
    (h : BurstsOpened p d.trace) (hs : FlushShape p d.trace j.todo) : d.Opened p := by
  refine ⟨h, fun j' hj' => ?_⟩
  obtain rfl : j = j' := Option.some.inj (hj.symm.trans hj')
  rwa [if_pos hf]

/-- A device whose request is in no flush. -/
theorem Device.Opened.of_plain {p : Params} {d : Device} {j : Job} (hj : d.job = some j) (hf : j.flushing = false)
    (h : BurstsOpened p d.trace) (hs : ∀ m ∈ j.todo, m.plain = true) : d.Opened p := by
  refine ⟨h, fun j' hj' => ?_⟩
  obtain rfl : j = j' := Option.some.inj (hj.symm.trans hj')
  rwa [if_neg (by simp [hf])]

/-- The next step of a flush: its conversion, one of its three commands, or its burst, with what stands after it and what
the transcript ends with. -/
inductive FlushNext (p : Params) (T : List Event) : Micro → List Micro → Prop where
  | convert (a b c e tail) (hp : ∀ m ∈ tail, m.plain = true) :
      FlushNext p T .convert (.cmd none (.caset a b) :: .cmd none (.paset c e) :: .cmd none .ramwr :: tail)
  | caset (a b c e tail) (hp : ∀ m ∈ tail, m.plain = true) :
      FlushNext p T (.cmd none (.caset a b)) (.cmd none (.paset c e) :: .cmd none .ramwr :: tail)
  | paset (c e tail) (hp : ∀ m ∈ tail, m.plain = true)
      (ht : ∃ T' a, a.length = 4 ∧ T = T' ++ [.cmd p.opc.caset a true]) :
      FlushNext p T (.cmd none (.paset c e)) (.cmd none .ramwr :: tail)
  | ramwr (tail) (hp : ∀ m ∈ tail, m.plain = true)
      (ht : ∃ T' a b, a.length = 4 ∧ b.length = 4 ∧
        T = T' ++ [.cmd p.opc.caset a true, .cmd p.opc.paset b true]) :
      FlushNext p T (.cmd none .ramwr) tail
  | data (tail) (hp : ∀ m ∈ tail, m.plain = true) (ht : EndsOpen p T) : FlushNext p T .data tail

theorem flushNext_of_shape {p : Params} {T : List Event} {todo rest : List Micro} {m : Micro}
    (h : FlushShape p T todo) (ht : todo = m :: rest) : FlushNext p T m rest := by
  obtain ⟨tail, hp, ⟨a, b, c, e, h⟩ | ⟨a, b, c, e, h⟩ | ⟨c, e, h, hT⟩ | ⟨h, hT⟩ | ⟨h, hT⟩⟩ := h <;>
    obtain ⟨rfl, rfl⟩ := List.cons.inj (ht.symm.trans h)
  · exact .caset a b c e tail hp
  · exact .convert a b c e tail hp
  · exact .paset c e tail hp hT
  · exact .ramwr _ hp hT
  · exact .data _ hp hT

/-- The step a running request takes next: a flush's, or a plain one with plain ones after it. -/
theorem Device.Opened.next {p : Params} {d : Device} {j : Job} {m : Micro} {rest : List Micro} (h : d.Opened p)
    (hj : d.job = some j) (ht : j.todo = m :: rest) :
    (j.flushing = true ∧ FlushNext p d.trace m rest) ∨
      (j.flushing = false ∧ m.plain = true ∧ ∀ m ∈ rest, m.plain = true) := by
  have hshape := h.2 j hj
  cases hf : j.flushing with
  | true =>
    rw [if_pos hf] at hshape
    exact .inl ⟨rfl, flushNext_of_shape hshape ht⟩
  | false =>
    rw [if_neg (by simp [hf]), ht, List.forall_mem_cons] at hshape
    exact .inr ⟨rfl, hshape⟩

/-- A flush that ends leaves plain steps. -/
theorem Device.opened_flushEnded {p : Params} {d : Device} (h : BurstsOpened p d.trace) {j : Job} (hj : d.job = some j) :
    d.flushEnded.Opened p := by
  cases hr : j.req with
  | update =>
    rw [Device.flushEnded_update hj hr]
    exact .of_none rfl h
  | enable =>
    rw [Device.flushEnded_enable hj hr]
    exact .of_plain rfl rfl h (by simp [Micro.plain])

/-- A command answered false leaves a request that still runs as it was, or ended. -/
theorem Device.opened_cmdFailed {p : Params} {d : Device} (h : BurstsOpened p d.trace) {j : Job} (hj : d.job = some j)
    (hrest : j.flushing = false → ∀ m ∈ j.todo, m.plain = true) : d.cmdFailed.Opened p := by
  simp only [Device.cmdFailed, hj]
  split
  · exact Device.opened_flushEnded h hj
  · rename_i hf
    have hf : j.flushing = false := by simpa using hf
    split
    · exact .of_plain hj hf h (hrest hf)
    · exact .of_none rfl h

/-- What follows a command outside a flush is plain. -/
theorem plain_commandAfter {pos : Option SeqStep} {i : Instr} (h : (Micro.cmd pos i).plain = true) :
    ∀ m ∈ commandAfter i, m.plain = true := by
  cases i with
  | ramwr => cases h
  | _ => simp [commandAfter, Micro.plain]

/-- A command outside a flush. -/
theorem Device.opened_commanded_plain {p : Params} {d : Device} {j : Job} (h : BurstsOpened p d.trace)
    (hf : j.flushing = false) (hrest : ∀ m ∈ j.todo, m.plain = true) {i : Instr}
    (hi : ∀ m ∈ commandAfter i, m.plain = true) (seq : SeqPos) (ok : Bool) :
    (Device.commanded p i ok { d with seq := seq, job := some j }).Opened p := by
  have hlog := h.append_quiet (ev := .cmd (i.lead p.opc) i.operands ok) rfl
  cases ok with
  | true => exact .of_plain rfl hf hlog (List.forall_mem_append.mpr ⟨hi, hrest⟩)
  | false => exact Device.opened_cmdFailed (d := Device.log { d with seq := seq, job := some j } _) hlog rfl fun _ => hrest

/-- A command of a flush, which goes on as `hs` says if the command is answered true. -/
theorem Device.opened_commanded_flush {p : Params} {d : Device} {j : Job} (h : BurstsOpened p d.trace)
    (hf : j.flushing = true) {i : Instr}
    (hs : FlushShape p (d.trace ++ [.cmd (i.lead p.opc) i.operands true]) (commandAfter i ++ j.todo)) (seq : SeqPos)
    (ok : Bool) : (Device.commanded p i ok { d with seq := seq, job := some j }).Opened p := by
  have hlog := h.append_quiet (ev := .cmd (i.lead p.opc) i.operands ok) rfl
  cases ok with
  | true => exact .of_flush rfl hf hlog hs
  | false =>
    exact Device.opened_cmdFailed (d := Device.log { d with seq := seq, job := some j } _) hlog rfl fun hnf =>
      absurd (hf.symm.trans hnf) nofun

/-- A command of a running request. -/
theorem Device.Opened.command {p : Params} {d : Device} {j : Job} {pos : Option SeqStep} {i : Instr}
    {rest : List Micro} (h : d.Opened p) (hj : d.job = some j) (ht : j.todo = .cmd pos i :: rest) (seq : SeqPos)
    (ok : Bool) :
    (Device.commanded p i ok { d with seq := seq, job := some { j with todo := rest } }).Opened p := by
  rcases h.next hj ht with ⟨hf, hn⟩ | ⟨hf, hi, hrest⟩
  · refine Device.opened_commanded_flush (j := { j with todo := rest }) h.1 hf ?_ seq ok
    cases hn with
    | caset a b c e tail hp =>
      exact ⟨tail, hp, .inr (.inr (.inl ⟨c, e, rfl, d.trace, windowParams a b, rfl, rfl⟩))⟩
    | paset c e tail hp hT =>
      obtain ⟨T', a, ha, hT⟩ := hT
      refine ⟨tail, hp, .inr (.inr (.inr (.inl ⟨rfl, T', a, windowParams c e, ha, rfl, ?_⟩)))⟩
      rw [hT, List.append_assoc]
      rfl
    | ramwr tail hp hT =>
      obtain ⟨T', a, b, ha, hb, hT⟩ := hT
      refine ⟨rest, hp, .inr (.inr (.inr (.inr ⟨rfl, T', a, b, ha, hb, ?_⟩)))⟩
      rw [hT, List.append_assoc]
      rfl
  · exact Device.opened_commanded_plain (j := { j with todo := rest }) h.1 hf hrest (plain_commandAfter hi) seq ok

theorem pwrSteps_plain (q : InitParams) (i : Nat) (cs : List PwrCmd) : ∀ m ∈ pwrSteps q i cs, m.plain = true := by
  induction cs generalizing i with
  | nil => simp [pwrSteps]
  | cons c cs ih => exact List.forall_mem_cons.mpr ⟨by cases c <;> rfl, ih (i + 1)⟩

/-- Steps 2 to 8 hold no command of a flush. -/
theorem initTable_plain (p : Params) : ∀ m ∈ initTable p, m.plain = true := by
  have hpwr : ∀ m ∈ pwrSteps p.init 1 p.pwrSeq, m.plain = true := pwrSteps_plain p.init 1 p.pwrSeq
  simp only [initTable, List.forall_mem_append]
  exact ⟨by simp [Micro.plain], hpwr, by simp [Micro.plain]⟩

/-- A flush that starts stands before its conversion or its CASET. -/
theorem flushShape_flushSteps (p : Params) (T : List Event) (path : Path) (R : Region) (left top : Int)
    {tail : List Micro} (hp : ∀ m ∈ tail, m.plain = true) : FlushShape p T (flushSteps path R left top ++ tail) := by
  refine ⟨tail, hp, ?_⟩
  cases path with
  | fast => exact .inl ⟨_, _, _, _, rfl⟩
  | copy => exact .inr (.inl ⟨_, _, _, _, rfl⟩)

/-- A step a running flush can have next: its conversion, a command, or its burst. -/
def Micro.inFlush : Micro → Bool
  | .convert | .data => true
  | .cmd _ i => i.isCommand
  | _ => false

theorem FlushNext.inFlush {p : Params} {T : List Event} {m : Micro} {rest : List Micro} (h : FlushNext p T m rest) :
    m.inFlush = true := by cases h <;> rfl

/-- A step that a flush never has next is taken outside one. -/
theorem Device.Opened.plain_next {p : Params} {d : Device} {j : Job} {m : Micro} {rest : List Micro} (h : d.Opened p)
    (hj : d.job = some j) (ht : j.todo = m :: rest) (hm : m.inFlush = false) :
    j.flushing = false ∧ ∀ m ∈ rest, m.plain = true := by
  rcases h.next hj ht with ⟨-, hn⟩ | ⟨hf, -, hrest⟩
  · exact absurd (hn.inFlush.symm.trans hm) nofun
  · exact ⟨hf, hrest⟩

/-- A host write leaves the steps and the flush. -/
theorem Device.Opened.hostWrote {p : Params} {d : Device} (h : d.Opened p) (off : Nat) (v : Byte) :
    (d.modJob (·.hostWrite off v)).Opened p := by
  refine ⟨h.1, fun j hj => ?_⟩
  obtain ⟨j', hj', rfl⟩ := Option.map_eq_some_iff.mp hj
  obtain ⟨-, htodo, hflush⟩ := j'.hostWrite_frame off v
  rw [htodo, hflush]
  exact h.2 j' hj'

/-- Every move keeps every burst opened, those of the running flush too. -/
theorem Moves.opened {p : Params} {d e : Device} {b c : Backlights} (hm : Moves p d b e c) (h : d.Opened p) :
    e.Opened p := by
  cases hm with
  | stays | disabled | removed => exact h
  | enabled R S hg hj => exact .of_plain rfl rfl h.1 (by simp [enableSteps, Micro.plain])
  | updated R S hg hj hv => exact .of_flush rfl rfl h.1 (flushShape_flushSteps p _ _ R _ _ (List.forall_mem_nil _))
  | hostWrote off v => exact h.hostWrote off v
  | dropped j pos i rest hj ht hi =>
    obtain ⟨hf, hrest⟩ := h.plain_next hj ht hi
    exact .of_plain rfl hf h.1 hrest
  | reset j fa r rest hj ht =>
    obtain ⟨hf, hrest⟩ := h.plain_next hj ht rfl
    have hlog := h.1.append_quiet (ev := .reset r) rfl
    cases r with
    | failed => exact .of_none rfl hlog
    | retained => exact .of_plain rfl hf hlog hrest
    | needsInit => exact .of_plain rfl hf hlog (List.forall_mem_append.mpr ⟨initTable_plain p, hrest⟩)
  | command j pos i ok rest hj ht hi =>
    rw [Device.atStep_eq]
    exact h.command hj ht _ ok
  | delay j ms rest hj ht =>
    obtain ⟨hf, hrest⟩ := h.plain_next hj ht rfl
    exact .of_plain rfl hf (h.1.append_quiet rfl) hrest
  | addrMode j ok rest hj ht =>
    obtain ⟨hf, hrest⟩ := h.plain_next hj ht rfl
    exact Device.opened_commanded_plain (j := { j with todo := rest }) h.1 hf hrest (i := .madctl _)
      (plain_commandAfter (pos := none) rfl) (.at .step9) ok
  | paintGone j rest hj ht hg => exact Device.opened_flushEnded h.1 rfl
  | paint j rest hj ht hg hv =>
    obtain ⟨-, hrest⟩ := h.plain_next hj ht rfl
    exact .of_flush rfl rfl h.1 (flushShape_flushSteps p _ _ _ _ _ hrest)
  | unsupported j rest hj ht hf => exact Device.opened_flushEnded h.1 rfl
  | converted j rest bytes hj ht hl =>
    rcases h.next hj ht with ⟨hf, hn⟩ | ⟨hf, -, hrest⟩
    · cases hn with
      | convert a b c e tail hp => exact .of_flush rfl hf h.1 ⟨tail, hp, .inl ⟨a, b, c, e, rfl⟩⟩
    · exact .of_plain rfl hf h.1 hrest
  | data j rest bytes ok hj ht =>
    rcases h.next hj ht with ⟨-, hn⟩ | ⟨-, hplain, -⟩
    · cases hn with
      | data tail hp hT => exact Device.opened_flushEnded (h.1.append fun _ _ _ => hT) rfl
    · cases hplain
  | blOn j rest hj ht =>
    obtain ⟨hf, hrest⟩ := h.plain_next hj ht rfl
    exact .of_plain rfl hf (h.1.append_quiet rfl) hrest
  | _ => exact .of_none rfl h.1

/-- A newly bound device has an empty transcript and runs nothing. -/
theorem freshDevice_opened (p : Params) (r : Rotation) (left top : Int) (swap hasDc : Bool) (bl : BacklightId) :
    (freshDevice r left top swap hasDc bl).Opened p :=
  .of_none rfl fun before bytes ok after h => by cases before <;> cases h

/-- Settles O47: every move keeps the shape of a running flush, and only a flush behind its RAMWR sends a burst. -/
theorem stepKeepsBurstsOpened : Obligations.StepKeepsBurstsOpened := by
  intro s t hs hstep
  have hm := step_moves hstep
  rw [State.Opened, hm.cfg]
  exact hm.all_devs (fun d b e c hmove => hmove.opened) (freshDevice_opened s.cfg) hs

/-- Settles O48: at platform reset nothing is bound and no line is listed (R150). -/
theorem resetMeetsTheInvariants : Obligations.ResetMeetsTheInvariants := by
  have hdevs : ∀ P : Device → Prop, ∀ d ∈ State.reset.devs, P d := by simp
  have hlines : State.reset.blk.lines = [] := rfl
  refine ⟨⟨hdevs _, ?_, ?_⟩, fun id => ?_, hdevs _, hdevs _, hdevs _⟩
  · rw [hlines]
    exact .nil
  · simp
  · rw [Backlights.get_unlisted (by simp)]
    rfl

end Sys2Proof.Machine
end

section
/-! PROOFS. What a turn of an engine reaches (R36, R37, R147): its own device's record, which it never removes, and that
device's backlight line, which it never turns off. -/

namespace Sys2Proof.Machine

open Sys2Proof

/-! ## Operations on the current device -/

/-- From `s` to `t` the current device's record was changed without a removal, and no line. -/
structure Local (s t : State) : Prop where
  devs : ∃ f, t.devs = s.devs.modify s.cur f ∧ ∀ d, (f d).gone = d.gone
  blk : t.blk = s.blk
  cur : t.cur = s.cur

theorem Local.trans {s t u : State} (h : Local s t) (h' : Local t u) : Local s u := by
  obtain ⟨⟨f, hdevs, hf⟩, hblk, hcur⟩ := h
  obtain ⟨⟨f', hdevs', hf'⟩, hblk', hcur'⟩ := h'
  refine ⟨⟨f' ∘ f, ?_, fun d => (hf' _).trans (hf d)⟩, hblk'.trans hblk, hcur'.trans hcur⟩
  rw [hdevs', hcur, hdevs, List.modify_modify_eq]

theorem Local.refl (s : State) : Local s s := ⟨⟨id, by simp, fun _ => rfl⟩, rfl, rfl⟩

theorem local_modDev (s : State) (f : Device → Device) (hf : ∀ d, (f d).gone = d.gone := by exact fun _ => rfl) :
    Local s (s.modDev f) := ⟨⟨f, rfl, hf⟩, rfl, rfl⟩

theorem local_busCmd (s : State) (op : Byte) (ps : List Byte) : Local s (s.busCmd op ps) :=
  ⟨⟨_, rfl, fun _ => rfl⟩, rfl, rfl⟩

theorem local_busData (s : State) (bs : List Byte) : Local s (s.busData bs) := ⟨⟨_, rfl, fun _ => rfl⟩, rfl, rfl⟩

theorem local_busReset (s : State) : Local s s.busReset := ⟨⟨_, rfl, fun _ => rfl⟩, rfl, rfl⟩

theorem local_endRequest (s : State) (c : ResultCode) : Local s (s.endRequest c) := ⟨⟨_, rfl, fun _ => rfl⟩, rfl, rfl⟩

theorem local_enableFail (s : State) (c : ResultCode) : Local s (s.enableFail c) :=
  (local_modDev s _).trans (local_endRequest _ c)

theorem local_flushEnd (s : State) (c : ResultCode) : Local s (s.flushEnd c) := by
  unfold State.flushEnd
  split
  · exact .refl s
  · split
    · exact local_endRequest s c
    · exact local_modDev s _

theorem local_cmdFailed (s : State) : Local s s.cmdFailed := by
  unfold State.cmdFailed
  split
  · exact .refl s
  · split
    · exact .refl s
    · split
      · exact local_flushEnd s _
      · split
        · exact .refl s
        · exact local_enableFail s _

/-- A burst, whatever its read drew. -/
theorem local_sendBurst (s : State) (env : Env) (bs : List Byte) : Local s ({ s with env := env }.sendBurst bs) := by
  obtain ⟨hdevs, hblk, hcur⟩ := (local_busData { s with env := env } bs).trans (local_flushEnd _ _)
  exact ⟨hdevs, hblk, hcur⟩

theorem local_atStep (s : State) (pos : Option SeqStep) : Local s (s.atStep pos) := by
  cases pos with
  | none => exact .refl s
  | some k => exact local_modDev s _

/-- A panel command. -/
theorem local_exec_command {s t : State} {i : Instr} (hi : i.isCommand = true) (ht : exec i s = .next t) :
    Local s t := by
  rw [exec_command hi, issue] at ht
  split at ht
  · cases ht
  · obtain rfl := Host.Outcome.next.inj ht
    have hbus := local_busCmd s (i.lead s.cfg.opc) i.operands
    split
    · exact hbus.trans (local_modDev _ _)
    · exact hbus.trans (local_cmdFailed _)

theorem local_resetStep (s : State) (fa : Bool) : Local s (resetStep fa s) := by
  unfold resetStep
  split
  · exact (local_busReset s).trans (local_enableFail _ _)
  · exact local_busReset s
  · exact (local_busReset s).trans (local_modDev _ _)

/-! ## Steps of a request -/

/-- Every step of a request but the backlight step. -/
theorem local_runMicro {s t : State} {m : Micro} (hm : m ≠ .blOn) (ht : runMicro m s = .next t) : Local s t := by
  cases m with
  | blOn => exact absurd rfl hm
  | reset fa =>
    obtain rfl := Host.Outcome.next.inj ht
    exact local_resetStep s fa
  | cmd pos i =>
    simp only [runMicro] at ht
    split at ht
    · exact (local_atStep s pos).trans (local_exec_command ‹_› ht)
    · obtain rfl := Host.Outcome.next.inj ht
      exact .refl s
  | delay ms =>
    obtain rfl := Host.Outcome.next.inj ht
    exact local_modDev s _
  | addrMode =>
    simp only [runMicro, addrModeStep] at ht
    split at ht
    · obtain rfl := Host.Outcome.next.inj ht
      exact .refl s
    · exact (local_atStep s _).trans (local_exec_command rfl ht)
  | paint =>
    simp only [runMicro, paintStep] at ht
    repeat' split at ht
    all_goals cases ht
    · exact .refl s
    · exact .refl s
    · exact (local_modDev s _).trans (local_flushEnd _ _)
    · exact local_modDev s _
  | convert =>
    simp only [runMicro, convertStep] at ht
    repeat' split at ht
    all_goals cases ht
    · exact .refl s
    · exact .refl s
    · exact (local_modDev s _).trans (local_flushEnd _ _)
    · exact ⟨⟨_, rfl, fun _ => rfl⟩, rfl, rfl⟩
  | data =>
    simp only [runMicro, dataStep] at ht
    repeat' split at ht
    all_goals obtain rfl := Host.Outcome.next.inj ht
    · exact .refl s
    · exact .refl s
    · exact local_sendBurst s _ _
  | finish =>
    obtain rfl := Host.Outcome.next.inj ht
    exact (local_modDev s _).trans (local_endRequest _ _)

/-- From `s` to `t` only the record of device `n` and its backlight line were changed: the device was not removed, and the
line was at most enabled. -/
structure EngineFrame (n : Nat) (s t : State) : Prop where
  devs : ∃ f, t.devs = s.devs.modify n f ∧ ∀ d, (f d).gone = d.gone
  blk : t.blk = s.blk ∨ ∃ d, s.devs[n]? = some d ∧ t.blk = s.blk.enable d.bl

theorem Local.engineFrame {s t : State} (h : Local s t) : EngineFrame s.cur s t := ⟨h.devs, .inl h.blk⟩

/-- A step of the engine of the current device. -/
theorem runMicro_frame {s t : State} {m : Micro} (ht : runMicro m s = .next t) : EngineFrame s.cur s t := by
  by_cases hm : m = .blOn
  · subst hm
    obtain rfl := Host.Outcome.next.inj ht
    unfold State.blEnable
    split
    · exact (Local.refl s).engineFrame
    · rename_i d hd
      exact ⟨⟨_, rfl, fun _ => rfl⟩, .inr ⟨d, hd, rfl⟩⟩
  · exact (local_runMicro hm ht).engineFrame

theorem runNext_frame {s t : State} {todo : List Micro} (ht : runNext todo s = .next t) : EngineFrame s.cur s t := by
  cases todo with
  | nil =>
    obtain rfl := Host.Outcome.next.inj ht
    exact (local_modDev s _).engineFrame
  | cons m rest =>
    obtain ⟨⟨f, hdevs, hf⟩, hblk⟩ := runMicro_frame ht
    refine ⟨⟨f ∘ (·.modJob fun j => { j with todo := rest }), ?_, fun d => hf _⟩, hblk.imp id ?_⟩
    · rw [hdevs, State.modDev_devs, State.modDev_cur, List.modify_modify_eq]
    · rintro ⟨d, hd, hb⟩
      obtain ⟨d', hd', rfl⟩ := Option.map_eq_some_iff.mp ((State.modDev_dev? s _).symm.trans hd)
      exact ⟨d', hd', hb⟩

/-- Which device is current and what is drawn play no part in it. -/
theorem EngineFrame.of_cur {n c : Nat} {env : Env} {s t : State}
    (h : EngineFrame n { s with cur := c, env := env } t) : EngineFrame n s t := ⟨h.devs, h.blk⟩

/-- A step of one engine reaches its own device's record and line alone. -/
theorem engineStep_frame {s t : State} {n : Nat} (ht : engineStep n s = .next t) : EngineFrame n s t := by
  have hstay : EngineFrame n s s := ⟨⟨id, by simp, fun _ => rfl⟩, .inl rfl⟩
  unfold engineStep at ht
  split at ht
  · obtain rfl := Host.Outcome.next.inj ht
    exact hstay
  · split at ht
    · obtain rfl := Host.Outcome.next.inj ht
      exact hstay
    · split at ht
      · split at ht
        · exact (runNext_frame ht).of_cur
        · obtain rfl := Host.Outcome.next.inj ht
          exact ⟨⟨_, rfl, fun _ => rfl⟩, .inl rfl⟩
      · exact EngineFrame.of_cur (env := s.env) (runNext_frame ht)

/-- The turn at the head of the inputs is a step of that engine. -/
theorem step_turn {s : State} {n : Nat} {rest : List Input} (hi : s.inputs = .turn n :: rest) :
    step s = engineStep n { s with inputs := rest } := by
  simp only [step, move, hi]

/-- Settles O51: the turn is a step of that engine. -/
theorem turnTouchesOneDevice : Obligations.TurnTouchesOneDevice := by
  intro s t n rest hi hstep
  rw [step_turn hi] at hstep
  obtain ⟨⟨f, hdevs, -⟩, hblk⟩ := engineStep_frame hstep
  refine ⟨by rw [hdevs, List.length_modify], fun m hm => ?_, fun id hid => ?_⟩
  · rw [hdevs, List.getElem?_modify_ne _ _ (Ne.symm hm)]
  · rcases hblk with hb | ⟨d, hd, hb⟩
    · rw [hb]
    · rw [hb, Backlights.get_enable_ne _ (Ne.symm (hid d hd))]

/-- A step of its engine removes no device. -/
theorem EngineFrame.gone {n : Nat} {s t : State} (h : EngineFrame n s t) {d e : Device} (hd : s.devs[n]? = some d)
    (he : t.devs[n]? = some e) : e.gone = d.gone := by
  obtain ⟨f, hdevs, hf⟩ := h.devs
  rw [hdevs, List.getElem?_modify_eq, hd] at he
  obtain rfl := Option.some.inj he
  exact hf d

/-! ## The flush of an UPDATE -/

/-- A step taken off an UPDATE's flush that ends the flush, or a command answered false in it, keeps the state and leaves
the position Idle. -/
theorem Device.flushEnded_idle {d : Device} {j : Job} (hj : d.job = some j) (hr : j.req = .update) :
    d.flushEnded.st = d.st ∧ d.flushEnded.seq = .idle := by
  rw [Device.flushEnded_update hj hr]
  exact ⟨rfl, rfl⟩

/-- A command of an UPDATE's flush keeps the state and leaves the position Idle. -/
theorem Device.commanded_idle {d : Device} {j : Job} (hj : d.job = some j) (hr : j.req = .update)
    (hf : j.flushing = true) (hs : d.seq = .idle) (p : Params) (i : Instr) (ok : Bool) :
    (d.commanded p i ok).st = d.st ∧ (d.commanded p i ok).seq = .idle := by
  cases ok with
  | true => exact ⟨rfl, hs⟩
  | false =>
    have hfail : (d.commanded p i false) = (d.log (.cmd (i.lead p.opc) i.operands false)).flushEnded := by
      simp [Device.commanded, Device.cmdFailed, hj, hf]
    rw [hfail]
    exact Device.flushEnded_idle (d := d.log _) hj hr

/-- A move of a device in the flush of an UPDATE keeps its state and its position, unless it removes the device. -/
theorem Moves.update_idle {p : Params} {d e : Device} {b c : Backlights} (hm : Moves p d b e c) (hg : e.gone = d.gone)
    (h : d.Tracked) {j : Job} (hj : d.job = some j) (hr : j.req = .update) (hf : j.flushing = true) :
    e.st = d.st ∧ e.seq = .idle := by
  obtain ⟨hs, -, hu⟩ := (Device.tracked_update hj hr).mp h
  have hjob : ∀ {j'}, d.job = some j' → j' = j := fun hj' => Option.some.inj (hj'.symm.trans hj)
  have hnext : ∀ {j' m rest}, d.job = some j' → j'.todo = m :: rest → m.inUpdate = true := fun hj' ht => by
    obtain rfl := hjob hj'
    exact hu _ (ht ▸ List.mem_cons_self)
  cases hm with
  | stays | hostWrote => exact ⟨rfl, hs⟩
  | disabled hg' hj' | enabled R S hg' hj' | updated R S hg' hj' hv => exact absurd (hj.symm.trans hj') nofun
  | removed hg' => exact absurd (hg.trans hg') nofun
  | dropped | delay | converted => exact ⟨rfl, hs⟩
  | reset j' fa r rest hj' ht => exact absurd (hnext hj' ht) nofun
  | command j' pos i ok rest hj' ht hi =>
    obtain rfl : pos = none := by simpa [Micro.inUpdate] using hnext hj' ht
    obtain rfl := hjob hj'
    exact Device.commanded_idle (d := { d with job := _ }) (j := { j' with todo := rest }) rfl hr hf hs p i ok
  | addrMode j' ok rest hj' ht => exact absurd (hnext hj' ht) nofun
  | paintGone j' rest hj' ht => exact absurd (hnext hj' ht) nofun
  | paint j' rest hj' ht => exact absurd (hnext hj' ht) nofun
  | unsupported j' rest hj' ht hfmt =>
    obtain rfl := hjob hj'
    exact Device.flushEnded_idle (d := Device.countConversion _) (j := { j' with todo := rest }) rfl hr
  | data j' rest bytes ok hj' ht =>
    obtain rfl := hjob hj'
    exact Device.flushEnded_idle (d := Device.log _ _) (j := { j' with todo := rest }) rfl hr
  | blOn j' rest hj' ht => exact absurd (hnext hj' ht) nofun
  | finish j' rest hj' ht => exact absurd (hnext hj' ht) nofun
  | _ => exact ⟨rfl, rfl⟩

/-- Settles O54: the turn's move is one of an UPDATE's flush, and it removes no device. -/
theorem updateNeverChangesDeviceState : Obligations.UpdateNeverChangesDeviceState := by
  intro s t n rest d j hi hstep hn htr hj hr hf
  obtain ⟨e, he, rfl | hmove⟩ := (step_moves hstep).get hn
  · exact ⟨e, he, rfl, ((Device.tracked_update hj hr).mp htr).1⟩
  · rw [step_turn hi] at hstep
    exact ⟨e, he, hmove.update_idle ((engineStep_frame hstep).gone hn he) htr hj hr hf⟩

/-! ## Backlight lines (R146) -/

/-- Every line that is on in `b` is on in `c`. -/
def Backlights.StaysLit (b c : Backlights) : Prop := ∀ id, (b.get id).on = true → (c.get id).on = true

theorem Backlights.StaysLit.refl (b : Backlights) : b.StaysLit b := fun _ => id

/-- A line is written that stays on if it was. -/
theorem Backlights.staysLit_set (b : Backlights) {id : BacklightId} {l : Line} (h : (b.get id).on = true → l.on = true) :
    b.StaysLit (b.set id l) := fun n hn => by
  by_cases hid : n = id
  · subst hid
    rw [Backlights.get_set_same]
    exact h hn
  · rwa [Backlights.get_set_ne b hid]

/-- No step of an engine turns a line off. -/
theorem engineStep_staysLit {s t : State} {n : Nat} (ht : engineStep n s = .next t) : s.blk.StaysLit t.blk := by
  rcases (engineStep_frame ht).blk with h | ⟨d, -, h⟩ <;> rw [h]
  · exact .refl _
  · exact Backlights.staysLit_set _ fun _ => rfl

/-- No request but SHUTDOWN turns a line off: BIND and REMOVE keep `on`, the others write no line. -/
theorem exec_request_staysLit {s t : State} {i : Instr} (hi : i.isCommand = false) (hne : i ≠ .shutdown)
    (ht : exec i s = .next t) : s.blk.StaysLit t.blk := by
  cases i with
  | bind rot left top swap hasDc bl =>
    obtain rfl := Host.Outcome.next.inj ht
    split
    · split
      · exact .refl _
      · exact Backlights.staysLit_set _ id
    · exact .refl _
  | enable region S =>
    obtain ⟨d, -, ⟨-, rfl⟩ | ⟨-, -, hk⟩⟩ := onDevice_next ht
    · exact .refl _
    · obtain rfl := Host.Outcome.next.inj hk
      exact .refl _
  | update R S =>
    obtain ⟨d, -, ⟨-, rfl⟩ | ⟨-, -, hk⟩⟩ := onDevice_next ht
    · exact .refl _
    · split at hk
      · obtain rfl := Host.Outcome.next.inj hk
        exact .refl _
      · cases hk
  | disable =>
    obtain ⟨d, -, ⟨-, rfl⟩ | ⟨-, -, hk⟩⟩ := onDevice_next ht
    · exact .refl _
    · obtain rfl := Host.Outcome.next.inj hk
      exact .refl _
  | remove =>
    cases hd : s.dev? with
    | none => simp [exec, execRemove, hd] at ht
    | some d =>
      cases hg : d.gone with
      | true =>
        rw [exec_remove_gone hd hg] at ht
        obtain rfl := Host.Outcome.next.inj ht
        exact .refl _
      | false =>
        rw [exec_remove_bound hd hg] at ht
        obtain rfl := Host.Outcome.next.inj ht
        exact Backlights.staysLit_set _ id
  | shutdown => exact absurd rfl hne
  | _ => cases hi

/-- No step but that of a SHUTDOWN turns a line off. -/
theorem step_staysLit {s t : State} (ht : step s = .next t)
    (hno : ∀ d bytes rest, s.inputs = .request d bytes :: rest → decodeRequest bytes ≠ .ok .shutdown) :
    s.blk.StaysLit t.blk := by
  unfold step move at ht
  split at ht
  · unfold drain at ht
    split at ht
    · obtain rfl := Host.Outcome.next.inj ht
      exact .refl _
    · exact engineStep_staysLit ht
    · exact (engineStep_staysLit ht :)
  · rename_i d bytes rest hi
    unfold takeRequest at ht
    split at ht
    · cases ht
    · rename_i i hdec
      split at ht
      · exact engineStep_staysLit ht
      · have hne : i ≠ .shutdown := fun h => hno d bytes rest hi (h ▸ hdec)
        exact (exec_request_staysLit (decodeRequest_request hdec) hne ht :)
  · exact (exec_request_staysLit (i := .remove) rfl nofun ht :)
  · exact (engineStep_staysLit ht :)
  · obtain rfl := Host.Outcome.next.inj ht
    exact .refl _

/-- Settles O52: no other step turns a line off. -/
theorem onlyShutdownTurnsALineOff : Obligations.OnlyShutdownTurnsALineOff := by
  intro s t id hstep hon hoff
  refine Classical.byContradiction fun hno => ?_
  have hlit := step_staysLit hstep (fun d bytes rest hi hdec => hno ⟨d, bytes, rest, hi, hdec⟩) id hon
  exact absurd (hlit.symm.trans hoff) nofun

/-- A listed value that is found is one of the table's. -/
theorem Table.mem_of_find {α : Type} {k : Nat} {v : α} {t : List (Nat × α)} (h : Table.find k t = some v) :
    (k, v) ∈ t := by
  induction t with
  | nil => cases h
  | cons e t ih =>
    obtain ⟨a, w⟩ := e
    simp only [Table.find] at h
    split at h
    · obtain rfl := Option.some.inj h
      subst a
      exact List.mem_cons_self
    · exact List.mem_cons_of_mem _ (ih h)

/-- After SHUTDOWN every line is off, listed or not. -/
theorem Backlights.off_disableAll (b : Backlights) (id : BacklightId) : (b.disableAll.get id).on = false := by
  unfold Backlights.get
  cases h : Table.find id b.disableAll.lines with
  | none => rfl
  | some l =>
    obtain ⟨hmem, -⟩ := List.mem_filter.mp (Table.mem_of_find h)
    obtain ⟨e, -, he⟩ := List.mem_map.mp hmem
    rw [Option.getD_some, ← (Prod.mk.inj he).2]

/-- Settles O53: of all moves only the backlight step turns a line on, the device's own, and no UPDATE has that step. -/
theorem onlyEnableTurnsALineOn : Obligations.OnlyEnableTurnsALineOn := by
  intro s t id htr hstep hoff hon
  have hsame : t.blk.get id ≠ s.blk.get id := fun h => by
    rw [h, hoff] at hon
    cases hon
  cases step_moves hstep with
  | device n d e hn hmove ht hc =>
    rcases hmove.blk with ⟨h, -⟩ | ⟨-, -, h⟩ | ⟨h, -, htrace, j, rest, hj, htodo⟩
    · exact absurd (by rw [h]) hsame
    · by_cases hid : id = d.bl
      · rw [h, hid, Backlights.get_release_same, ← hid, hoff] at hon
        cases hon
      · exact absurd (by rw [h, Backlights.get_release_ne _ hid]) hsame
    · have hid : d.bl = id := Decidable.byContradiction fun hne =>
        hsame (by rw [h, Backlights.get_enable_ne _ (Ne.symm hne)])
      have hreq := ((htr d (List.mem_of_getElem? hn)).enable_next hj htodo rfl).1
      have hlt := (List.getElem?_eq_some_iff.mp hn).1
      exact ⟨n, d, j, e, hn, hj, hreq, by rw [htodo]; rfl, hid, by simp [ht, hlt], hid ▸ htrace⟩
  | shutdown hb ht hc =>
    rw [hb, Backlights.off_disableAll] at hon
    cases hon
  | platform hb ht hc => exact absurd (by rw [hb]) hsame
  | bound r left top swap hasDc bl ht hb hc =>
    have hattach : ((s.blk.attach bl).get id).on = (s.blk.get id).on := by
      by_cases hid : id = bl
      · simp [Backlights.attach, hid]
      · rw [Backlights.attach, Backlights.get_set_ne _ hid]
    rw [hb, hattach, hoff] at hon
    cases hon

/-! ## A turn after a removal (R143) -/

/-- Settles O42: the draw is looked at before the request's next step. -/
theorem removedRequestStopsOrGoesOn : Obligations.RemovedRequestStopsOrGoesOn := by
  intro s n rest d j hi hn hg hj
  have hstep := step_turn hi
  simp only [engineStep, hn, hj, hg, if_true] at hstep
  refine ⟨fun hstop => ?_, fun hgo => ?_⟩
  · have hdraw : State.goOnDraw { s with inputs := rest } = false := hstop
    simp only [hdraw, Bool.false_eq_true, if_false] at hstep
    exact ⟨_, hstep, State.modDev_devs_set (s := { s with cur := n, inputs := rest, env := _ }) hn _, rfl, rfl⟩
  · have hdraw : State.goOnDraw { s with inputs := rest } = true := hgo
    simpa only [hdraw, if_true] using hstep

end Sys2Proof.Machine
end

section
/-! PROOFS. Panel commands: one transaction, what follows it, what a false answer does, and what stays (30_encoding.md
section 2, R84, R96, R97, R119). -/

namespace Sys2Proof.Machine

open Sys2Proof

/-! ## The end of a flush and the failure of a command -/

/-- What the end of a flush returns: UPDATE's result, and nothing in ENABLE's step 10 (R87, R119). -/
def Device.flushCodes (d : Device) (code : ResultCode) : List ResultCode :=
  match d.job with
  | none => []
  | some j =>
    match j.req with
    | .update => [code]
    | .enable => []

/-- The end of an UPDATE's flush is the end of the request. -/
theorem Device.flushCodes_update {d : Device} {j : Job} (hj : d.job = some j) (hr : j.req = .update) (c : ResultCode) :
    d.flushCodes c = [c] := by simp only [Device.flushCodes, hj, hr]

/-- The end of the flush of ENABLE's step 10 is not. -/
theorem Device.flushCodes_enable {d : Device} {j : Job} (hj : d.job = some j) (hr : j.req = .enable) (c : ResultCode) :
    d.flushCodes c = [] := by simp only [Device.flushCodes, hj, hr]

/-- What a command answered false returns: what its flush does, nothing at step 9, else BUS_FAILURE (R84, R97, R119). -/
def Device.failCodes (d : Device) : List ResultCode :=
  match d.job with
  | none => []
  | some j =>
    if j.flushing then d.flushCodes .busFailure
    else if d.seq = .at .step9 then []
    else [.busFailure]

/-- Result codes as returned for device `n`. -/
def returned (n : Nat) (codes : List ResultCode) : List Return := codes.map fun c => ⟨some n, c⟩

@[simp] theorem returned_nil (n : Nat) : returned n [] = [] := rfl
@[simp] theorem returned_cons (n : Nat) (c : ResultCode) (cs : List ResultCode) :
    returned n (c :: cs) = ⟨some n, c⟩ :: returned n cs := rfl

/-- The end of a flush takes no input and draws nothing. -/
theorem State.flushEnd_frame (s : State) (c : ResultCode) :
    (s.flushEnd c).inputs = s.inputs ∧ (s.flushEnd c).env = s.env := by
  unfold State.flushEnd
  split
  · exact ⟨rfl, rfl⟩
  · split <;> exact ⟨rfl, rfl⟩

theorem State.flushEnd_returns {s : State} {d : Device} (hd : s.dev? = some d) (c : ResultCode) :
    (s.flushEnd c).returns = s.returns ++ returned s.cur (d.flushCodes c) := by
  cases hj : d.job with
  | none => simp [State.flushEnd, Device.flushCodes, hd, hj]
  | some j => cases hr : j.req <;> simp [State.flushEnd, Device.flushCodes, hd, hj, hr]

/-- A burst draws one answer, takes no input and returns what the end of its flush does. -/
theorem State.sendBurst_frame {s : State} {d : Device} (hd : s.dev? = some d) (bs : List Byte) :
    (s.sendBurst bs).inputs = s.inputs ∧ (s.sendBurst bs).env = { s.env with ok := s.env.ok.next } ∧
      (s.sendBurst bs).returns =
        s.returns ++ returned s.cur (d.flushCodes (if s.okDraw then .ok else .busFailure)) := by
  obtain ⟨hin, henv⟩ := (s.busData bs).flushEnd_frame (if s.okDraw then .ok else .busFailure)
  exact ⟨hin, henv, State.flushEnd_returns (d := d.log _) ((writes_busData hd bs).dev? hd) _⟩

/-- The failure of a command takes no input and draws nothing. -/
theorem State.cmdFailed_frame (s : State) : s.cmdFailed.inputs = s.inputs ∧ s.cmdFailed.env = s.env := by
  unfold State.cmdFailed
  split
  · exact ⟨rfl, rfl⟩
  · split
    · exact ⟨rfl, rfl⟩
    · split
      · exact s.flushEnd_frame _
      · split <;> exact ⟨rfl, rfl⟩

theorem State.cmdFailed_returns {s : State} {d : Device} (hd : s.dev? = some d) :
    s.cmdFailed.returns = s.returns ++ returned s.cur d.failCodes := by
  cases hj : d.job with
  | none => simp [State.cmdFailed, Device.failCodes, hd, hj]
  | some j =>
    simp only [State.cmdFailed, Device.failCodes, hd, hj]
    split
    · exact State.flushEnd_returns hd _
    · split <;> simp

/-! ## One command -/

/-- The state a panel command leaves, by its answer. -/
def State.commanded (i : Instr) (s : State) : State :=
  if s.okDraw then (s.busCmd (i.lead s.cfg.opc) i.operands).modDev (·.push (commandAfter i))
  else (s.busCmd (i.lead s.cfg.opc) i.operands).cmdFailed

/-- A panel command on a bound device answers a next state. -/
theorem exec_command_bound {i : Instr} (hi : i.isCommand = true) {s : State} {d : Device} (hd : s.dev? = some d) :
    exec i s = .next (s.commanded i) := by
  simp only [exec_command hi, issue, hd]
  rfl

/-- A command draws one answer and takes no input. -/
theorem State.commanded_frame (i : Instr) (s : State) :
    (s.commanded i).inputs = s.inputs ∧ (s.commanded i).env = { s.env with ok := s.env.ok.next } := by
  unfold State.commanded
  split
  · exact ⟨rfl, rfl⟩
  · exact (s.busCmd _ _).cmdFailed_frame

/-- What a command returns. -/
theorem State.commanded_returns {i : Instr} {s : State} {d : Device} (hd : s.dev? = some d) :
    (s.commanded i).returns = s.returns ++ returned s.cur (if s.okDraw then [] else d.failCodes) := by
  unfold State.commanded
  split
  · simp
  · exact State.cmdFailed_returns (d := d.log _) ((writes_busCmd hd _ _).dev? hd)

/-- What a command writes. -/
theorem State.commanded_writes {i : Instr} (hi : i.isCommand = true) {s : State} {d : Device} (hd : s.dev? = some d) :
    Writes s (s.commanded i) (d.commanded s.cfg i s.okDraw) := by
  have hx := exec_command_bound hi hd
  rw [exec_command hi] at hx
  exact issue_writes hd hx

/-! ## The record after a command -/

/-- Answered true. -/
theorem Device.commanded_true (p : Params) (i : Instr) (d : Device) :
    d.commanded p i true =
      { d with
        trace := d.trace ++ [.cmd (i.lead p.opc) i.operands true]
        job := d.job.map fun j => { j with todo := commandAfter i ++ j.todo } } := rfl

/-- Answered false outside a flush and before step 9. -/
theorem Device.commanded_early {d : Device} {j : Job} (hj : d.job = some j) (hf : j.flushing = false)
    (hs : d.seq ≠ .at .step9) (p : Params) (i : Instr) :
    d.failCodes = [.busFailure] ∧
      d.commanded p i false =
        { d with
          st := .disabled
          seq := .idle
          job := none
          trace := d.trace ++ [.cmd (i.lead p.opc) i.operands false] } := by
  simp [Device.failCodes, Device.commanded, Device.cmdFailed, Device.ended, Device.log, hj, hf, hs]

/-- Answered false at step 9. -/
theorem Device.commanded_step9 {d : Device} {j : Job} (hj : d.job = some j) (hf : j.flushing = false)
    (hs : d.seq = .at .step9) (p : Params) (i : Instr) :
    d.failCodes = [] ∧
      d.commanded p i false = { d with trace := d.trace ++ [.cmd (i.lead p.opc) i.operands false] } := by
  simp [Device.failCodes, Device.commanded, Device.cmdFailed, Device.log, hj, hf, hs]

/-- Answered false in the flush of an ENABLE. -/
theorem Device.commanded_paint {d : Device} {j : Job} (hj : d.job = some j) (hr : j.req = .enable)
    (hf : j.flushing = true) (p : Params) (i : Instr) :
    d.failCodes = [] ∧
      d.commanded p i false =
        { d with
          trace := d.trace ++ [.cmd (i.lead p.opc) i.operands false]
          job := some { j with flushing := false, raced := [], todo := [.blOn, .finish] } } := by
  simp [Device.failCodes, Device.flushCodes, Device.commanded, Device.cmdFailed, Device.flushEnded, Device.log, hj, hf,
    hr]

/-- Answered false in the flush of an UPDATE. -/
theorem Device.commanded_update {d : Device} {j : Job} (hj : d.job = some j) (hr : j.req = .update)
    (hf : j.flushing = true) (p : Params) (i : Instr) :
    d.failCodes = [.busFailure] ∧
      d.commanded p i false =
        { d with
          seq := .idle
          job := none
          trace := d.trace ++ [.cmd (i.lead p.opc) i.operands false] } := by
  simp [Device.failCodes, Device.flushCodes, Device.commanded, Device.cmdFailed, Device.flushEnded, Device.ended,
    Device.log, hj, hf, hr]

/-! ## The statements -/

/-- Settles O40: a command answered true logs its event and pushes what follows it. -/
theorem commandIsOneTransaction : Obligations.CommandIsOneTransaction := by
  intro s d i hd hok hi
  have hw := State.commanded_writes hi hd
  rw [hok, Device.commanded_true] at hw
  have hret := State.commanded_returns (i := i) hd
  rw [hok, if_pos rfl, returned_nil, List.append_nil] at hret
  obtain ⟨hin, henv⟩ := State.commanded_frame i s
  exact ⟨_, exec_command_bound hi hd, hw.devs, hw.blk, hw.cfg, hw.cur, hin, hret, henv⟩

/-- Settles O41: the command writes one record, and of that only the event, the request, the position and the state. -/
theorem commandFrame : Obligations.CommandFrame := by
  intro s t i hi ht
  obtain ⟨d, hd, -⟩ := exec_command_writes hi ht
  obtain rfl := Host.Outcome.next.inj ((exec_command_bound hi hd).symm.trans ht)
  have hw := State.commanded_writes hi hd
  obtain ⟨hin, henv⟩ := State.commanded_frame i s
  obtain ⟨hbind, hgone, hwb, hcount, htrace⟩ := d.commanded_frame s.cfg i s.okDraw
  have hget : (s.commanded i).devs[s.cur]? = some (d.commanded s.cfg i s.okDraw) := by
    rw [← hw.cur]
    exact hw.dev? hd
  refine ⟨fun n hn => ?_, hw.blk, hw.cfg, hw.cur, hin, henv, d, _, hd, hget, hbind, hgone, hwb, hcount, htrace⟩
  rw [hw.devs, List.getElem?_set_ne (Ne.symm hn)]

/-- Settles O18: outside a flush and before step 9 a false answer fails the request. -/
theorem earlyCommandFailureIsFatal : Obligations.EarlyCommandFailureIsFatal := by
  intro s d j i hi hd hj hf hs hok
  obtain ⟨hcodes, hrec⟩ := Device.commanded_early hj hf hs s.cfg i
  have hw := State.commanded_writes hi hd
  rw [hok, hrec] at hw
  have hret := State.commanded_returns (i := i) hd
  rw [hok, hcodes] at hret
  exact ⟨_, exec_command_bound hi hd, hw.devs, hw.blk, hw.cfg, hret⟩

end Sys2Proof.Machine
end

section
/-! PROOFS. Single turns of an engine, whatever the transport answers: what the record becomes and which code is returned;
the statements about one turn or two (43_sequencer.md R92 to R97, R112 to R119). -/

namespace Sys2Proof.Machine

open Sys2Proof

/-! ## Turns that may return a code -/

/-- After `k` steps from `s` the machine stands at `t`: the record of device `n` became `e`, the inputs are `rest`, `codes`
were returned for that device, and parameters and backlights are those of `s`. -/
structure Went (k : Nat) (s t : State) (n : Nat) (rest : List Input) (e : Device) (codes : List ResultCode) : Prop where
  run : runSteps k s = .next t
  devs : t.devs = s.devs.set n e
  inputs : t.inputs = rest
  cfg : t.cfg = s.cfg
  blk : t.blk = s.blk
  returns : t.returns = s.returns ++ returned n codes

/-- A run that returned nothing. -/
theorem Ran.went {k n : Nat} {s t : State} {rest : List Input} {e : Device} (h : Ran k s t n rest e) :
    Went k s t n rest e [] :=
  ⟨h.run, h.devs, h.inputs, h.cfg, h.blk, by rw [h.returns, returned_nil, List.append_nil]⟩

theorem Went.ran {k n : Nat} {s t : State} {rest : List Input} {e : Device} (h : Went k s t n rest e []) :
    Ran k s t n rest e :=
  ⟨h.run, h.devs, h.inputs, h.cfg, h.blk, by rw [h.returns, returned_nil, List.append_nil]⟩

theorem Went.trans {k m n : Nat} {s t u : State} {r r' : List Input} {e e' : Device} {cs cs' : List ResultCode}
    (h : Went k s t n r e cs) (h' : Went m t u n r' e' cs') : Went (k + m) s u n r' e' (cs ++ cs') where
  run := (runSteps_add h.run).trans h'.run
  devs := by rw [h'.devs, h.devs, List.set_set]
  inputs := h'.inputs
  cfg := h'.cfg.trans h.cfg
  blk := h'.blk.trans h.blk
  returns := by rw [h'.returns, h.returns, returned, returned, returned, List.map_append, List.append_assoc]

theorem Went.get {k n : Nat} {s t : State} {r : List Input} {d e : Device} {cs : List ResultCode}
    (hn : s.devs[n]? = some d) (h : Went k s t n r e cs) : t.devs[n]? = some e := by
  obtain ⟨hlt, -⟩ := List.getElem?_eq_some_iff.mp hn
  simp [h.devs, hlt]

/-- One step is all of a run of one. -/
theorem step_of_runSteps_one {s t : State} (h : runSteps 1 s = .next t) : step s = .next t := by
  cases hs : step s with
  | next u => simpa only [runSteps, hs] using h
  | fault f => simp [runSteps, hs] at h
  | refused r => simp [runSteps, hs] at h

/-- A burst has the region's `3*w*h` bytes on either path (R53, R82). -/
theorem burst_length (n : Nat) (d : Device) (j : Job) (e : Env) : (burst n d j e).1.length = j.region.burstLen := by
  unfold burst
  split
  · exact memRead_length ..
  · exact Memory.readFrom_length ..

section
variable {s : State} {n : Nat} {rest : List Input} {d : Device} {j : Job} {more : List Micro}

/-- What a step writes from the state it runs in is what the turn leaves. -/
theorem went_of_writes {t : State} {e : Device} {cs : List ResultCode} (hs : step s = .next t)
    (hw : Writes (s.taken n rest d j more) t e) (hin : t.inputs = rest)
    (hret : t.returns = s.returns ++ returned n cs) : Went 1 s t n rest e cs where
  run := runSteps_one hs
  devs := by rw [hw.devs]; simp [State.taken]
  inputs := hin
  cfg := hw.cfg
  blk := hw.blk
  returns := hret

variable (hi : s.inputs = .turn n :: rest) (hn : s.devs[n]? = some d) (hg : d.gone = false) (hj : d.job = some j)
include hi hn hg hj

/-- A turn whose step is a panel command at a position. -/
theorem turn_exec {m : Micro} (ht : j.todo = m :: more) {pos : Option SeqStep} {i : Instr} (hc : i.isCommand = true)
    (hm : runMicro m (s.taken n rest d j more) = exec i ((s.taken n rest d j more).atStep pos)) :
    ∃ t, t.env = { s.env with ok := s.env.ok.next } ∧
      Went 1 s t n rest
        (Device.commanded s.cfg i s.okDraw
          { d with seq := (pos.map SeqPos.at).getD d.seq, job := some { j with todo := more } })
        (if s.okDraw then []
          else Device.failCodes { d with seq := (pos.map SeqPos.at).getD d.seq, job := some { j with todo := more } }) := by
  have hs := (turn_takes hi hn hg hj ht).trans hm
  have hp := writes_atStep (taken_dev hn rest j more) pos
  rw [Device.atStep_eq] at hp
  have hu := hp.dev? (taken_dev hn rest j more)
  have hsame : ((s.taken n rest d j more).atStep pos).env = s.env ∧
      ((s.taken n rest d j more).atStep pos).inputs = rest ∧
        ((s.taken n rest d j more).atStep pos).returns = s.returns := by cases pos <;> exact ⟨rfl, rfl, rfl⟩
  generalize (s.taken n rest d j more).atStep pos = u at hs hp hu hsame
  obtain ⟨henv, hin, hret⟩ := hsame
  have hok : u.okDraw = s.okDraw := by rw [State.okDraw, henv, State.okDraw]
  have hw := State.commanded_writes hc hu
  obtain ⟨hfin, hfenv⟩ := State.commanded_frame i u
  have hfret := State.commanded_returns (i := i) hu
  rw [hok, hp.cfg] at hw
  rw [hok, hret, hp.cur] at hfret
  refine ⟨u.commanded i, by rw [hfenv, henv], ?_⟩
  exact went_of_writes (hs.trans (exec_command_bound hc hu)) (hp.trans hw) (hfin.trans hin) hfret

/-- A panel command, whatever the answer. -/
theorem turn_command {pos : Option SeqStep} {i : Instr} (ht : j.todo = .cmd pos i :: more) (hc : i.isCommand = true) :
    ∃ t, t.env = { s.env with ok := s.env.ok.next } ∧
      Went 1 s t n rest
        (Device.commanded s.cfg i s.okDraw
          { d with seq := (pos.map SeqPos.at).getD d.seq, job := some { j with todo := more } })
        (if s.okDraw then []
          else Device.failCodes { d with seq := (pos.map SeqPos.at).getD d.seq, job := some { j with todo := more } }) :=
  turn_exec hi hn hg hj ht hc (by simp only [runMicro, hc, if_true])

/-- Step 9, whatever the answer (R116). -/
theorem turn_step9 (ht : j.todo = .addrMode :: more) :
    ∃ t, t.env = { s.env with ok := s.env.ok.next } ∧
      Went 1 s t n rest
        (Device.commanded s.cfg (.madctl (rotByte s.cfg d.rot)) s.okDraw
          { d with seq := .at .step9, job := some { j with todo := more } })
        (if s.okDraw then [] else Device.failCodes { d with seq := .at .step9, job := some { j with todo := more } }) :=
  turn_exec hi hn hg hj ht (pos := some .step9) (i := .madctl (rotByte s.cfg d.rot)) rfl
    (by simp only [runMicro, addrModeStep, taken_dev hn]; rfl)

/-- Step 1, whatever the answer (R92). -/
theorem turn_step1 {fa : Bool} (ht : j.todo = .reset fa :: more) :
    ∃ t, t.env = { s.env with reset := s.env.reset.next } ∧
      Went 1 s t n rest (Device.wasReset s.cfg fa s.resetDraw { d with job := some { j with todo := more } })
        (if s.resetDraw = .failed then [.hwInitFailure] else []) := by
  have hs := turn_takes hi hn hg hj ht
  have hw := resetStep_writes (taken_dev hn rest j more) fa
  have hdraw : (s.taken n rest d j more).resetDraw = s.resetDraw := rfl
  refine ⟨_, ?_, went_of_writes hs hw ?_ ?_⟩ <;> simp only [resetStep, hdraw] <;> cases s.resetDraw <;>
    simp [State.taken]

/-- The burst, whatever the answer (R84, R87, R119). -/
theorem turn_burst (ht : j.todo = .data :: more) :
    ∃ t, (∃ byte pick, t.env = { s.env with ok := s.env.ok.next, byte := byte, pick := pick }) ∧
      Went 1 s t n rest
        (Device.log { d with job := some { j with todo := more } } (.data (burst n d j s.env).1 s.okDraw)).flushEnded
        (Device.flushCodes { d with job := some { j with todo := more } } (if s.okDraw then .ok else .busFailure)) := by
  have hs := turn_takes hi hn hg hj ht
  have hd := taken_dev hn rest j more
  obtain ⟨byte, pick, hread⟩ := burst_env n d j s.env
  have hu : State.dev? { s.taken n rest d j more with env := (burst n d j s.env).2 } =
      some { d with job := some { j with todo := more } } := hd
  have hok : State.okDraw { s.taken n rest d j more with env := (burst n d j s.env).2 } = s.okDraw := by
    simp only [State.okDraw, hread]
  have hw := writes_sendBurst hu (burst n d j s.env).1
  obtain ⟨hin, henv, hret⟩ := State.sendBurst_frame hu (burst n d j s.env).1
  rw [hok] at hw hret
  simp only [runMicro, dataStep, hd] at hs
  exact ⟨_, ⟨byte, pick, henv.trans (by rw [hread])⟩, went_of_writes hs (.of_env _ hw) hin hret⟩

/-- The conversion of an unsupported format (R61). -/
theorem turn_unsupported (ht : j.todo = .convert :: more) (hf : bytesPerPixel j.src.fmt = none) :
    ∃ t, t.env = s.env ∧
      Went 1 s t n rest (Device.countConversion { d with job := some { j with todo := more } }).flushEnded
        (Device.flushCodes { d with job := some { j with todo := more } } .unsupportedFormat) := by
  have hs := turn_takes hi hn hg hj ht
  have hd := taken_dev hn rest j more
  have hnone : ∀ x R swap e, convertRegion x j.src j.raced R swap e = none := fun x R swap e => by
    simp only [convertRegion, hf]
  simp only [runMicro, convertStep, hd, hnone] at hs
  have hw := writes_modDev hd Device.countConversion
  have hret := State.flushEnd_returns (hw.dev? hd) .unsupportedFormat
  obtain ⟨hin, henv⟩ := ((s.taken n rest d j more).modDev Device.countConversion).flushEnd_frame .unsupportedFormat
  exact ⟨_, henv, went_of_writes hs (hw.trans (writes_flushEnd (hw.dev? hd) _)) hin hret⟩

end

/-! ## The statements about single turns -/

/-- Settles O17: the three answers of `resetStep`. -/
theorem stepOneActsOnTheAnswer : Obligations.StepOneActsOnTheAnswer := by
  intro s n rest d j fa more hi hn hg hj ht
  obtain ⟨t, -, hw⟩ := turn_step1 hi hn hg hj ht
  refine ⟨t, _, step_of_runSteps_one hw.run, hw.devs, hw.blk, ?_⟩
  have hret := hw.returns
  cases hr : s.resetDraw <;> simp [Device.wasReset, Device.ended, Device.log, Device.push, Device.modJob, hret, hr]

/-- Settles O20: at step 9 a false answer changes nothing but the event (R119). -/
theorem addressingModeFollowsRotation : Obligations.AddressingModeFollowsRotation := by
  intro s n rest d j more bits hi hn hg hj ht hf hbits
  have hb : rotByte s.cfg d.rot = bits ||| s.cfg.madctlExtra := by
    rcases hbits with ⟨h, rfl⟩ | ⟨h, rfl⟩ | ⟨h, rfl⟩ | ⟨h, rfl⟩ <;> rw [h] <;> rfl
  obtain ⟨t, -, hw⟩ := turn_step9 hi hn hg hj ht
  obtain ⟨hcodes, hfail⟩ := Device.commanded_step9 (d := { d with seq := .at .step9, job := some { j with todo := more } })
    rfl hf rfl s.cfg (.madctl (rotByte s.cfg d.rot))
  have hdevs := hw.devs
  have hret := hw.returns
  refine ⟨t, step_of_runSteps_one hw.run, ?_, hw.blk, ?_⟩
  · rw [hdevs, ← hb]
    cases s.okDraw with
    | true => rfl
    | false => rw [hfail]; rfl
  · rw [hret, hcodes, ite_self, returned_nil, List.append_nil]

/-- Settles O19, by the place of the failure: at step 9, at a command of the flush, at its burst, at its conversion. -/
theorem lateFailuresAreNotFatal : Obligations.LateFailuresAreNotFatal := by
  refine ⟨?step9, ?command, ?burst, ?format⟩
  case step9 =>
    intro s d j i hi hd hj hf hs hok
    obtain ⟨hcodes, hrec⟩ := Device.commanded_step9 hj hf hs s.cfg i
    have hw := State.commanded_writes hi hd
    rw [hok, hrec] at hw
    have hret := State.commanded_returns (i := i) hd
    rw [hok, hcodes, ite_self, returned_nil, List.append_nil] at hret
    exact ⟨_, exec_command_bound hi hd, hw.devs, hw.blk, hret⟩
  case command =>
    intro s d j i hi hd hj hr hf hok
    obtain ⟨hcodes, hrec⟩ := Device.commanded_paint hj hr hf s.cfg i
    have hw := State.commanded_writes hi hd
    rw [hok, hrec] at hw
    have hret := State.commanded_returns (i := i) hd
    rw [hok, hcodes, ite_self, returned_nil, List.append_nil] at hret
    exact ⟨_, exec_command_bound hi hd, hw.devs, hw.blk, hret⟩
  case burst =>
    intro s n rest d j more hi hn hg hj hr ht hok
    obtain ⟨t, -, hw⟩ := turn_burst hi hn hg hj ht
    have hdevs := hw.devs
    rw [Device.flushEnded_enable (d := Device.log { d with job := some { j with todo := more } } _) rfl hr, hok] at hdevs
    have hret := hw.returns
    rw [Device.flushCodes_enable (d := { d with job := some { j with todo := more } }) rfl hr, returned_nil,
      List.append_nil] at hret
    exact ⟨t, step_of_runSteps_one hw.run, burst_length .., hdevs, hw.blk, hret⟩
  case format =>
    intro s n rest d j more k hi hn hg hj hr ht hf
    obtain ⟨t, henv, hw⟩ := turn_unsupported hi hn hg hj ht (by rw [hf]; rfl)
    have hdevs := hw.devs
    rw [Device.flushEnded_enable (d := Device.countConversion { d with job := some { j with todo := more } }) rfl hr]
      at hdevs
    have hret := hw.returns
    rw [Device.flushCodes_enable (d := { d with job := some { j with todo := more } }) rfl hr, returned_nil,
      List.append_nil] at hret
    exact ⟨t, step_of_runSteps_one hw.run, hdevs, hw.blk, henv, hret⟩

/-- A settle delay after its command, which is answered true: two turns. -/
theorem runSteps_command_delay {s : State} {n : Nat} {rest : List Input} {d : Device} {j : Job} {more : List Micro}
    {pos : Option SeqStep} {i : Instr} {ms : Nat} (hi : s.inputs = .turn n :: .turn n :: rest)
    (hn : s.devs[n]? = some d) (hg : d.gone = false) (hj : d.job = some j) (ht : j.todo = .cmd pos i :: more)
    (hc : i.isCommand = true) (hafter : commandAfter i = [.delay ms]) (hok : s.okDraw = true) :
    ∃ t, t.env = { s.env with ok := s.env.ok.next } ∧ Ran 2 s t n rest
      { d with
        seq := (pos.map SeqPos.at).getD d.seq
        trace := d.trace ++ [.cmd (i.lead s.cfg.opc) i.operands true, .delay ms]
        job := some { j with todo := more } } := by
  obtain ⟨u, henvu, hu⟩ := turn_cmd hi hn hg hj ht hc hok
  rw [hafter] at hu
  obtain ⟨t, henvt, ht⟩ := turn_delay hu.inputs (hu.get hn) hg rfl rfl
  refine ⟨t, henvt.trans henvu, ?_⟩
  have hrun := hu.trans ht
  rwa [List.append_assoc] at hrun

/-- Settles O21: the delay stands first after its command. -/
theorem settleDelaysFollowTheirCommands : Obligations.SettleDelaysFollowTheirCommands := by
  intro s n rest d j pos i op ms more hi hn hg hj ht hok hcmd
  have hafter : commandAfter i = [.delay ms] := by rcases hcmd with ⟨rfl, -, rfl⟩ | ⟨rfl, -, rfl⟩ <;> rfl
  have hbus : i.isCommand = true ∧ i.lead s.cfg.opc = op ∧ i.operands = [] := by
    rcases hcmd with ⟨rfl, rfl, -⟩ | ⟨rfl, rfl, -⟩ <;> exact ⟨rfl, rfl, rfl⟩
  obtain ⟨hc, hop, hps⟩ := hbus
  obtain ⟨t, -, hw⟩ := runSteps_command_delay hi hn hg hj ht hc hafter hok
  have hdevs := hw.devs
  rw [hop, hps] at hdevs
  exact ⟨t, hw.run, hw.blk, hw.returns, hdevs⟩

/-- Settles O34: the block is written from address 0 on, and its length is the region's burst. -/
theorem conversionWritesOnlyItsBytes : Obligations.ConversionWritesOnlyItsBytes := by
  intro s n rest d j more bytes env hi hn hg hj hwf ht hv hconv
  obtain ⟨t, -, hw⟩ := turn_convert hi hn hg hj ht hv hconv
  have hlen := convertRegion_length hconv
  refine ⟨t, _, step_of_runSteps_one hw.run, hw.devs, hw.blk, hw.returns, rfl, rfl, rfl, rfl, hlen, fun a => ?_⟩
  have hread := Memory.read_writeBlock hwf 0 bytes a
  simpa only [Nat.zero_le, true_and, Nat.zero_add, Nat.sub_zero, hlen] using hread

/-- Settles O5: the turn takes the command off the request and sets the position. -/
theorem engineRunsItsNextCommand : Obligations.EngineRunsItsNextCommand := by
  intro s n rest d j pos i more hi hn hg hj ht hc
  have hs := turn_takes hi hn hg hj ht
  simp only [runMicro, hc, if_true] at hs
  have hw := writes_atStep (taken_dev hn rest j more) pos
  rw [Device.atStep_eq] at hw
  have hsame : ((s.taken n rest d j more).atStep pos).inputs = rest ∧
      ((s.taken n rest d j more).atStep pos).returns = s.returns ∧
        ((s.taken n rest d j more).atStep pos).env = s.env := by cases pos <;> exact ⟨rfl, rfl, rfl⟩
  obtain ⟨hin, hret, henv⟩ := hsame
  refine ⟨_, hs, hw.cfg, hw.blk, hw.cur, hin, hret, henv, ?_⟩
  rw [hw.devs]
  simp [State.taken]

end Sys2Proof.Machine
end

section
/-! PROOFS. What a step runs, and the first step of each request: BIND, SHUTDOWN, ENABLE, UPDATE, and the host's writes to
source memory (44_lifecycle.md, R31, R89, R91, R142, R143). -/

namespace Sys2Proof.Machine

open Sys2Proof

/-! ## What a step runs -/

/-- Settles O4: `takeRequest` of a decoded request. -/
theorem stepRunsDecodedRequest : Obligations.StepRunsDecodedRequest := by
  intro s d bytes rest i hi hb
  have hstep : step s =
      if requestWaits i && s.busy d then engineStep d s else exec i { s with cur := d, inputs := rest } := by
    simp only [step, move, hi, takeRequest, hb]
  exact ⟨fun h => by simp [hstep, h], fun h => by simp [hstep, h]⟩

/-- Settles O6: neither waits for an engine. -/
theorem removalAndShutdownDoNotWait : Obligations.RemovalAndShutdownDoNotWait := by
  constructor
  · intro s d rest hi
    simp only [step, move, hi]
  · intro s d rest hi
    exact (stepRunsDecodedRequest s d [0x06] rest .shutdown hi rfl).1 rfl

/-! ## BIND and SHUTDOWN -/

/-- The four legal rotations (R15, R45). -/
theorem rotationOf_legal {rot : Int} {r : Rotation}
    (h : (rot = 0 ∧ r = .r0) ∨ (rot = 90 ∧ r = .r90) ∨ (rot = 180 ∧ r = .r180) ∨ (rot = 270 ∧ r = .r270)) :
    rotationOf rot = some r := by
  rcases h with ⟨rfl, rfl⟩ | ⟨rfl, rfl⟩ | ⟨rfl, rfl⟩ | ⟨rfl, rfl⟩ <;> rfl

/-- A legal rotation and a successful allocation bind a device (R122). -/
theorem exec_bind_bound {s : State} (ha : s.allocDraw = true) {rot : Int} {r : Rotation} (hr : rotationOf rot = some r)
    (left top : Int) (swap hasDc : Bool) (bl : BacklightId) :
    exec (.bind rot left top swap hasDc bl) s =
      .next ((State.addDevice { s with env := { s.env with alloc := s.env.alloc.next } }
        (freshDevice r left top swap hasDc bl)).answerPlatform .ok) := by
  simp [exec, execBind, ha, hr]

/-- Settles O8: the record added is the fresh one, and its line is attached. -/
theorem bindLoadsTheResetRecord : Obligations.BindLoadsTheResetRecord := by
  intro s rot left top swap hasDc bl r ha hrot
  refine ⟨_, freshDevice r left top swap hasDc bl, exec_bind_bound ha (rotationOf_legal hrot) left top swap hasDc bl,
    rfl, rfl, rfl, rfl, rfl, rfl, rfl, rfl, rfl, rfl, rfl, rfl, rfl, rfl, rfl, rfl, ?_, fun id hid => ?_,
    rfl, rfl, rfl, rfl, rfl⟩
  · exact Backlights.get_set_same _ _ _
  · exact Backlights.get_set_ne _ hid _

/-- A table whose lines are all off already is left as it is. -/
theorem Backlights.disableAll_idem (b : Backlights) : b.disableAll.disableAll = b.disableAll := by
  have hoff : ∀ e ∈ b.disableAll.lines, (e.1, { e.2 with on := false }) = e ∧ (e.2 != ⟨false, 0⟩) = true := by
    intro e he
    obtain ⟨hmem, hne⟩ := List.mem_filter.mp he
    obtain ⟨c, -, rfl⟩ := List.mem_map.mp hmem
    exact ⟨rfl, hne⟩
  have hlines : b.disableAll.disableAll.lines = b.disableAll.lines := by
    rw [Backlights.disableAll, List.map_congr_left (g := id) fun e he => (hoff e he).1, List.map_id,
      List.filter_eq_self.mpr fun e he => (hoff e he).2]
  exact congrArg (Backlights.mk false) hlines

/-- Settles O13: each listed line goes off, and unreferenced dark lines are dropped from the list. -/
theorem shutdownTurnsEveryLineOff : Obligations.ShutdownTurnsEveryLineOff := by
  intro s hwf
  exact ⟨_, rfl, fun id => Backlights.get_disableAll hwf id, rfl, rfl, rfl, rfl, rfl, rfl, _, rfl,
    s.blk.disableAll_idem, rfl⟩

/-! ## ENABLE and UPDATE -/

/-- Settles O16: the guard lets an idle device that is not removed through. -/
theorem enableStartsTheSequence : Obligations.EnableStartsTheSequence := by
  intro s d region S hd hg hj
  exact ⟨_, _, _, onDevice_idle hd hg hj _, State.modDev_devs_set hd _, rfl, rfl, rfl, rfl, rfl, rfl, rfl, rfl, rfl, rfl,
    rfl, rfl⟩

/-- The four conditions of the fast path (R80). -/
theorem pathOf_fast_iff (p : Params) (d : Device) (R : Region) (S : SrcDesc) :
    pathOf p d R S = .fast ↔ R = fullFrame p ∧ S.fmt = .rgb565 ∧ d.swap = false ∧ d.hasDc = true := by
  simp [pathOf, decidePath, and_assoc]

/-- The flush's steps, by its path (R81, R83). -/
theorem flushSteps_eq (path : Path) (R : Region) (left top : Int) :
    flushSteps path R left top = (if path = .copy then [.convert] else []) ++
      [.cmd none (windowCols R left), .cmd none (windowPages R top), .cmd none .ramwr] := by cases path <;> rfl

/-- Settles O26: the guard and the region check let the request through. -/
theorem updateStartsTheFlush : Obligations.UpdateStartsTheFlush := by
  intro s d R S hd hg hj hv
  refine ⟨_, _, (onDevice_idle hd hg hj _).trans (if_pos hv), State.modDev_devs_set hd _, rfl, rfl, rfl, rfl, rfl,
    pathOf_fast_iff s.cfg d R S, ?_, rfl, rfl, rfl, rfl, rfl, rfl⟩
  simp only [Device.startFlush, List.append_nil]
  exact flushSteps_eq _ R d.left d.top

/-! ## The host's writes (R31) -/

/-- A write to a running request that changes nothing in it, or to no request, leaves the record. -/
theorem Device.modJob_eq_self {d : Device} {f : Job → Job} (h : ∀ j, d.job = some j → f j = j) : d.modJob f = d := by
  have hjob : d.job.map f = d.job := by
    cases hj : d.job with
    | none => rfl
    | some j => rw [Option.map_some, h j hj]
  rw [Device.modJob, hjob]

/-- A write to the running request. -/
theorem Device.modJob_some {d : Device} {j : Job} (hj : d.job = some j) (f : Job → Job) :
    d.modJob f = { d with job := some (f j) } := by rw [Device.modJob, hj, Option.map_some]

/-- Settles O55: the write is `Job.hostWrite` of the one device's running request. -/
theorem hostWriteReachesTheRunningRequest : Obligations.HostWriteReachesTheRunningRequest := by
  intro s n off v rest hi
  have hstep : step s = .next (hostWrite n off v { s with inputs := rest }) := by simp only [step, move, hi]
  have hdevs : ∀ d, s.devs[n]? = some d →
      (hostWrite n off v { s with inputs := rest }).devs = s.devs.set n (d.modJob (·.hostWrite off v)) := fun d hn =>
    State.modDev_devs_set (s := { s with cur := n }) hn _
  have hself : ∀ d, s.devs[n]? = some d → s.devs.set n d = s.devs := fun d hn => by
    obtain ⟨hlt, rfl⟩ := List.getElem?_eq_some_iff.mp hn
    simp
  refine ⟨_, hstep, rfl, rfl, rfl, rfl, rfl, rfl, fun hidle => ?_, fun d j hn hj => ⟨fun hlen => ?_, fun hlen hf => ?_,
    fun hlen hf => ⟨j.src.bytes.set off v, ?_, List.length_set, List.getElem?_set_self hlen, fun k hk =>
      List.getElem?_set_ne (Ne.symm hk)⟩⟩⟩
  · cases hn : s.devs[n]? with
    | none => exact List.modify_eq_self (List.getElem?_eq_none_iff.mp hn)
    | some d => rw [hdevs d hn, Device.modJob_eq_self fun j hj => (nomatch (hidle d hn).symm.trans hj), hself d hn]
  · have hno : d.modJob (·.hostWrite off v) = d := Device.modJob_eq_self fun j' hj' => by
      obtain rfl : j' = j := Option.some.inj (hj'.symm.trans hj)
      exact if_neg (Nat.not_lt.mpr hlen)
    rw [hdevs d hn, hno, hself d hn]
  · rw [hdevs d hn, Device.modJob_some hj, Job.hostWrite, if_pos hlen, if_pos hf]
  · rw [hdevs d hn, Device.modJob_some hj, Job.hostWrite, if_pos hlen, if_neg (by simp [hf])]

end Sys2Proof.Machine
end

section
/-! PROOFS. The converter, the raced source bytes and the window encoder (40_converter.md, R31, R59, R63 to R73). -/

namespace Sys2Proof.Machine

open Sys2Proof

/-! ## One row (R59) -/

/-- Pixel `i` of a row of RGB565 pixels comes from its own two bytes. -/
theorem wireRow565_pixel (x : Expand565) (swap : Bool) {i : Nat} {bs : List Byte} (h : (i + 1) * 2 ≤ bs.length) :
    ((wireRow565 x swap bs).drop (3 * i)).take 3 = wireRow565 x swap ((bs.drop (i * 2)).take 2) := by
  induction i generalizing bs with
  | zero =>
    match bs, h with
    | b0 :: b1 :: rest, _ => simp [wireRow565, wire565]
    | [_], h => simp at h
    | [], h => simp at h
  | succ i ih =>
    match bs, h with
    | b0 :: b1 :: rest, h =>
      have hpixel := ih (bs := rest) (by simp only [List.length_cons] at h; omega)
      rw [Nat.mul_succ, Nat.add_mul, Nat.add_comm (3 * i)]
      simpa [wireRow565, wire565, ← List.drop_drop] using hpixel
    | [_], h => simp at h; omega
    | [], h => simp at h

/-- Pixel `i` of a row of XRGB8888 pixels comes from its own four bytes. -/
theorem wireRow8888_pixel {i : Nat} {bs : List Byte} (h : (i + 1) * 4 ≤ bs.length) :
    ((wireRow8888 bs).drop (3 * i)).take 3 = wireRow8888 ((bs.drop (i * 4)).take 4) := by
  induction i generalizing bs with
  | zero =>
    match bs, h with
    | b0 :: b1 :: b2 :: b3 :: rest, _ => simp [wireRow8888, wire8888]
    | [_, _, _], h | [_, _], h | [_], h | [], h => simp at h
  | succ i ih =>
    match bs, h with
    | b0 :: b1 :: b2 :: b3 :: rest, h =>
      have hpixel := ih (bs := rest) (by simp only [List.length_cons] at h; omega)
      rw [Nat.mul_succ, Nat.add_mul, Nat.add_comm (3 * i)]
      simpa [wireRow8888, wire8888, ← List.drop_drop] using hpixel
    | [_, _, _], h | [_, _], h | [_], h => simp at h; omega
    | [], h => simp at h

/-- Pixel `i` of a row comes from its own source bytes. -/
theorem wireRow_pixel (x : Expand565) {fmt : PixelFormat} (swap : Bool) {bpp : Nat} (hf : bytesPerPixel fmt = some bpp)
    {i : Nat} {bs : List Byte} (h : (i + 1) * bpp ≤ bs.length) :
    ((wireRow x fmt swap bs).drop (3 * i)).take 3 = wireRow x fmt swap ((bs.drop (i * bpp)).take bpp) := by
  cases fmt with
  | rgb565 => cases hf; exact wireRow565_pixel x swap h
  | xrgb8888 => cases hf; exact wireRow8888_pixel h
  | other k => cases hf

/-! ## A region of mapped bytes -/

/-- The bytes of row `y` of a region are mapped. -/
def RowMapped (S : SrcDesc) (bpp x1 w y : Nat) : Prop := srcOff S bpp x1 y + w * bpp ≤ S.len

/-- A mapped row is read as it is, drawing nothing (R27). -/
theorem memRead_row {S : SrcDesc} {bpp x1 w y : Nat} (h : RowMapped S bpp x1 w y) (e : Env) :
    memRead S [] (srcOff S bpp x1 y) (w * bpp) e = ((S.bytes.drop (srcOff S bpp x1 y)).take (w * bpp), e) :=
  memRead_mapped (by unfold RowMapped at h; omega) e

/-- The rows after the first. -/
theorem rowMapped_tail {S : SrcDesc} {bpp x1 w h y : Nat} (hm : ∀ j, j < h + 1 → RowMapped S bpp x1 w (y + j)) :
    ∀ j, j < h → RowMapped S bpp x1 w (y + 1 + j) := fun j hj => by
  rw [Nat.add_assoc, Nat.add_comm 1 j]
  exact hm (j + 1) (Nat.succ_lt_succ hj)

/-- A conversion of mapped rows draws nothing. -/
theorem convertRows_mapped_env {x : Expand565} {S : SrcDesc} {swap : Bool} {bpp x1 w h y : Nat}
    (hm : ∀ j, j < h → RowMapped S bpp x1 w (y + j)) (e : Env) :
    (convertRows x S [] swap bpp x1 w h y e).2 = e := by
  induction h generalizing y with
  | zero => rfl
  | succ h ih =>
    have hrow := memRead_row (hm 0 (Nat.succ_pos h)) e
    rw [Nat.add_zero] at hrow
    simp only [convertRows, hrow]
    exact ih (rowMapped_tail hm)

/-- The source bytes of a pixel of a mapped row, found in the row. -/
theorem row_pixel_bytes (S : SrcDesc) (bpp x1 y : Nat) {w i : Nat} (hi : i < w) :
    ((((S.bytes.drop (srcOff S bpp x1 y)).take (w * bpp)).drop (i * bpp)).take bpp) =
      (S.bytes.drop (srcOff S bpp (x1 + i) y)).take bpp := by
  have hle : bpp ≤ w * bpp - i * bpp := by
    rw [← Nat.sub_mul]
    exact Nat.le_mul_of_pos_left bpp (Nat.sub_pos_of_lt hi)
  rw [List.drop_take, List.take_take, Nat.min_eq_left hle, List.drop_drop]
  simp only [srcOff, Nat.add_mul, Nat.add_assoc]

/-- Pixel `i` of row `j` stands at `3*(j*w + i)` and comes from its own source bytes (R59, R28). -/
theorem convertRows_pixel {x : Expand565} {S : SrcDesc} {swap : Bool} {bpp x1 w h y : Nat}
    (hf : bytesPerPixel S.fmt = some bpp) (hm : ∀ j, j < h → RowMapped S bpp x1 w (y + j)) (e : Env) {i j : Nat}
    (hi : i < w) (hj : j < h) :
    ((convertRows x S [] swap bpp x1 w h y e).1.drop (3 * (j * w + i))).take 3 =
      wireRow x S.fmt swap ((S.bytes.drop (srcOff S bpp (x1 + i) (y + j))).take bpp) := by
  induction h generalizing y j with
  | zero => exact absurd hj (Nat.not_lt_zero j)
  | succ h ih =>
    have hrow := memRead_row (hm 0 (Nat.succ_pos h)) e
    have hlen := wireRow_length x swap hf w (memRead_length S [] (srcOff S bpp x1 y) (w * bpp) e)
    rw [Nat.add_zero] at hrow
    simp only [hrow] at hlen
    simp only [convertRows, hrow]
    cases j with
    | zero =>
      rw [Nat.zero_mul, Nat.zero_add, List.drop_append_of_le_length (by omega),
        List.take_append_of_le_length (by rw [List.length_drop]; omega)]
      have hbytes : (i + 1) * bpp ≤ ((S.bytes.drop (srcOff S bpp x1 y)).take (w * bpp)).length := by
        have hmapped := hm 0 (Nat.succ_pos h)
        have hle : (i + 1) * bpp ≤ w * bpp := Nat.mul_le_mul_right bpp hi
        rw [RowMapped, SrcDesc.len, Nat.add_zero] at hmapped
        rw [List.length_take, List.length_drop]
        omega
      rw [wireRow_pixel x swap hf hbytes, row_pixel_bytes S bpp x1 y hi, Nat.add_zero]
    | succ j =>
      have hplace : 3 * ((j + 1) * w + i) = 3 * w + 3 * (j * w + i) := by rw [Nat.add_mul, Nat.one_mul]; omega
      rw [hplace, ← hlen, List.drop_length_add_append, ih (rowMapped_tail hm) (Nat.lt_of_succ_lt_succ hj),
        Nat.add_assoc, Nat.add_comm 1 j]

/-- The rows of a region whose last column is mapped on each row. -/
theorem rowMapped_of_region {S : SrcDesc} {R : Region} {bpp : Nat} (hx0 : 0 ≤ R.x1) (hy0 : 0 ≤ R.y1)
    (hx : R.x1 < R.x2) (hm : ∀ y, y < R.y2.toNat → srcOff S bpp R.x2.toNat y ≤ S.len) :
    ∀ j, j < R.height → RowMapped S bpp R.x1.toNat R.width (R.y1.toNat + j) := fun j hj => by
  have hmapped := hm (R.y1.toNat + j) (by unfold Region.height at hj; omega)
  have hx2 : R.x2.toNat = R.x1.toNat + R.width := by unfold Region.width; omega
  rw [hx2] at hmapped
  rw [RowMapped]
  simp only [srcOff, Nat.add_mul] at hmapped ⊢
  omega

/-- Two bytes of a list from an offset on. -/
theorem take_two_drop {l : List Byte} {o : Nat} (h : o + 2 ≤ l.length) :
    ∃ b0 b1, l[o]? = some b0 ∧ l[o + 1]? = some b1 ∧ (l.drop o).take 2 = [b0, b1] := by
  refine ⟨l[o], l[o + 1], List.getElem?_eq_getElem _, List.getElem?_eq_getElem _, ?_⟩
  rw [List.drop_eq_getElem_cons (by omega), List.drop_eq_getElem_cons (by omega)]
  rfl

/-- Four bytes of a list from an offset on. -/
theorem take_four_drop {l : List Byte} {o : Nat} (h : o + 4 ≤ l.length) :
    ∃ b0 b1 b2 b3, l[o]? = some b0 ∧ l[o + 1]? = some b1 ∧ l[o + 2]? = some b2 ∧ l[o + 3]? = some b3 ∧
      (l.drop o).take 4 = [b0, b1, b2, b3] := by
  obtain ⟨b0, b1, h0, h1, hfirst⟩ := take_two_drop (l := l) (o := o) (by omega)
  obtain ⟨b2, b3, h2, h3, hlast⟩ := take_two_drop (l := l) (o := o + 2) (by omega)
  refine ⟨b0, b1, b2, b3, h0, h1, h2, h3, ?_⟩
  rw [show 4 = 2 + 2 from rfl, List.take_add, List.drop_drop, hfirst, hlast]
  rfl

/-- Settles O33: each row is read whole and each pixel of it converted from its own bytes. -/
theorem conversionPlacesEveryPixel : Obligations.ConversionPlacesEveryPixel := by
  intro x S R swap e bpp hf hx0 hy0 hx hy hm
  have hrows := rowMapped_of_region hx0 hy0 hx hm
  have henv := convertRows_mapped_env (x := x) (swap := swap) hrows e
  have hconv : convertRegion x S [] R swap e =
      some ((convertRows x S [] swap bpp R.x1.toNat R.width R.height R.y1.toNat e).1, e) := by
    simp only [convertRegion, hf]
    exact congrArg some (Prod.ext rfl henv)
  refine ⟨_, hconv, convertRegion_length hconv, fun i j hi hj => ?_⟩
  have hpixel := convertRows_pixel (x := x) (swap := swap) hf hrows e hi hj
  have hlast : srcOff S bpp (R.x1.toNat + i) (R.y1.toNat + j) + bpp ≤ S.bytes.length := by
    have hmapped := hrows j hj
    have hle : (i + 1) * bpp ≤ R.width * bpp := Nat.mul_le_mul_right bpp hi
    simp only [RowMapped, srcOff, SrcDesc.len, Nat.add_mul, Nat.one_mul] at hmapped hle ⊢
    omega
  refine ⟨hpixel, fun hfmt => ?_, fun hfmt => ?_⟩
  · obtain rfl : 2 = bpp := by simpa [bytesPerPixel, hfmt] using hf
    obtain ⟨b0, b1, h0, h1, hbytes⟩ := take_two_drop hlast
    refine ⟨b0, b1, h0, h1, _, rfl, ?_⟩
    rw [hpixel, hbytes, hfmt]
    cases swap <;> rfl
  · obtain rfl : 4 = bpp := by simpa [bytesPerPixel, hfmt] using hf
    obtain ⟨b0, b1, b2, b3, h0, h1, h2, h3, hbytes⟩ := take_four_drop hlast
    refine ⟨b0, b1, b2, b3, h0, h1, h2, h3, ?_⟩
    rw [hpixel, hbytes, hfmt]
    exact wire8888_word8888 b0 b1 b2 b3

/-! ## RGB565 words (R63, R65) -/

/-- Settles O35: a swap reads each word from its bytes in the other order. -/
theorem swapExchangesEachWord : Obligations.SwapExchangesEachWord := by
  intro x bs
  induction bs using exchangePairs.induct with
  | case1 b0 b1 rest ih => simp only [exchangePairs, wireRow565, ih]; rfl
  | case2 bs h =>
    match bs, h with
    | [], _ | [_], _ => rfl
    | b0 :: b1 :: rest, h => exact absurd rfl (h b0 b1 rest)

/-- Settles O36: there are 32 five-bit fields and 64 six-bit ones. -/
theorem expansionReadingsCompare : Obligations.ExpansionReadingsCompare := by
  refine ⟨rfl, fun x p => rfl, ?_, ?_⟩ <;> decide

/-! ## Bytes under a host write (R31) -/

/-- The values written at an offset. -/
theorem mem_racedAt {raced : List (Nat × Byte)} {off : Nat} {v : Byte} : v ∈ racedAt raced off ↔ (off, v) ∈ raced := by
  simp [racedAt]

/-- A mapped byte reads as the draw among its old value and the written ones. -/
theorem readByte_mapped (raced : List (Nat × Byte)) (off : Nat) (b : Byte) (e : Env) :
    (readByte raced off (some b) e).1 =
      (b :: racedAt raced off).getD (e.pick.peek Config.freePick % ((racedAt raced off).length + 1)) b := by
  cases h : racedAt raced off with
  | nil => simp [readByte, h, Nat.mod_one]
  | cons w ws => simp [readByte, h]

/-- A place inside a list has its value, whatever the default. -/
theorem getD_of_lt (b : Byte) {l : List Byte} {k : Nat} (h : k < l.length) : l.getD k b = l[k] := by
  rw [List.getD_eq_getElem?_getD, List.getElem?_eq_getElem h, Option.getD_some]

/-- Settles O38: the values that can be read are the listed ones, and a draw picks any place of the list. -/
theorem racedByteIsOldOrWritten : Obligations.RacedByteIsOldOrWritten := by
  intro raced off b e
  have hlisted : ∀ v, v ∈ b :: racedAt raced off ↔ v = b ∨ (off, v) ∈ raced := fun v => by
    rw [List.mem_cons, mem_racedAt]
  refine ⟨?_, fun v hv => ?_⟩
  · rw [← hlisted, readByte_mapped]
    have hlt := Nat.mod_lt (e.pick.peek Config.freePick) (Nat.succ_pos (racedAt raced off).length)
    rw [getD_of_lt b (by simpa using hlt)]
    exact List.getElem_mem _
  · obtain ⟨k, hk, hget⟩ := List.getElem_of_mem ((hlisted v).mpr hv)
    refine ⟨k, ?_⟩
    have hpick : Oracle.peek Config.freePick ⟨[k], e.pick.drawn⟩ = k := rfl
    rw [readByte_mapped, hpick, Nat.mod_eq_of_lt (by simpa using hk), getD_of_lt b hk, hget]

/-! ## Window commands (R48, R71) -/

/-- A 16-bit parameter is sent high byte first (R48). -/
theorem hi8_toNat (v : Half) : (hi8 v).toNat = v.toNat / 256 := by
  have := v.isLt
  simp only [hi8, BitVec.extractLsb'_toNat, Nat.shiftRight_eq_div_pow]
  omega

theorem lo8_toNat (v : Half) : (lo8 v).toNat = v.toNat % 256 := by
  simp [lo8, BitVec.extractLsb'_toNat]

/-- The four parameter bytes of a window command. -/
theorem windowParams_toNat (s e : Half) :
    (windowParams s e).map BitVec.toNat = [s.toNat / 256, s.toNat % 256, e.toNat / 256, e.toNat % 256] := by
  simp only [windowParams, List.map_cons, List.map_nil, hi8_toNat, lo8_toNat]

/-- Settles O39: every coordinate of a valid region lies inside the panel (R78). -/
theorem windowCoordinatesAreExact : Obligations.WindowCoordinatesAreExact := by
  intro p left top R ⟨⟨hx0, hx1, hx2⟩, ⟨hy0, hy1, hy2⟩, ⟨hl0, hl1⟩, ⟨ht0, ht1⟩⟩ hw hh
  have hxs := coordinate_toNat (z := R.x1 + left) (by omega) (by omega)
  have hxe := coordinate_toNat (z := R.x2 - 1 + left) (by omega) (by omega)
  have hys := coordinate_toNat (z := R.y1 + top) (by omega) (by omega)
  have hye := coordinate_toNat (z := R.y2 - 1 + top) (by omega) (by omega)
  exact ⟨_, _, _, _, rfl, rfl, hxs, hxe, hys, hye, by omega, by omega, by omega, by omega,
    windowParams_toNat _ _, windowParams_toNat _ _⟩

end Sys2Proof.Machine
end

section
/-! PROOFS. Runs of an UPDATE (42_dispatcher.md): the request, its flush turn by turn up to the first answer false, and the
idle turns after it. -/

namespace Sys2Proof.Machine

open Sys2Proof

/-! ## Draws along a run -/

/-- The draws after the next `m`. -/
def Oracle.skip {α : Type} : Nat → Oracle α → Oracle α
  | 0, o => o
  | m + 1, o => o.next.skip m

/-- Draw `k` after `m` others is draw `m + k`. -/
theorem Oracle.skip_peekAt {α : Type} (free : Nat → α) (m k : Nat) (o : Oracle α) :
    (o.skip m).peekAt free k = o.peekAt free (m + k) := by
  induction m generalizing o with
  | zero => rw [Oracle.skip, Nat.zero_add]
  | succ m ih => rw [Oracle.skip, ih, Oracle.next_peekAt, Nat.add_right_comm]

/-- Draws are skipped one after the other. -/
theorem Oracle.skip_skip {α : Type} (m k : Nat) (o : Oracle α) : (o.skip m).skip k = o.skip (m + k) := by
  induction m generalizing o with
  | zero => rw [Oracle.skip, Nat.zero_add]
  | succ m ih => rw [Oracle.skip, ih, Nat.add_right_comm, Oracle.skip]

/-- From `s` to `t` the transport gave `m` answers, and no source byte and no choice between raced values was drawn. -/
structure Drew (m : Nat) (s t : State) : Prop where
  ok : t.env.ok = s.env.ok.skip m
  byte : t.env.byte = s.env.byte
  pick : t.env.pick = s.env.pick

theorem Drew.refl (s : State) : Drew 0 s s := ⟨rfl, rfl, rfl⟩

theorem Drew.trans {m k : Nat} {s t u : State} (h : Drew m s t) (h' : Drew k t u) : Drew (m + k) s u where
  ok := by rw [h'.ok, h.ok, Oracle.skip_skip]
  byte := h'.byte.trans h.byte
  pick := h'.pick.trans h.pick

/-- No answer was given. -/
theorem Drew.of_env {s t : State} (h : t.env = s.env) : Drew 0 s t := by
  rw [← Nat.zero_add 0]
  exact ⟨by rw [h]; rfl, by rw [h], by rw [h]⟩

/-- One answer was given. -/
theorem Drew.of_answer {s t : State} (h : t.env = { s.env with ok := s.env.ok.next }) : Drew 1 s t :=
  ⟨by rw [h]; rfl, by rw [h], by rw [h]⟩

/-- The answer of a bus call is the one of its number. -/
theorem State.okDraw_of_skip {s t : State} {m : Nat} (h : t.env.ok = s.env.ok.skip m) :
    t.okDraw = s.env.ok.peekAt Config.freeOk m := by
  rw [State.okDraw, ← Oracle.peekAt_zero, h, Oracle.skip_peekAt, Nat.add_zero]

/-- After `m` answers the later ones are still true. -/
theorem State.AllOk.skip {s t : State} {m k : Nat} (h : s.AllOk (m + k))
    (ht : t.env.ok = s.env.ok.skip m) : t.AllOk k := fun i hi => by
  rw [ht, Oracle.skip_peekAt]
  exact h (m + i) (by omega)

theorem State.AllOk.mono {s : State} {m k : Nat} (h : s.AllOk m) (hk : k ≤ m) : s.AllOk k := fun i hi =>
  h i (Nat.lt_of_lt_of_le hi hk)

theorem State.AllOk.okDraw {s t : State} {m k : Nat} (h : s.AllOk k) (hm : m < k)
    (ht : t.env.ok = s.env.ok.skip m) : t.okDraw = true :=
  (State.okDraw_of_skip ht).trans (h m hm)

/-- Of the next `n` answers either all are true or there is a first one that is false. -/
theorem State.allOk_or_first (s : State) (n : Nat) :
    s.AllOk n ∨ ∃ k, k < n ∧ s.AllOk k ∧ s.env.ok.peekAt Config.freeOk k = false := by
  induction n with
  | zero => exact .inl nofun
  | succ n ih =>
    rcases ih with hall | ⟨k, hk, hall, hfalse⟩
    · cases hn : s.env.ok.peekAt Config.freeOk n with
      | true =>
        refine .inl fun k hk => ?_
        rcases Nat.lt_succ_iff_lt_or_eq.mp hk with hk | rfl
        · exact hall k hk
        · exact hn
      | false => exact .inr ⟨n, Nat.lt_succ_self n, hall, hn⟩
    · exact .inr ⟨k, Nat.lt_succ_of_lt hk, hall, hfalse⟩

/-! ## Turns of an idle engine -/

/-- The turns an engine that runs nothing is given only leave the inputs. -/
theorem run_idle {s : State} {n : Nat} {rest : List Input} {d : Device} (m : Nat) (hi : s.inputs = turns n m rest)
    (hn : s.devs[n]? = some d) (hj : d.job = none) : ∃ t, t.env = s.env ∧ Ran m s t n rest d := by
  induction m generalizing s with
  | zero =>
    have hrest : s.inputs = rest := hi
    exact ⟨s, rfl, hrest ▸ Ran.refl hn⟩
  | succ m ih =>
    have hstep := turn_idle (rest := turns n m rest) hi hn hj
    obtain ⟨t, henv, hrun⟩ := ih (s := { s with inputs := turns n m rest }) rfl hn
    refine ⟨t, henv, ?_, hrun.devs, hrun.inputs, hrun.cfg, hrun.blk, hrun.returns⟩
    simp only [runSteps, hstep]
    exact hrun.run

/-! ## The bytes of a flush -/

/-- What a conversion gives depends on the draws of source bytes and of choices alone. -/
theorem flushBytes_congr (p : Params) (d : Device) (R : Region) (S : SrcDesc) {e f : Env} (hb : e.byte = f.byte)
    (hp : e.pick = f.pick) : flushBytes p d R S e = flushBytes p d R S f := by
  unfold flushBytes
  split
  · exact (readBytes_congr [] _ _ _ hb hp).1
  · unfold convertRegion
    cases bytesPerPixel S.fmt with
    | none => rfl
    | some bpp => exact convertRows_congr _ _ _ _ _ _ _ _ _ hb hp

/-- A supported format has a conversion, whatever is drawn. -/
theorem convertRegion_supported {S : SrcDesc} (hf : ∀ k, S.fmt ≠ .other k) (x : Expand565)
    (raced : List (Nat × Byte)) (R : Region) (swap : Bool) (e : Env) :
    ∃ bytes byte pick, convertRegion x S raced R swap e = some (bytes, { e with byte := byte, pick := pick }) := by
  have hbpp : ∃ bpp, bytesPerPixel S.fmt = some bpp := by
    cases hfmt : S.fmt with
    | rgb565 => exact ⟨2, rfl⟩
    | xrgb8888 => exact ⟨4, rfl⟩
    | other k => exact absurd hfmt (hf k)
  obtain ⟨bpp, hbpp⟩ := hbpp
  obtain ⟨byte, pick, henv⟩ := convertRows_env x S raced swap bpp R.x1.toNat R.width R.height R.y1.toNat e
  refine ⟨(convertRows x S raced swap bpp R.x1.toNat R.width R.height R.y1.toNat e).1, byte, pick, ?_⟩
  simp only [convertRegion, hbpp]
  exact congrArg some (Prod.ext rfl henv)

/-- A flush sends `3*w*h` bytes on either path (R53). -/
theorem flushBytes_length {p : Params} {d : Device} {R : Region} {S : SrcDesc} (hf : ∀ k, S.fmt ≠ .other k) (e : Env) :
    (flushBytes p d R S e).length = R.burstLen := by
  unfold flushBytes
  split
  · exact memRead_length ..
  · obtain ⟨bytes, byte, pick, hconv⟩ := convertRegion_supported hf p.expand [] R d.swap e
    simp only [hconv]
    exact convertRegion_length hconv

/-! ## A flush from its start -/

/-- A running request whose flush starts: nobody writes the source, and the flush's steps stand first. -/
structure Device.AtFlush (p : Params) (d : Device) (j : Job) (more : List Micro) : Prop where
  gone : d.gone = false
  job : d.job = some j
  flushing : j.flushing = true
  raced : j.raced = []
  path : j.path = pathOf p d j.region j.src
  todo : j.todo = flushSteps j.path j.region d.left d.top ++ more
  valid : j.region.Valid p d.left d.top
  fmt : ∀ k, j.src.fmt ≠ .other k

/-- Command `k` of a flush. -/
def windowInstr (R : Region) (d : Device) : Nat → Instr
  | 0 => windowCols R d.left
  | 1 => windowPages R d.top
  | _ => .ramwr

/-- The steps of a flush after `k` of its commands were answered true. -/
def windowTodo (R : Region) (d : Device) (more : List Micro) : Nat → List Micro
  | 0 => .cmd none (windowCols R d.left) :: .cmd none (windowPages R d.top) :: .cmd none .ramwr :: more
  | 1 => .cmd none (windowPages R d.top) :: .cmd none .ramwr :: more
  | 2 => .cmd none .ramwr :: more
  | _ => .data :: more

/-- Command `k` of a flush is the next step after the first `k`, and answered true it gives the steps after `k + 1`. -/
theorem windowTodo_cons (R : Region) (d : Device) (more : List Micro) {k : Nat} (hk : k < 3) :
    ∃ rest, windowTodo R d more k = .cmd none (windowInstr R d k) :: rest ∧
      commandAfter (windowInstr R d k) ++ rest = windowTodo R d more (k + 1) := by
  match k, hk with
  | 0, _ | 1, _ | 2, _ => exact ⟨_, rfl, rfl⟩

theorem windowInstr_isCommand (R : Region) (d : Device) (k : Nat) : (windowInstr R d k).isCommand = true := by
  match k with
  | 0 | 1 | _ + 2 => rfl

/-- The event of command `k` of a flush. -/
theorem windowEvents_getElem? (p : Params) (R : Region) (d : Device) {k : Nat} (hk : k < 3) :
    (windowEvents p d R)[k]? =
      some (.cmd ((windowInstr R d k).lead p.opc) (windowInstr R d k).operands true) := by
  match k, hk with
  | 0, _ | 1, _ | 2, _ => rfl

/-- The record in a flush that began with draws `e`, after its conversion and `k` of its commands answered true. -/
def Device.flushed (p : Params) (d : Device) (j : Job) (e : Env) (more : List Micro) (k : Nat) : Device :=
  { d with
    wb := flushWire p d j.region j.src e
    convCount := d.convCount + flushConversions p d j.region j.src
    trace := d.trace ++ (windowEvents p d j.region).take k
    job := some { j with todo := windowTodo j.region d more k } }

/-- The conversion of a flush on the copy path; nothing on the fast one (R80, R81). -/
theorem flush_prepares {s : State} {n m : Nat} {rest : List Input} {d : Device} {j : Job} {more : List Micro}
    (h : d.AtFlush s.cfg j more)
    (hi : s.inputs = turns n (flushConversions s.cfg d j.region j.src + m) rest) (hn : s.devs[n]? = some d) :
    ∃ t, t.env.ok = s.env.ok ∧ (j.path = .fast → Drew 0 s t) ∧
      Ran (flushConversions s.cfg d j.region j.src) s t n (turns n m rest) (d.flushed s.cfg j s.env more 0) := by
  have hpath := h.path
  have htodo := h.todo
  cases hp : j.path with
  | fast =>
    rw [hp] at hpath htodo
    have hrec : d.flushed s.cfg j s.env more 0 = d := by
      have hj : ({ j with todo := windowTodo j.region d more 0 } : Job) = j := by
        rw [← htodo.trans (by rfl : _ = windowTodo j.region d more 0)]
      simp only [Device.flushed, flushWire, flushConversions, ← hpath, List.take_zero, List.append_nil, hj,
        Nat.add_zero, ← h.job]
    simp only [flushConversions, ← hpath, Nat.zero_add] at hi ⊢
    refine ⟨s, rfl, fun _ => .refl s, ?_⟩
    rw [hrec, ← hi]
    exact Ran.refl hn
  | copy =>
    rw [hp] at hpath htodo
    obtain ⟨bytes, byte, pick, hconv⟩ := convertRegion_supported h.fmt s.cfg.expand [] j.region d.swap s.env
    have hbytes : flushBytes s.cfg d j.region j.src s.env = bytes := by simp only [flushBytes, ← hpath, hconv]
    rw [← h.raced] at hconv
    simp only [flushConversions, ← hpath, Nat.add_comm 1 m] at hi ⊢
    obtain ⟨t, henv, hrun⟩ := turn_convert (rest := turns n m rest) hi hn h.gone h.job htodo h.valid hconv
    refine ⟨t, by rw [henv], nofun, ?_⟩
    rw [← hbytes] at hrun
    have hrec : d.flushed s.cfg j s.env more 0 =
        { d with
          wb := d.wb.writeBlock 0 (flushBytes s.cfg d j.region j.src s.env)
          convCount := d.convCount + 1
          job := some { j with todo := windowTodo j.region d more 0 } } := by
      simp only [Device.flushed, flushWire, flushConversions, ← hpath, List.take_zero, List.append_nil]
    rw [hrec]
    exact hrun

/-- The first `k` commands of a flush, all answered true. -/
theorem flush_commands {s : State} {n m : Nat} {rest : List Input} {d : Device} {j : Job} {more : List Micro} {e : Env}
    {k : Nat} (hk : k ≤ 3) (hg : d.gone = false) (hi : s.inputs = turns n (k + m) rest)
    (hn : s.devs[n]? = some (d.flushed s.cfg j e more 0)) (hok : s.AllOk k) :
    ∃ t, Drew k s t ∧ Ran k s t n (turns n m rest) (d.flushed s.cfg j e more k) := by
  induction k generalizing m with
  | zero =>
    rw [Nat.zero_add] at hi
    exact ⟨s, .refl s, hi ▸ Ran.refl hn⟩
  | succ k ih =>
    have hlt : k < 3 := hk
    obtain ⟨u, hdrew, hrun⟩ := ih (m := m + 1) (Nat.le_of_lt hlt) (by rw [hi, Nat.add_right_comm]; rfl)
      (hok.mono (Nat.le_succ k))
    obtain ⟨tail, htodo, hafter⟩ := windowTodo_cons j.region d more hlt
    have huok : u.okDraw = true := hok.okDraw (Nat.lt_succ_self k) hdrew.ok
    obtain ⟨t, henv, hturn⟩ := turn_cmd (rest := turns n m rest) hrun.inputs (hrun.get hn) hg rfl htodo
      (windowInstr_isCommand j.region d k) huok
    refine ⟨t, hdrew.trans (.of_answer henv), ?_⟩
    have hall := hrun.trans hturn
    rw [hafter, hrun.cfg] at hall
    have htrace : d.trace ++ (windowEvents s.cfg d j.region).take (k + 1) =
        d.trace ++ (windowEvents s.cfg d j.region).take k ++
          [.cmd ((windowInstr j.region d k).lead s.cfg.opc) (windowInstr j.region d k).operands true] := by
      rw [List.take_add_one, windowEvents_getElem? s.cfg j.region d hlt, Option.toList_some, List.append_assoc]
    rw [Device.flushed, htrace]
    exact hall

/-- The record in a flush depends on the draws of source bytes and of choices alone. -/
theorem Device.flushed_congr (p : Params) (d : Device) (j : Job) {e f : Env} (hb : e.byte = f.byte)
    (hp : e.pick = f.pick) (more : List Micro) (k : Nat) : d.flushed p j e more k = d.flushed p j f more k := by
  simp only [Device.flushed, flushWire, flushBytes_congr p d j.region j.src hb hp]

/-- A flush up to its bus call `k`, all before it answered true; `e` is where its source draws begin. -/
theorem flush_upTo {s : State} {n m : Nat} {rest : List Input} {p : Params} {d : Device} {j : Job}
    {more : List Micro} {e : Env} {k : Nat} (h : d.AtFlush p j more) (hcfg : s.cfg = p) (hbyte : s.env.byte = e.byte)
    (hpick : s.env.pick = e.pick) (hk : k ≤ 3)
    (hi : s.inputs = turns n (flushConversions p d j.region j.src + (k + m)) rest) (hn : s.devs[n]? = some d)
    (hok : s.AllOk k) :
    ∃ t, t.env.ok = s.env.ok.skip k ∧
      (j.path = .fast → t.env.byte = e.byte ∧ t.env.pick = e.pick) ∧
        Ran (flushConversions p d j.region j.src + k) s t n (turns n m rest) (d.flushed p j e more k) := by
  subst hcfg
  obtain ⟨u, huok, hfast, hu⟩ := flush_prepares h hi hn
  have hucfg := hu.cfg
  obtain ⟨t, hdrew, ht⟩ := flush_commands (s := u) (j := j) (e := s.env) (more := more) hk h.gone hu.inputs
    (by rw [hucfg]; exact hu.get hn) (fun i hi => by rw [huok]; exact hok i hi)
  rw [hucfg, Device.flushed_congr s.cfg d j hbyte hpick] at ht
  refine ⟨t, by rw [hdrew.ok, huok], fun hp => ?_, hu.trans ht⟩
  exact ⟨(hdrew.byte.trans (hfast hp).byte).trans hbyte, (hdrew.pick.trans (hfast hp).pick).trans hpick⟩

/-- The burst of a flush sends the flush's bytes: read from the source as at its start, or written by its conversion. -/
theorem burst_flushed {p : Params} {d : Device} {j : Job} {more todo : List Micro} (h : d.AtFlush p j more) {e f : Env}
    (hfast : j.path = .fast → f.byte = e.byte ∧ f.pick = e.pick) (n k : Nat) :
    (burst n (d.flushed p j e more k) { j with todo := todo } f).1 = flushBytes p d j.region j.src e := by
  have hpath := h.path
  cases hp : j.path with
  | fast =>
    obtain ⟨hb, hpick⟩ := hfast hp
    rw [hp] at hpath
    simp only [burst, h.raced, flushBytes, ← hpath]
    exact (readBytes_congr [] _ _ _ hb hpick).1
  | copy =>
    rw [hp] at hpath
    have hwb : (d.flushed p j e more k).wb = d.wb.writeBlock 0 (flushBytes p d j.region j.src e) := by
      simp only [Device.flushed, flushWire, ← hpath]
    simp only [burst, hwb]
    rw [← flushBytes_length (p := p) (d := d) (R := j.region) h.fmt e]
    exact Memory.readFrom_writeBlock ..

/-! ## A whole UPDATE -/

/-- A flush that starts on a valid region from a supported format. -/
theorem Device.atFlush_startFlush {p : Params} {d : Device} {j : Job} (hg : d.gone = false)
    (hv : j.region.Valid p d.left d.top) (hf : ∀ k, j.src.fmt ≠ .other k) (q : SeqPos) :
    Device.AtFlush p { d with seq := q, job := some (d.startFlush p j) } (d.startFlush p j) j.todo :=
  ⟨hg, rfl, rfl, rfl, rfl, rfl, hv, hf⟩

/-- At most one conversion is made. -/
theorem flushConversions_le_one (p : Params) (d : Device) (R : Region) (S : SrcDesc) :
    flushConversions p d R S ≤ 1 := by
  unfold flushConversions
  split <;> decide

/-- The turns an engine is given after its request ended change nothing. -/
theorem Went.idle {a b n : Nat} {s u : State} {rest : List Input} {d e : Device} {cs : List ResultCode}
    (h : Went a s u n (turns n b rest) e cs) (hn : s.devs[n]? = some d) (hj : e.job = none) :
    ∃ t, t.env = u.env ∧ Went (a + b) s t n rest e cs := by
  obtain ⟨t, henv, hrun⟩ := run_idle b h.inputs (h.get hn) hj
  have hall := h.trans hrun.went
  rw [List.append_nil] at hall
  exact ⟨t, henv, hall⟩

/-- What an UPDATE appends when bus call `k` is the first to be answered false; all four events when there is none. -/
def updateEvents (p : Params) (d : Device) (R : Region) (S : SrcDesc) (e : Env) (k : Nat) : List Event :=
  (flushEvents p d R S e).take k ++ ((flushEvents p d R S e)[k]?.map Event.refused).toList

/-- The record after an UPDATE. -/
def Device.updated (p : Params) (d : Device) (R : Region) (S : SrcDesc) (e : Env) (k : Nat) : Device :=
  { d with
    seq := .idle
    job := none
    wb := flushWire p d R S e
    convCount := d.convCount + flushConversions p d R S
    trace := d.trace ++ updateEvents p d R S e k }

/-- The events when command `k` of the flush is answered false. -/
theorem updateEvents_command (p : Params) (d : Device) (R : Region) (S : SrcDesc) (e : Env) {k : Nat} (hk : k < 3) :
    updateEvents p d R S e k = (windowEvents p d R).take k ++
      [.cmd ((windowInstr R d k).lead p.opc) (windowInstr R d k).operands false] := by
  match k, hk with
  | 0, _ | 1, _ | 2, _ => rfl

/-- The events when the burst is answered. -/
theorem updateEvents_burst (p : Params) (d : Device) (R : Region) (S : SrcDesc) (e : Env) {k : Nat} (hk : 3 ≤ k)
    (hk' : k ≤ 4) :
    updateEvents p d R S e k = windowEvents p d R ++ [.data (flushBytes p d R S e) (decide (k = 4))] := by
  match k, hk, hk' with
  | 3, _, _ | 4, _, _ => rfl

section
variable {s : State} {n : Nat} {rest : List Input} {p : Params} {d : Device} {j : Job} {more : List Micro} {e : Env}
  (h : d.AtFlush p j more) (hr : j.req = .update) (hi : s.inputs = .turn n :: rest)
include h hr hi

/-- A command of an UPDATE's flush answered false ends it (R84). -/
theorem update_command_fails {k : Nat} (hk : k < 3) (hcfg : s.cfg = p) (hn : s.devs[n]? = some (d.flushed p j e more k))
    (hok : s.okDraw = false) :
    ∃ t, Went 1 s t n rest (d.updated p j.region j.src e k) [.busFailure] := by
  obtain ⟨tail, htodo, -⟩ := windowTodo_cons j.region d more hk
  obtain ⟨t, -, ht⟩ := turn_command hi hn h.gone rfl htodo (windowInstr_isCommand j.region d k)
  obtain ⟨hcodes, hrec⟩ := Device.commanded_update
    (d := { d.flushed p j e more k with job := some { j with todo := tail } }) rfl hr h.flushing s.cfg
    (windowInstr j.region d k)
  rw [hok] at ht
  refine ⟨t, ?_⟩
  rw [Device.updated, updateEvents_command p d j.region j.src e hk, ← List.append_assoc, ← hcfg]
  rw [if_neg Bool.false_ne_true] at ht
  subst hcfg
  exact (hcodes ▸ hrec ▸ ht :)

/-- The burst of an UPDATE's flush ends it, whatever the answer (R84, R87). -/
theorem update_burst_ends {k : Nat} (hk : 3 ≤ k) (hk' : k ≤ 4) (hn : s.devs[n]? = some (d.flushed p j e more 3))
    (hfast : j.path = .fast → s.env.byte = e.byte ∧ s.env.pick = e.pick) (hok : s.okDraw = decide (k = 4)) :
    ∃ t, t.env.ok = s.env.ok.next ∧
      Went 1 s t n rest (d.updated p j.region j.src e k) [if k = 4 then .ok else .busFailure] := by
  obtain ⟨t, ⟨byte, pick, henv⟩, ht⟩ := turn_burst hi hn h.gone rfl (by rfl)
  have hbytes := burst_flushed (todo := .data :: more) h hfast n 3
  refine ⟨t, by rw [henv], ?_⟩
  rw [Device.updated, updateEvents_burst p d j.region j.src e hk hk', ← List.append_assoc]
  rw [Device.flushCodes_update (d := { d.flushed p j e more 3 with job := some { j with todo := more } }) rfl hr,
    Device.flushEnded_update (d := Device.log { d.flushed p j e more 3 with job := some { j with todo := more } } _) rfl
      hr, hok] at ht
  have hcode : (if decide (k = 4) = true then ResultCode.ok else .busFailure) = if k = 4 then .ok else .busFailure := by
    simp only [decide_eq_true_eq]
  rw [← hbytes, ← hcode]
  exact ht

end

section
variable {s : State} {n : Nat} {bytes : List Byte} {R : Region} {S : SrcDesc} {d : Device}
  (hb : decodeRequest bytes = .ok (.update R S)) (hn : s.devs[n]? = some d) (hg : d.gone = false)
  (hj : d.job = none) (hv : R.Valid s.cfg d.left d.top)
include hb hn hg hj hv

/-- The request's first step (R87). -/
theorem step_update {is : List Input} (hi : s.inputs = .request n bytes :: is) :
    ∃ t, t.env = s.env ∧
      Ran 1 s t n is { d with job := some (d.startFlush s.cfg ⟨.update, R, S, false, [], .copy, []⟩) } := by
  have hd : State.dev? { s with cur := n, inputs := is } = some d := hn
  have hstep := (step_request_ok hi hb (State.busy_idle hn hj)).trans (onDevice_idle hd hg hj _)
  exact ⟨_, by rfl, runSteps_one (hstep.trans (if_pos hv)), State.modDev_devs_set hd _, rfl, rfl, rfl, rfl⟩

/-- A whole UPDATE, by the number `k` of bus calls answered true before the first false answer (R83, R84, R87). -/
theorem update_run {rest : List Input} (hi : s.inputs = .request n bytes :: turns n 5 rest)
    (hf : ∀ k, S.fmt ≠ .other k) {k : Nat} (hk : k ≤ 4) (hok : s.AllOk k)
    (hfail : k < 4 → s.env.ok.peekAt Config.freeOk k = false) :
    ∃ t, (k = 4 → t.env.ok = s.env.ok.skip 4) ∧
      Went 6 s t n rest (d.updated s.cfg R S s.env k) [if k = 4 then .ok else .busFailure] := by
  obtain ⟨s1, henv1, h1⟩ := step_update hb hn hg hj hv hi
  have hc := flushConversions_le_one s.cfg d R S
  have hat := Device.atFlush_startFlush (j := ⟨.update, R, S, false, [], .copy, []⟩) hg hv hf d.seq
  have hok1 : s1.AllOk k := fun i hi => by rw [henv1]; exact hok i hi
  by_cases hk3 : k < 3
  · obtain ⟨i, hidle⟩ : ∃ i, 5 = flushConversions s.cfg d R S + (k + (i + 1)) :=
      ⟨4 - flushConversions s.cfg d R S - k, by omega⟩
    rw [hidle] at h1
    obtain ⟨s2, hok2, -, h2⟩ := flush_upTo hat h1.cfg (by rw [henv1]) (by rw [henv1]) (Nat.le_of_lt hk3) h1.inputs
      (h1.get hn) hok1
    have hfalse : s2.okDraw = false := by
      rw [State.okDraw_of_skip hok2, henv1]
      exact hfail (by omega)
    obtain ⟨s3, h3⟩ := update_command_fails hat rfl h2.inputs hk3 (h2.cfg.trans h1.cfg)
      (h2.get (h1.get hn)) hfalse
    obtain ⟨t, -, ht⟩ := ((h1.went.trans h2.went).trans h3).idle hn rfl
    have hlen : 1 + (flushConversions s.cfg d R S + k) + 1 + i = 6 := by omega
    have hk4 : k ≠ 4 := by omega
    rw [if_neg hk4, ← hlen]
    exact ⟨t, fun h => absurd h hk4, ht⟩
  · obtain ⟨i, hidle⟩ : ∃ i, 5 = flushConversions s.cfg d R S + (3 + (i + 1)) :=
      ⟨1 - flushConversions s.cfg d R S, by omega⟩
    rw [hidle] at h1
    obtain ⟨s2, hok2, hfast, h2⟩ := flush_upTo hat h1.cfg (by rw [henv1]) (by rw [henv1]) (Nat.le_refl 3) h1.inputs
      (h1.get hn) (hok1.mono (by omega))
    have hanswer : s2.okDraw = decide (k = 4) := by
      rw [State.okDraw_of_skip hok2, henv1]
      by_cases hk4 : k = 4
      · rw [hok 3 (by omega), decide_eq_true hk4]
      · obtain rfl : k = 3 := by omega
        exact hfail (by omega)
    obtain ⟨s3, hok3, h3⟩ := update_burst_ends hat rfl h2.inputs (Nat.le_of_not_lt hk3) hk
      (h2.get (h1.get hn)) hfast hanswer
    obtain ⟨t, henvt, ht⟩ := ((h1.went.trans h2.went).trans h3).idle hn rfl
    have hlen : 1 + (flushConversions s.cfg d R S + 3) + 1 + i = 6 := by omega
    rw [← hlen]
    refine ⟨t, fun _ => ?_, ht⟩
    rw [henvt, hok3, hok2, henv1]
    rfl

end

/-! ## The statements -/

/-- When no bus call fails, an UPDATE appends the four events of its flush. -/
theorem updateEvents_all (p : Params) (d : Device) (R : Region) (S : SrcDesc) (e : Env) :
    updateEvents p d R S e 4 = flushEvents p d R S e := rfl

/-- Settles O28: `update_run` with no false answer. -/
theorem updateRunSendsWindowAndBurst : Obligations.UpdateRunSendsWindowAndBurst := by
  intro s n bytes rest R S d hb hi hn hg hj hv hf hok
  obtain ⟨t, -, ht⟩ := update_run hb hn hg hj hv hi hf (Nat.le_refl 4) hok fun h => absurd h (Nat.lt_irrefl 4)
  exact ⟨t, _, ht.run, ht.inputs, ht.cfg, ht.devs, ht.blk, ht.returns, flushBytes_length hf s.env, rfl⟩

/-- Settles O29: `update_run` with false answer number `k`. -/
theorem updateStopsAtTheFirstFailure : Obligations.UpdateStopsAtTheFirstFailure := by
  intro s n bytes rest R S d k ev hb hi hn hg hj hv hf hok hfail hev
  have hk : k < 4 := (List.getElem?_eq_some_iff.mp hev).1
  obtain ⟨t, -, ht⟩ := update_run hb hn hg hj hv hi hf (Nat.le_of_lt hk) hok fun _ => hfail
  have hret := ht.returns
  rw [if_neg (Nat.ne_of_lt hk)] at hret
  refine ⟨t, _, ht.run, ht.inputs, ht.devs, ht.blk, hret, rfl, rfl, ?_⟩
  simp only [Device.updated, updateEvents, hev, Option.map_some, Option.toList_some]

/-- Settles O30: another format takes the copy path, whose first step is the conversion. -/
theorem unsupportedFormatSendsNothing : Obligations.UnsupportedFormatSendsNothing := by
  intro s n bytes rest R S d k hb hi hn hg hj hv hf
  obtain ⟨u, henvu, hu⟩ := step_update hb hn hg hj hv hi
  have hpath : pathOf s.cfg d R S = .copy := by simp [pathOf, decidePath, hf]
  obtain ⟨more, htodo⟩ : ∃ more,
      (d.startFlush s.cfg ⟨.update, R, S, false, [], .copy, []⟩).todo = .convert :: more := by
    simp only [Device.startFlush, hpath]
    exact ⟨_, rfl⟩
  obtain ⟨t, henvt, ht⟩ := turn_unsupported hu.inputs (hu.get hn) hg rfl htodo
    (by rw [Device.startFlush, hf]; rfl)
  have hall := hu.went.trans ht
  exact ⟨t, hall.run, hall.inputs, hall.devs, hall.blk, henvt.trans henvu, hall.returns⟩

/-- An UPDATE's turns count one conversion on the copy path and none on the fast one, whatever the transport answers. -/
theorem update_counts {s : State} {n : Nat} {bytes : List Byte} {rest : List Input} {R : Region} {S : SrcDesc}
    {d : Device} (hb : decodeRequest bytes = .ok (.update R S)) (hi : s.inputs = .request n bytes :: turns n 5 rest)
    (hn : s.devs[n]? = some d) (hg : d.gone = false) (hj : d.job = none) (hv : R.Valid s.cfg d.left d.top)
    (hf : ∀ k, S.fmt ≠ .other k) :
    ∃ t e, runSteps 6 s = .next t ∧ t.devs = s.devs.set n e ∧
      e.convCount = d.convCount + flushConversions s.cfg d R S := by
  rcases s.allOk_or_first 4 with hok | ⟨k, hk, hok, hfail⟩
  · obtain ⟨t, -, ht⟩ := update_run hb hn hg hj hv hi hf (Nat.le_refl 4) hok fun h => absurd h (Nat.lt_irrefl 4)
    exact ⟨t, _, ht.run, ht.devs, rfl⟩
  · obtain ⟨t, -, ht⟩ := update_run hb hn hg hj hv hi hf (Nat.le_of_lt hk) hok fun _ => hfail
    exact ⟨t, _, ht.run, ht.devs, rfl⟩

/-- Settles O31: the count of `update_counts` by the path. -/
theorem pathChoiceShowsInTheCount : Obligations.PathChoiceShowsInTheCount := by
  intro s n bytes rest R S d hb hi hn hg hj hR hv
  refine ⟨fun hfmt hswap hdc => ?_, fun hfmt => ?_⟩
  · have hfast := (pathOf_fast_iff s.cfg d R S).mpr ⟨hR, hfmt, hswap, hdc⟩
    have hnone : flushConversions s.cfg d R S = 0 := by rw [flushConversions, hfast]
    rw [← Nat.add_zero d.convCount, ← hnone]
    exact update_counts hb hi hn hg hj hv fun k h => nomatch hfmt.symm.trans h
  · have hcopy : pathOf s.cfg d R S = .copy := by simp [pathOf, decidePath, hfmt]
    have hone : flushConversions s.cfg d R S = 1 := by rw [flushConversions, hcopy]
    rw [← hone]
    exact update_counts hb hi hn hg hj hv fun k h => nomatch hfmt.symm.trans h

/-- A conversion of mapped rows gives the same bytes whatever is drawn. -/
theorem convertRows_mapped_bytes {x : Expand565} {S : SrcDesc} {swap : Bool} {bpp x1 w h y : Nat}
    (hm : ∀ j, j < h → RowMapped S bpp x1 w (y + j)) (e f : Env) :
    (convertRows x S [] swap bpp x1 w h y e).1 = (convertRows x S [] swap bpp x1 w h y f).1 := by
  induction h generalizing y with
  | zero => rfl
  | succ h ih =>
    have hrow := memRead_row (hm 0 (Nat.succ_pos h))
    rw [Nat.add_zero] at hrow
    simp only [convertRows, hrow, ih (rowMapped_tail hm)]

/-- A flush of mapped bytes sends the same bytes whatever is drawn (R86). -/
theorem flushBytes_mapped {p : Params} {d : Device} {R : Region} {S : SrcDesc} (hv : R.Valid p d.left d.top)
    (hm : FlushMapped p d R S) (e f : Env) : flushBytes p d R S e = flushBytes p d R S f := by
  unfold FlushMapped at hm
  unfold flushBytes
  split at hm
  · have hread := memRead_mapped (S := S) (off := 0) (n := R.burstLen) (by omega)
    simp only [hread]
  · cases hbpp : bytesPerPixel S.fmt with
    | none => simp only [convertRegion, hbpp]
    | some bpp =>
      obtain ⟨⟨hx0, hx1, -⟩, ⟨hy0, -, -⟩, -, -⟩ := hv
      have hrows := rowMapped_of_region hx0 hy0 hx1 (hm bpp hbpp)
      simp only [convertRegion, hbpp, convertRows_mapped_bytes hrows e f]

/-- Settles O32: the second UPDATE runs as the first, and its bytes are mapped and so drawn from nothing. -/
theorem repeatedUpdateRepeatsItsEvents : Obligations.RepeatedUpdateRepeatsItsEvents := by
  intro s n bytes rest R S d hb hi hn hg hj hv hf hm hok
  obtain ⟨u, henv, hu⟩ := update_run hb hn hg hj hv hi hf (Nat.le_refl 4) (hok.mono (by decide))
    fun h => absurd h (Nat.lt_irrefl 4)
  have hcfg := hu.cfg
  obtain ⟨t, -, ht⟩ := update_run (s := u) hb (hu.get hn) hg rfl (by rw [hcfg]; exact hv) hu.inputs hf (Nat.le_refl 4)
    (State.AllOk.skip (m := 4) hok (henv rfl)) fun h => absurd h (Nat.lt_irrefl 4)
  have hall := hu.trans ht
  refine ⟨t, _, flushEvents s.cfg d R S s.env, hall.run, hall.devs, rfl, ?_, hall.returns⟩
  have hsame := flushBytes_mapped hv hm u.env s.env
  have hevents : flushEvents s.cfg d R S u.env = flushEvents s.cfg d R S s.env := by
    rw [flushEvents, flushEvents, hsame]
  rw [hcfg, ← List.append_assoc]
  exact congrArg (d.trace ++ flushEvents s.cfg d R S s.env ++ ·) hevents

end Sys2Proof.Machine
end

section
/-! PROOFS. Whole runs of a successful ENABLE (43_sequencer.md): the first step, the table of steps 2 to 8, and the run from
step 9 on. -/

namespace Sys2Proof.Machine

open Sys2Proof

/-! ## The completion -/

/-- Turns given in two parts. -/
theorem turns_add (n a b : Nat) (rest : List Input) : turns n (a + b) rest = turns n a (turns n b rest) := by
  rw [turns, turns, turns, ← List.append_assoc, List.replicate_append_replicate]

/-- After `k` steps from `s` the ENABLE of device `n` completed at `t`: its record became `e`, its line `bl` is on and OK was
returned (R118, R120). -/
structure Completed (k : Nat) (s t : State) (n : Nat) (rest : List Input) (bl : BacklightId) (e : Device) : Prop where
  run : runSteps k s = .next t
  devs : t.devs = s.devs.set n e
  inputs : t.inputs = rest
  cfg : t.cfg = s.cfg
  blk : t.blk = s.blk.enable bl
  returns : t.returns = s.returns ++ [⟨some n, .ok⟩]

theorem Ran.completed {a b n : Nat} {s u t : State} {r rest : List Input} {d e : Device} {bl : BacklightId}
    (h : Ran a s u n r d) (h' : Completed b u t n rest bl e) : Completed (a + b) s t n rest bl e where
  run := (runSteps_add h.run).trans h'.run
  devs := by rw [h'.devs, h.devs, List.set_set]
  inputs := h'.inputs
  cfg := h'.cfg.trans h.cfg
  blk := by rw [h'.blk, h.blk]
  returns := by rw [h'.returns, h.returns]

/-- The turns given after the completion change nothing. -/
theorem Completed.idle {a b n : Nat} {s u : State} {rest : List Input} {d e : Device} {bl : BacklightId}
    (h : Completed a s u n (turns n b rest) bl e) (hn : s.devs[n]? = some d) (hj : e.job = none) :
    ∃ t, Completed (a + b) s t n rest bl e := by
  have hu : u.devs[n]? = some e := by
    obtain ⟨hlt, -⟩ := List.getElem?_eq_some_iff.mp hn
    simp [h.devs, hlt]
  obtain ⟨t, -, hrun⟩ := run_idle b h.inputs hu hj
  exact ⟨t, (runSteps_add h.run).trans hrun.run, by rw [hrun.devs, h.devs, List.set_set], hrun.inputs,
    hrun.cfg.trans h.cfg, hrun.blk.trans h.blk, hrun.returns.trans h.returns⟩

/-- The backlight step and the completion (R118, R120). -/
theorem enable_completes {s : State} {n : Nat} {rest : List Input} {d : Device} {j : Job}
    (hi : s.inputs = turns n 2 rest) (hn : s.devs[n]? = some d) (hg : d.gone = false) (hj : d.job = some j)
    (ht : j.todo = [.blOn, .finish]) :
    ∃ t, Completed 2 s t n rest d.bl
      { d with st := .active, seq := .idle, job := none, trace := d.trace ++ [.blOn d.bl] } := by
  obtain ⟨u, hsu, hin, hcfg, hblk, -, hret, hdevs⟩ := turn_blOn (rest := turns n 1 rest) hi hn hg hj ht
  have hun : u.devs[n]? =
      some { d with trace := d.trace ++ [.blOn d.bl], job := some { j with todo := [.finish] } } := by
    obtain ⟨hlt, -⟩ := List.getElem?_eq_some_iff.mp hn
    simp [hdevs, hlt]
  obtain ⟨t, hst, hin', hcfg', hblk', -, hret', hdevs'⟩ := turn_finish (rest := rest) hin hun hg rfl rfl
  exact ⟨t, (runSteps_add (runSteps_one hsu)).trans (runSteps_one hst), by rw [hdevs', hdevs, List.set_set], hin',
    hcfg'.trans hcfg, hblk'.trans hblk, by rw [hret', hret]⟩

/-! ## The request -/

/-- The record at step 1 (R91). -/
def Device.enabling (p : Params) (region : Option Region) (S : SrcDesc) (d : Device) : Device :=
  { d with
    st := if d.st = .active then .active else .poweringOn
    seq := .at .step1
    job := some ⟨.enable, region.getD (fullFrame p), S, false, [], .copy, enableSteps (decide (d.st = .active))⟩ }

/-- The request's first step (R89 to R91). -/
theorem step_enable {s : State} {n : Nat} {bytes : List Byte} {region : Option Region} {S : SrcDesc} {d : Device}
    {is : List Input} (hb : decodeRequest bytes = .ok (.enable region S)) (hi : s.inputs = .request n bytes :: is)
    (hn : s.devs[n]? = some d) (hg : d.gone = false) (hj : d.job = none) :
    ∃ t, t.env = s.env ∧ Ran 1 s t n is (d.enabling s.cfg region S) := by
  have hd : State.dev? { s with cur := n, inputs := is } = some d := hn
  have hstep := (step_request_ok hi hb (State.busy_idle hn hj)).trans (onDevice_idle hd hg hj _)
  exact ⟨_, by rfl, runSteps_one hstep, State.modDev_devs_set hd _, rfl, rfl, rfl, rfl⟩

/-! ## Steps 2 to 8, every command answered true -/

/-- The event of a settle delay. -/
def Micro.delayEvent? : Micro → Option Event
  | .delay ms => some (.delay ms)
  | _ => none

/-- The events of a command of the table answered true: the command and its settle delay (R112, R114). -/
def Micro.tableEvents (p : Params) : Micro → List Event
  | .cmd _ i => .cmd (i.lead p.opc) i.operands true :: (commandAfter i).filterMap Micro.delayEvent?
  | _ => []

/-- What follows a command is nothing, one settle delay or one burst. -/
theorem commandAfter_cases (i : Instr) :
    commandAfter i = [] ∨ (∃ ms, commandAfter i = [.delay ms]) ∨ commandAfter i = [.data] := by
  cases i with
  | slpout => exact .inr (.inl ⟨120, rfl⟩)
  | dispon => exact .inr (.inl ⟨100, rfl⟩)
  | ramwr => exact .inr (.inr rfl)
  | _ => exact .inl rfl

/-- A command that no burst follows. -/
def Micro.inTable : Micro → Bool
  | .cmd _ i => i.isCommand && decide (commandAfter i ≠ [.data])
  | _ => false

theorem Micro.inTable_cases {m : Micro} (h : m.inTable = true) :
    ∃ q i, m = .cmd q i ∧ i.isCommand = true ∧ (commandAfter i = [] ∨ ∃ ms, commandAfter i = [.delay ms]) := by
  cases m with
  | cmd q i =>
    obtain ⟨hcmd, hafter⟩ := Bool.and_eq_true_iff.mp h
    rw [decide_eq_true_eq] at hafter
    rcases commandAfter_cases i with hnone | hdelay | hdata
    · exact ⟨q, i, rfl, hcmd, .inl hnone⟩
    · exact ⟨q, i, rfl, hcmd, .inr hdelay⟩
    · exact absurd hdata hafter
  | _ => cases h

theorem pwrSteps_inTable (q : InitParams) (i : Nat) (cs : List PwrCmd) :
    (pwrSteps q i cs).all Micro.inTable = true := by
  induction cs generalizing i with
  | nil => rfl
  | cons c cs ih => rw [pwrSteps, List.all_cons, ih, Bool.and_true]; cases c <;> rfl

theorem initTable_inTable (p : Params) : ∀ m ∈ initTable p, m.inTable = true := by
  rw [← List.all_eq_true, initTable, List.all_append, List.all_append, pwrSteps_inTable]
  rfl

theorem pwrSteps_length (q : InitParams) (i : Nat) (cs : List PwrCmd) : (pwrSteps q i cs).length = cs.length := by
  induction cs generalizing i with
  | nil => rfl
  | cons c cs ih => exact congrArg Nat.succ (ih (i + 1))

theorem initTable_length (p : Params) : (initTable p).length = 14 + p.pwrSeq.length := by
  simp only [initTable, List.length_append, List.length_cons, List.length_nil, pwrSteps_length]
  omega

theorem pwrSteps_tableEvents (p : Params) (i : Nat) (cs : List PwrCmd) :
    (pwrSteps p.init i cs).flatMap (Micro.tableEvents p) = cs.map (pwrEvent p) := by
  induction cs generalizing i with
  | nil => rfl
  | cons c cs ih =>
    have hhead : Micro.tableEvents p (.cmd (some (.step5 i)) (pwrInstr p.init c)) = [pwrEvent p c] := by
      cases c <;> rfl
    rw [pwrSteps, List.flatMap_cons, hhead, ih, List.map_cons, List.singleton_append]

/-- The events of the table are those of steps 2 to 8 (R95). -/
theorem initTable_tableEvents (p : Params) : (initTable p).flatMap (Micro.tableEvents p) = initEvents p := by
  rw [initTable, List.flatMap_append, List.flatMap_append, pwrSteps_tableEvents]
  rfl

theorem initEvents_length (p : Params) : (initEvents p).length = 16 + p.pwrSeq.length := by
  simp only [initEvents, List.length_append, List.length_cons, List.length_nil, List.length_map]
  omega

/-- A command of a table with its settle delay (R96, R112, R114). -/
theorem table_command {s : State} {n : Nat} {rest : List Input} {p : Params} {d : Device} {j : Job} {c : Micro}
    {more : List Micro} (hc : c.inTable = true) (hcfg : s.cfg = p)
    (hi : s.inputs = turns n (c.tableEvents p).length rest) (hn : s.devs[n]? = some d) (hg : d.gone = false)
    (hj : d.job = some j) (ht : j.todo = c :: more) (hok : s.okDraw = true) :
    ∃ t q, Drew 1 s t ∧
      Ran (c.tableEvents p).length s t n rest
        { d with seq := q, trace := d.trace ++ c.tableEvents p, job := some { j with todo := more } } := by
  subst hcfg
  obtain ⟨pos, i, rfl, hcmd, hafter | ⟨ms, hafter⟩⟩ := c.inTable_cases hc
  · rw [Micro.tableEvents, hafter] at hi ⊢
    obtain ⟨t, henv, ht⟩ := turn_cmd hi hn hg hj ht hcmd hok
    rw [hafter] at ht
    exact ⟨t, _, .of_answer henv, ht⟩
  · rw [Micro.tableEvents, hafter] at hi ⊢
    obtain ⟨t, henv, ht⟩ := runSteps_command_delay hi hn hg hj ht hcmd hafter hok
    exact ⟨t, _, .of_answer henv, ht⟩

/-- The commands of a table one after the other, all answered true (R96). -/
theorem table_run {s : State} {n m : Nat} {rest : List Input} {p : Params} {d : Device} {j : Job}
    {cs more : List Micro} (hcs : ∀ c ∈ cs, c.inTable = true) (hcfg : s.cfg = p)
    (hi : s.inputs = turns n ((cs.flatMap (Micro.tableEvents p)).length + m) rest) (hn : s.devs[n]? = some d)
    (hg : d.gone = false) (hj : d.job = some j) (ht : j.todo = cs ++ more)
    (hok : s.AllOk cs.length) :
    ∃ t q, Drew cs.length s t ∧
      Ran (cs.flatMap (Micro.tableEvents p)).length s t n (turns n m rest)
        { d with
          seq := q
          trace := d.trace ++ cs.flatMap (Micro.tableEvents p)
          job := some { j with todo := more } } := by
  induction cs generalizing s d j with
  | nil =>
    refine ⟨s, d.seq, .refl s, ?_⟩
    simp only [List.flatMap_nil, List.length_nil, Nat.zero_add, List.nil_append, List.append_nil] at hi ht ⊢
    rw [← hi, ← ht, ← hj]
    exact Ran.refl hn
  | cons c cs ih =>
    obtain ⟨hc, hcs⟩ := List.forall_mem_cons.mp hcs
    rw [List.flatMap_cons, List.length_append, Nat.add_assoc, turns_add] at hi
    obtain ⟨u, q, hdrew, hu⟩ := table_command hc hcfg hi hn hg hj ht
      (hok.okDraw (m := 0) (Nat.succ_pos _) rfl)
    obtain ⟨t, q', hdrew', hrun⟩ := ih hcs (hu.cfg.trans hcfg) hu.inputs (hu.get hn) hg rfl rfl
      (State.AllOk.skip (m := 1) (by rw [Nat.add_comm]; exact hok) hdrew.ok)
    refine ⟨t, q', ?_, ?_⟩
    · rw [List.length_cons, Nat.add_comm]
      exact hdrew.trans hdrew'
    · rw [List.flatMap_cons, List.length_append, ← List.append_assoc]
      exact hu.trans hrun

/-! ## From step 9 on, every bus call answered true -/

/-- The flush of step 10 (R83, R117). -/
theorem enable_paints {s : State} {n m : Nat} {rest : List Input} {p : Params} {d : Device} {j : Job} {e : Env}
    (h : d.AtFlush p j [.blOn, .finish]) (hr : j.req = .enable) (hcfg : s.cfg = p) (hbyte : s.env.byte = e.byte)
    (hpick : s.env.pick = e.pick)
    (hi : s.inputs = turns n (flushConversions p d j.region j.src + (3 + (1 + m))) rest) (hn : s.devs[n]? = some d)
    (hok : s.AllOk 4) :
    ∃ t, Ran (flushConversions p d j.region j.src + 3 + 1) s t n (turns n m rest)
      { d with
        wb := flushWire p d j.region j.src e
        convCount := d.convCount + flushConversions p d j.region j.src
        trace := d.trace ++ flushEvents p d j.region j.src e
        job := some { j with flushing := false, raced := [], todo := [.blOn, .finish] } } := by
  obtain ⟨u, huok, hfast, hu⟩ := flush_upTo h hcfg hbyte hpick (Nat.le_refl 3) hi hn (hok.mono (by decide))
  obtain ⟨t, -, ht⟩ := turn_data_enable (rest := turns n m rest) (by rw [hu.inputs, Nat.add_comm 1]; rfl) (hu.get hn)
    h.gone rfl (by rfl) hr (hok.okDraw (by decide) huok)
  rw [burst_flushed h hfast n 3] at ht
  refine ⟨t, ?_⟩
  rw [flushEvents, ← List.append_assoc]
  exact hu.trans ht

/-- Steps 9 and 10, the backlight step and the completion (R116 to R120). -/
theorem enable_from_step9 {s : State} {n : Nat} {rest : List Input} {p : Params} {d : Device} {j : Job} {e : Env}
    (hcfg : s.cfg = p) (hbyte : s.env.byte = e.byte) (hpick : s.env.pick = e.pick) (hi : s.inputs = turns n 9 rest)
    (hn : s.devs[n]? = some d) (hg : d.gone = false) (hj : d.job = some j) (hr : j.req = .enable)
    (ht : j.todo = [.addrMode, .paint, .blOn, .finish]) (hv : j.region.Valid p d.left d.top)
    (hf : ∀ k, j.src.fmt ≠ .other k) (hok : s.AllOk 5) :
    ∃ t, Completed 9 s t n rest d.bl
      { d with
        st := .active
        seq := .idle
        job := none
        wb := flushWire p d j.region j.src e
        convCount := d.convCount + flushConversions p d j.region j.src
        trace := d.trace ++ ([.cmd p.opc.madctl [rotByte p d.rot] true] ++
          (flushEvents p d j.region j.src e ++ [.blOn d.bl])) } := by
  subst hcfg
  obtain ⟨s1, henv1, h1⟩ := turn_addrMode (rest := turns n 8 rest) hi hn hg hj ht
    (hok.okDraw (m := 0) (by decide) rfl)
  obtain ⟨s2, henv2, h2⟩ := turn_paint (rest := turns n 7 rest) h1.inputs (h1.get hn) hg rfl rfl
    (by rw [h1.cfg]; exact hv)
  have h12 := h1.trans h2
  rw [h1.cfg] at h12
  have henv : s2.env = { s.env with ok := s.env.ok.next } := henv2.trans henv1
  have hat := Device.atFlush_startFlush (p := s.cfg)
    (d := { d with trace := d.trace ++ [.cmd s.cfg.opc.madctl [rotByte s.cfg d.rot] true] })
    (j := { j with todo := [.blOn, .finish] }) hg hv hf (.at .step10)
  have hc := flushConversions_le_one s.cfg d j.region j.src
  obtain ⟨i, hidle⟩ : ∃ i, 7 = flushConversions s.cfg d j.region j.src + (3 + (1 + (2 + i))) :=
    ⟨1 - flushConversions s.cfg d j.region j.src, by omega⟩
  have hin := h12.inputs
  rw [hidle] at hin
  obtain ⟨s3, h3⟩ := enable_paints (e := e) hat hr h12.cfg (by rw [henv, hbyte]) (by rw [henv, hpick]) hin (h12.get hn)
    (State.AllOk.skip (m := 1) hok (by rw [henv]; rfl))
  have h13 := h12.trans h3
  obtain ⟨s4, h4⟩ := enable_completes (rest := turns n i rest) (by rw [h13.inputs, turns_add]) (h13.get hn) hg rfl rfl
  obtain ⟨t, h⟩ := (h13.completed h4).idle hn rfl
  have hlen : 1 + 1 + (flushConversions s.cfg d j.region j.src + 3 + 1) + 2 + i = 9 := by omega
  have htrace (evs : List Event) : d.trace ++
      ([.cmd s.cfg.opc.madctl [rotByte s.cfg d.rot] true] ++ (evs ++ [.blOn d.bl])) =
      d.trace ++ [.cmd s.cfg.opc.madctl [rotByte s.cfg d.rot] true] ++ evs ++ [.blOn d.bl] := by
    simp only [List.append_assoc]
  rw [← hlen, htrace]
  exact ⟨t, h⟩

/-- Settles O24: step 1 answered retained leaves step 9 next. -/
theorem enableRunSkipsWhenRetained : Obligations.EnableRunSkipsWhenRetained := by
  intro s n bytes rest region S d R hb hi hn hg hj hR hv hf hreset hok
  subst hR
  obtain ⟨s1, henv1, h1⟩ := step_enable hb hi hn hg hj
  obtain ⟨s2, henv2, h2⟩ := turn_reset_retained (rest := turns n 9 rest) h1.inputs (h1.get hn) hg rfl rfl
    (by rw [State.resetDraw, henv1]; exact hreset)
  have h12 := h1.trans h2
  have henv : s2.env = { s.env with reset := s.env.reset.next } := by rw [henv2, henv1]
  obtain ⟨t, ht⟩ := enable_from_step9 (e := s.env) h12.cfg (by rw [henv]) (by rw [henv]) h12.inputs (h12.get hn) hg rfl rfl
    rfl hv hf (State.AllOk.skip (m := 0) (by rw [Nat.zero_add]; exact hok) (by rw [henv]; rfl))
  have hall := h12.completed ht
  refine ⟨t, _, hall.run, hall.inputs, hall.cfg, hall.devs, hall.blk, hall.returns, ?_⟩
  simp only [Device.enabling, List.append_assoc]
  rfl

/-- Settles O23: step 1 answered needs_init puts the table of steps 2 to 8 before step 9. -/
theorem enableRunInitializesPaintsAndLights : Obligations.EnableRunInitializesPaintsAndLights := by
  intro s n bytes rest region S d R hb hi hn hg hj hR hv hf hreset hok
  subst hR
  obtain ⟨s1, henv1, h1⟩ := step_enable hb hi hn hg hj
  have hturns : 26 + s.cfg.pwrSeq.length = 1 + ((initEvents s.cfg).length + 9) := by rw [initEvents_length]; omega
  rw [hturns, turns_add] at h1
  obtain ⟨s2, henv2, h2⟩ := turn_reset_needsInit h1.inputs (h1.get hn) hg rfl rfl
    (by rw [State.resetDraw, henv1]; exact hreset)
  have h12 := h1.trans h2
  rw [h1.cfg] at h12
  have henv : s2.env = { s.env with reset := s.env.reset.next } := by rw [henv2, henv1]
  have hok2 : s2.AllOk ((initTable s.cfg).length + 5) := by
    refine State.AllOk.skip (s := s) (m := 0) ?_ (by rw [henv]; rfl)
    rw [initTable_length, Nat.zero_add, Nat.add_assoc, Nat.add_comm _ 5, ← Nat.add_assoc]
    exact hok
  obtain ⟨s3, q, hdrew, h3⟩ := table_run (initTable_inTable s.cfg) h12.cfg
    (by rw [initTable_tableEvents]; exact h12.inputs) (h12.get hn) hg rfl rfl (hok2.mono (Nat.le_add_right _ _))
  rw [initTable_tableEvents] at h3
  have h13 := h12.trans h3
  obtain ⟨t, ht⟩ := enable_from_step9 (e := s.env) h13.cfg (by rw [hdrew.byte, henv]) (by rw [hdrew.pick, henv])
    h13.inputs (h13.get hn) hg rfl rfl rfl hv hf (hok2.skip hdrew.ok)
  have hall := h13.completed ht
  have hlen : 27 + s.cfg.pwrSeq.length = 1 + 1 + (initEvents s.cfg).length + 9 := by rw [initEvents_length]; omega
  rw [hlen]
  refine ⟨t, _, hall.run, hall.inputs, hall.cfg, hall.devs, hall.blk, hall.returns, ?_⟩
  simp only [Device.enabling, List.append_assoc]
  rfl

end Sys2Proof.Machine
end

section
/-! PROOFS. Every ENABLE ends within the turns its steps take at most (43_sequencer.md section 6). -/

namespace Sys2Proof.Machine

open Sys2Proof

/-! ## How many turns the steps take -/

/-- A step of an ENABLE before its backlight step. -/
def Micro.beforeLight : Micro → Bool
  | .cmd _ i => i.isCommand
  | .blOn | .finish => false
  | _ => true

/-- How many turns a step takes at most, with those it puts before the others: steps 2 to 8 after a reset, the flush after
the start of step 10, what follows a command. -/
def Micro.cost (p : Params) : Micro → Nat
  | .reset _ => 17 + p.pwrSeq.length
  | .cmd _ i => 1 + (commandAfter i).length
  | .paint => 6
  | _ => 1

/-- How many turns a list of steps takes at most. -/
def todoCost (p : Params) (todo : List Micro) : Nat := (todo.map (Micro.cost p)).sum

theorem todoCost_cons (p : Params) (m : Micro) (todo : List Micro) :
    todoCost p (m :: todo) = m.cost p + todoCost p todo := rfl

theorem todoCost_append (p : Params) (a b : List Micro) : todoCost p (a ++ b) = todoCost p a + todoCost p b := by
  simp only [todoCost, List.map_append, List.sum_append]

theorem Micro.cost_pos (p : Params) (m : Micro) : 0 < m.cost p := by
  unfold Micro.cost
  split <;> omega

/-- Every step taken lowers the cost. -/
theorem todoCost_lt_cons (p : Params) (m : Micro) (todo : List Micro) : todoCost p todo < todoCost p (m :: todo) :=
  Nat.lt_add_of_pos_left (m.cost_pos p)

theorem todoCost_nil_lt_cons (p : Params) (m : Micro) (todo : List Micro) : todoCost p [] < todoCost p (m :: todo) :=
  Nat.lt_of_lt_of_le (m.cost_pos p) (Nat.le_add_right _ _)

theorem pwrSteps_cost (p : Params) (i : Nat) (cs : List PwrCmd) : todoCost p (pwrSteps p.init i cs) = cs.length := by
  induction cs generalizing i with
  | nil => rfl
  | cons c cs ih =>
    rw [pwrSteps, todoCost_cons, ih, List.length_cons, Nat.add_comm]
    cases c <;> rfl

theorem initTable_cost (p : Params) : todoCost p (initTable p) = 16 + p.pwrSeq.length := by
  rw [initTable, todoCost_append, todoCost_append, pwrSteps_cost]
  simp only [todoCost, Micro.cost, commandAfter, List.map_cons, List.map_nil, List.sum_cons, List.sum_nil,
    List.length_cons, List.length_nil]
  omega

theorem commandAfter_cost (p : Params) (i : Instr) : todoCost p (commandAfter i) = (commandAfter i).length := by
  rcases commandAfter_cases i with h | ⟨ms, h⟩ | h <;> rw [h] <;> rfl

theorem flushSteps_cost (p : Params) (path : Path) (R : Region) (left top : Int) :
    todoCost p (flushSteps path R left top) ≤ 5 := by
  cases path
  · exact Nat.le_of_ble_eq_true rfl
  · exact Nat.le_of_ble_eq_true rfl

theorem commandAfter_beforeLight (i : Instr) : ∀ m ∈ commandAfter i, m.beforeLight = true := by
  rcases commandAfter_cases i with h | ⟨ms, h⟩ | h <;> rw [h] <;> simp [Micro.beforeLight]

theorem flushSteps_beforeLight (path : Path) (R : Region) (left top : Int) :
    ∀ m ∈ flushSteps path R left top, m.beforeLight = true := by
  rw [← List.all_eq_true]
  cases path <;> rfl

theorem initTable_beforeLight (p : Params) : ∀ m ∈ initTable p, m.beforeLight = true := fun m hm => by
  obtain ⟨q, i, rfl, hcmd, -⟩ := Micro.inTable_cases (initTable_inTable p m hm)
  exact hcmd

/-! ## A turn of an ENABLE -/

/-- A running ENABLE with the steps `pre` before its backlight step, on the line `bl`. -/
structure Device.Enabling (p : Params) (bl : BacklightId) (d : Device) (pre : List Micro) : Prop where
  gone : d.gone = false
  bl : d.bl = bl
  job : ∃ j, d.job = some j ∧ j.req = .enable ∧ j.region.Valid p d.left d.top ∧ j.todo = pre ++ [.blOn, .finish]
  pre : ∀ m ∈ pre, m.beforeLight = true

/-- The record of an ENABLE that ended in a failure (R97). -/
structure Device.Failed (e : Device) : Prop where
  st : e.st = .disabled
  seq : e.seq = .idle
  job : e.job = none

/-- What a turn of an ENABLE can do: go on with fewer turns left, or fail. -/
inductive EnableTurn (p : Params) (bl : BacklightId) (cost : Nat) : Device → List ResultCode → Prop where
  | goesOn {e : Device} {pre : List Micro} (h : e.Enabling p bl pre) (hc : todoCost p pre < cost) :
    EnableTurn p bl cost e []
  | fails {e : Device} {code : ResultCode} (h : e.Failed) (hc : code = .busFailure ∨ code = .hwInitFailure) :
    EnableTurn p bl cost e [code]

/-- A command of an ENABLE, whatever the answer (R97, R119). -/
theorem Device.commanded_enableTurn {p : Params} {d : Device} {j : Job} {pre : List Micro} (hg : d.gone = false)
    (hj : d.job = some j) (hr : j.req = .enable) (hv : j.region.Valid p d.left d.top)
    (ht : j.todo = pre ++ [.blOn, .finish]) (hpre : ∀ m ∈ pre, m.beforeLight = true) (i : Instr) (ok : Bool) :
    EnableTurn p d.bl (1 + (commandAfter i).length + todoCost p pre) (d.commanded p i ok)
      (if ok then [] else d.failCodes) := by
  cases ok with
  | true =>
    rw [Device.commanded_true, hj]
    refine .goesOn (pre := commandAfter i ++ pre) ⟨hg, rfl, ⟨_, rfl, hr, hv, ?_⟩, ?_⟩ ?_
    · rw [List.append_assoc, ← ht]
    · exact List.forall_mem_append.mpr ⟨commandAfter_beforeLight i, hpre⟩
    · rw [todoCost_append, commandAfter_cost]
      omega
  | false =>
    rw [if_neg Bool.false_ne_true]
    cases hf : j.flushing with
    | true =>
      obtain ⟨hcodes, hrec⟩ := Device.commanded_paint hj hr hf p i
      rw [hcodes, hrec]
      exact .goesOn (pre := []) ⟨hg, rfl, ⟨_, rfl, hr, hv, rfl⟩, List.forall_mem_nil _⟩
        (by simp only [todoCost, List.map_nil, List.sum_nil]; omega)
    | false =>
      by_cases hs : d.seq = .at .step9
      · obtain ⟨hcodes, hrec⟩ := Device.commanded_step9 hj hf hs p i
        rw [hcodes, hrec]
        exact .goesOn (pre := pre) ⟨hg, rfl, ⟨j, hj, hr, hv, ht⟩, hpre⟩ (by omega)
      · obtain ⟨hcodes, hrec⟩ := Device.commanded_early hj hf hs p i
        rw [hcodes, hrec]
        exact .fails ⟨rfl, rfl, rfl⟩ (.inl rfl)

/-- The end of an ENABLE's flush leaves the backlight step (R118, R119). -/
theorem Device.flushEnded_enabling {p : Params} {d : Device} {j : Job} (hg : d.gone = false) (hj : d.job = some j)
    (hr : j.req = .enable) (hv : j.region.Valid p d.left d.top) : d.flushEnded.Enabling p d.bl [] := by
  rw [Device.flushEnded_enable hj hr]
  exact ⟨hg, rfl, ⟨_, rfl, hr, hv, rfl⟩, List.forall_mem_nil _⟩

/-- Any turn of an ENABLE before its backlight step. -/
theorem enable_turn {s : State} {n : Nat} {rest : List Input} {bl : BacklightId} {d : Device} {m : Micro}
    {pre : List Micro} (h : d.Enabling s.cfg bl (m :: pre)) (hi : s.inputs = .turn n :: rest)
    (hn : s.devs[n]? = some d) :
    ∃ t e codes, Went 1 s t n rest e codes ∧ EnableTurn s.cfg bl (todoCost s.cfg (m :: pre)) e codes := by
  obtain ⟨hg, rfl, ⟨j, hj, hr, hv, ht⟩, hsteps⟩ := h
  obtain ⟨hm, hpre⟩ := List.forall_mem_cons.mp hsteps
  rw [List.cons_append] at ht
  cases m with
  | blOn | finish => cases hm
  | reset fa =>
    obtain ⟨t, -, h⟩ := turn_step1 hi hn hg hj ht
    refine ⟨t, _, _, h, ?_⟩
    cases s.resetDraw with
    | failed => exact .fails ⟨rfl, rfl, rfl⟩ (.inr rfl)
    | retained => exact .goesOn ⟨hg, rfl, ⟨_, rfl, hr, hv, rfl⟩, hpre⟩ (todoCost_lt_cons _ _ _)
    | needsInit =>
      refine .goesOn (pre := initTable s.cfg ++ pre) ⟨hg, rfl, ⟨_, rfl, hr, hv, ?_⟩, ?_⟩ ?_
      · exact (List.append_assoc ..).symm
      · exact List.forall_mem_append.mpr ⟨initTable_beforeLight s.cfg, hpre⟩
      · rw [todoCost_append, initTable_cost, todoCost_cons, Micro.cost]
        omega
  | cmd pos i =>
    obtain ⟨t, -, h⟩ := turn_command hi hn hg hj ht hm
    exact ⟨t, _, _, h, Device.commanded_enableTurn (d := { d with seq := _, job := some _ })
      (j := { j with todo := pre ++ [.blOn, .finish] }) hg rfl hr hv rfl hpre i _⟩
  | addrMode =>
    obtain ⟨t, -, h⟩ := turn_step9 hi hn hg hj ht
    exact ⟨t, _, _, h, Device.commanded_enableTurn (d := { d with seq := _, job := some _ })
      (j := { j with todo := pre ++ [.blOn, .finish] }) hg rfl hr hv rfl hpre (.madctl (rotByte s.cfg d.rot)) _⟩
  | delay ms =>
    obtain ⟨t, -, h⟩ := turn_delay hi hn hg hj ht
    exact ⟨t, _, _, h.went, .goesOn ⟨hg, rfl, ⟨_, rfl, hr, hv, rfl⟩, hpre⟩ (todoCost_lt_cons _ _ _)⟩
  | paint =>
    obtain ⟨t, -, h⟩ := turn_paint hi hn hg hj ht hv
    refine ⟨t, _, _, h.went, .goesOn (pre := flushSteps (pathOf s.cfg d j.region j.src) j.region d.left d.top ++ pre)
      ⟨hg, rfl, ⟨_, rfl, hr, hv, ?_⟩, ?_⟩ ?_⟩
    · exact (List.append_assoc ..).symm
    · exact List.forall_mem_append.mpr ⟨flushSteps_beforeLight _ _ _ _, hpre⟩
    · have hle := flushSteps_cost s.cfg (pathOf s.cfg d j.region j.src) j.region d.left d.top
      rw [todoCost_append, todoCost_cons, Micro.cost]
      omega
  | convert =>
    cases hf : bytesPerPixel j.src.fmt with
    | none =>
      obtain ⟨t, -, h⟩ := turn_unsupported hi hn hg hj ht hf
      rw [Device.flushCodes_enable (d := { d with job := some { j with todo := pre ++ [.blOn, .finish] } }) rfl hr] at h
      exact ⟨t, _, _, h, .goesOn (Device.flushEnded_enabling (d := Device.countConversion { d with job := some _ }) hg rfl
        hr hv) (todoCost_nil_lt_cons _ _ _)⟩
    | some bpp =>
      obtain ⟨bytes, byte, pick, hconv⟩ := convertRegion_supported (S := j.src)
        (fun k hk => by rw [hk] at hf; cases hf) s.cfg.expand j.raced j.region d.swap s.env
      obtain ⟨t, -, h⟩ := turn_convert hi hn hg hj ht hv hconv
      exact ⟨t, _, _, h.went, .goesOn ⟨hg, rfl, ⟨_, rfl, hr, hv, rfl⟩, hpre⟩ (todoCost_lt_cons _ _ _)⟩
  | data =>
    obtain ⟨t, -, h⟩ := turn_burst hi hn hg hj ht
    rw [Device.flushCodes_enable (d := { d with job := some { j with todo := pre ++ [.blOn, .finish] } }) rfl hr] at h
    exact ⟨t, _, _, h, .goesOn (Device.flushEnded_enabling (d := Device.log { d with job := some _ } _) hg rfl hr hv)
      (todoCost_nil_lt_cons _ _ _)⟩

/-! ## The whole run -/

/-- Within `k` steps from `s` the ENABLE of device `n` completed or failed. -/
def EnableEnds (k : Nat) (s : State) (n : Nat) (rest : List Input) (bl : BacklightId) : Prop :=
  ∃ t e, (Completed k s t n rest bl e ∧ e.st = .active ∧ e.seq = .idle ∧ e.job = none) ∨
    (e.Failed ∧ ∃ code, (code = .busFailure ∨ code = .hwInitFailure) ∧ Went k s t n rest e [code])

theorem Ran.enableEnds {a b n : Nat} {s u : State} {r rest : List Input} {d : Device} {bl : BacklightId}
    (h : Ran a s u n r d) (h' : EnableEnds b u n rest bl) : EnableEnds (a + b) s n rest bl := by
  obtain ⟨t, e, ⟨hdone, hrec⟩ | ⟨hfailed, code, hcode, hwent⟩⟩ := h'
  · exact ⟨t, e, .inl ⟨h.completed hdone, hrec⟩⟩
  · exact ⟨t, e, .inr ⟨hfailed, code, hcode, h.went.trans hwent⟩⟩

/-- An ENABLE ends within as many turns as its steps take at most, the backlight step and the completion with them. -/
theorem enable_ends {k : Nat} {s : State} {n : Nat} {rest : List Input} {bl : BacklightId} {d : Device}
    {pre : List Micro} (h : d.Enabling s.cfg bl pre) (hk : todoCost s.cfg pre + 2 ≤ k) (hi : s.inputs = turns n k rest)
    (hn : s.devs[n]? = some d) : EnableEnds k s n rest bl := by
  induction k generalizing s d pre with
  | zero => exact absurd hk (Nat.not_succ_le_zero _)
  | succ k ih =>
    cases pre with
    | nil =>
      obtain ⟨hg, rfl, ⟨j, hj, -, -, ht⟩, -⟩ := h
      obtain ⟨i, rfl⟩ := Nat.exists_eq_add_of_le (Nat.le_of_succ_le_succ hk : 1 ≤ k)
      have hlen : 1 + i + 1 = 2 + i := by omega
      rw [hlen] at hi ⊢
      obtain ⟨u, hu⟩ := enable_completes (rest := turns n i rest) (by rw [hi, turns_add]) hn hg hj ht
      obtain ⟨t, ht⟩ := hu.idle hn rfl
      exact ⟨t, _, .inl ⟨ht, rfl, rfl, rfl⟩⟩
    | cons m pre =>
      obtain ⟨u, e, codes, hu, hturn⟩ := enable_turn (rest := turns n k rest) h hi hn
      rw [Nat.add_comm k 1]
      cases hturn with
      | goesOn he hc =>
        have hcfg := hu.cfg
        exact hu.ran.enableEnds (ih (by rw [hcfg]; exact he) (by rw [hcfg]; omega) hu.inputs (hu.get hn))
      | fails he hc =>
        obtain ⟨t, -, ht⟩ := hu.idle hn he.job
        exact ⟨t, e, .inr ⟨he, _, hc, ht⟩⟩

/-- Settles O25: the turns given are those the steps of an ENABLE take at most. -/
theorem enableAlwaysReturns : Obligations.EnableAlwaysReturns := by
  intro s n bytes rest region S d hb hi hn hg hj hv
  obtain ⟨u, -, hu⟩ := step_enable hb hi hn hg hj
  have hcfg := hu.cfg
  have henabling : (d.enabling s.cfg region S).Enabling u.cfg d.bl
      [.reset (decide (d.st = .active)), .addrMode, .paint] := by
    rw [hcfg]
    exact ⟨hg, rfl, ⟨_, rfl, rfl, hv, rfl⟩, by simp [Micro.beforeLight]⟩
  have hends := hu.enableEnds (enable_ends henabling
    (by rw [hcfg]; simp only [todoCost, Micro.cost, List.map_cons, List.map_nil, List.sum_cons, List.sum_nil]; omega)
    hu.inputs (hu.get hn))
  have hlen : 27 + s.cfg.pwrSeq.length = 1 + (26 + s.cfg.pwrSeq.length) := by omega
  rw [hlen]
  obtain ⟨t, e, ⟨hdone, hst, hseq, hjob⟩ | ⟨hfailed, code, hcode, hwent⟩⟩ := hends
  · exact ⟨t, e, .ok, hdone.run, hdone.inputs, hdone.devs, hjob, hseq, hdone.returns, .inl ⟨hst, rfl, hdone.blk⟩⟩
  · exact ⟨t, e, code, hwent.run, hwent.inputs, hwent.devs, hfailed.job, hfailed.seq, hwent.returns,
      .inr ⟨hfailed.st, hcode, hwent.blk⟩⟩

end Sys2Proof.Machine
end
